-- ==== Sys2Proof/Word.lean ====
section
/-! DEFINITION. The bus word and the bit vector: the two value types every other file uses. -/

namespace Sys2Proof

/-- A 32-bit bus word, register or memory word (R106, R110). -/
abbrev Word := BitVec 32

/-- A byte address of the host bus space 0x00000..0xFFFFF (R100). -/
abbrev BusAddr := BitVec 20

/-- A bit vector: a sequence of bits with an explicit length; the head is the first bit transmitted or
consumed (R13). -/
abbrev Bits := List Bool

end Sys2Proof
end

