-- ==== Sys2Proof/Syntax.lean ====
section
/-! DEFINITION. The commands: one constructor per row of spec/opcode_table.json. A field a command ignores (R143) is
no argument of its constructor. -/

namespace Sys2Proof

/-- A buffer operand, named by a two-bit DST or SRC field (R30, R141). -/
inductive BufId where
  | b0 | b1 | b2 | b3
  deriving DecidableEq, Repr

/-- The 17 commands of the opcode map (R146). `dst` is the DST buffer, `src` the SRC buffer and `w` the width
W = IMM[5:0] of BPUT and BGET (R142). -/
inductive Instr where
  /-- 0x00 NOP (R201) -/
  | nop
  /-- 0x01 BCLR (R202) -/
  | bclr (dst : BufId)
  /-- 0x02 BCOPY (R203) -/
  | bcopy (dst src : BufId)
  /-- 0x03 BCAT (R204) -/
  | bcat (dst src : BufId)
  /-- 0x04 BPUT (R205) -/
  | bput (dst : BufId) (w : Nat)
  /-- 0x05 BGET (R206) -/
  | bget (src : BufId) (w : Nat)
  /-- 0x10 HBUILD (R235) -/
  | hbuild
  /-- 0x11 HENC (R240) -/
  | henc (dst : BufId)
  /-- 0x12 HDEC (R245) -/
  | hdec (src : BufId)
  /-- 0x18 FENC (R271) -/
  | fenc (dst : BufId)
  /-- 0x19 FDEC (R273) -/
  | fdec (src : BufId)
  /-- 0x20 SENC (R276) -/
  | senc (dst : BufId)
  /-- 0x21 SDEC (R279) -/
  | sdec (src : BufId)
  /-- 0x28 CHAN (R301) -/
  | chan (dst src : BufId)
  /-- 0x30 RENC (R321) -/
  | renc (dst src : BufId)
  /-- 0x31 RDEC (R323) -/
  | rdec (dst src : BufId)
  /-- 0x38 CORR (R341) -/
  | corr (dst src : BufId)
  deriving DecidableEq, Repr

end Sys2Proof
end

