-- ==== Sys2Proof/WellFormed.lean ====
section
/-! DEFINITION. Which command terms the 32-bit format can carry: the width of BPUT and BGET fits IMM[5:0]. A width that
is encodable but outside 1..32 is well formed; its command runs and raises PARAM (R142). -/

namespace Sys2Proof

/-- The width field of BPUT and BGET has six bits (R142). -/
def widthFits (w : Nat) : Bool := decide (w < 64)

/-- The command has an encoding in format C (R140, R142). -/
def Instr.wellFormed : Instr → Bool
  | .nop => true
  | .bclr _ => true
  | .bcopy _ _ => true
  | .bcat _ _ => true
  | .bput _ w => widthFits w
  | .bget _ w => widthFits w
  | .hbuild => true
  | .henc _ => true
  | .hdec _ => true
  | .fenc _ => true
  | .fdec _ => true
  | .senc _ => true
  | .sdec _ => true
  | .chan _ _ => true
  | .renc _ _ => true
  | .rdec _ _ => true
  | .corr _ _ => true

end Sys2Proof
end

