-- ==== Sys2Proof/Decode.lean ====
section
/-! DEFINITION. Decoding a command word, total and rejecting by name (R140 to R148), the encoder written from the same
format (R140, R149), the assembler forms of R149, and decodeTableWord. -/

namespace Sys2Proof

/-- Why a word is illegal (R147). -/
inductive IllegalWord where
  /-- RSV, bits 19:16, is nonzero (R144). -/
  | reservedNonzero
  /-- OPC, bits 31:24, is not in the opcode map (R146). -/
  | unknownOpcode
  deriving DecidableEq, Repr

/-- The inclusive field hi:lo of a word, as a number (R16). -/
def wordField (w : Word) (hi lo : Nat) : Nat := w.toNat / 2 ^ lo % 2 ^ (hi + 1 - lo)

/-- OPC = bits 31:24 (R140). -/
def opcOf (w : Word) : Nat := wordField w 31 24
/-- DST = bits 23:22 (R140). -/
def dstOf (w : Word) : Nat := wordField w 23 22
/-- SRC = bits 21:20 (R140). -/
def srcOf (w : Word) : Nat := wordField w 21 20
/-- RSV = bits 19:16 (R140). -/
def rsvOf (w : Word) : Nat := wordField w 19 16
/-- W = IMM[5:0] (R142). -/
def immWidthOf (w : Word) : Nat := wordField w 5 0

/-- A two-bit field names a buffer; every value is legal (R141). -/
def bufOfField (n : Nat) : BufId :=
  if n = 0 then .b0 else if n = 1 then .b1 else if n = 2 then .b2 else .b3

/-- The field value that names a buffer (R141). -/
def BufId.field : BufId → Nat
  | .b0 => 0
  | .b1 => 1
  | .b2 => 2
  | .b3 => 3

/-- The opcode map: the command an OPC value selects, with the operand fields that command uses (R146). -/
def decodeOpc (opc : Nat) (dst src : BufId) (w : Nat) : Option Instr :=
  match opc with
  | 0x00 => some .nop
  | 0x01 => some (.bclr dst)
  | 0x02 => some (.bcopy dst src)
  | 0x03 => some (.bcat dst src)
  | 0x04 => some (.bput dst w)
  | 0x05 => some (.bget src w)
  | 0x10 => some .hbuild
  | 0x11 => some (.henc dst)
  | 0x12 => some (.hdec src)
  | 0x18 => some (.fenc dst)
  | 0x19 => some (.fdec src)
  | 0x20 => some (.senc dst)
  | 0x21 => some (.sdec src)
  | 0x28 => some (.chan dst src)
  | 0x30 => some (.renc dst src)
  | 0x31 => some (.rdec dst src)
  | 0x38 => some (.corr dst src)
  | _ => none

/-- Decode a command word, or name why it is illegal (R146, R147). RSV is checked whatever the OPC (R144). -/
def decode (w : Word) : Except IllegalWord Instr :=
  if rsvOf w ≠ 0 then .error .reservedNonzero
  else
    match decodeOpc (opcOf w) (bufOfField (dstOf w)) (bufOfField (srcOf w)) (immWidthOf w) with
    | some i => .ok i
    | none => .error .unknownOpcode

/-- The opcode of a command (R146). -/
def Instr.opcode : Instr → Nat
  | .nop => 0x00
  | .bclr _ => 0x01
  | .bcopy _ _ => 0x02
  | .bcat _ _ => 0x03
  | .bput _ _ => 0x04
  | .bget _ _ => 0x05
  | .hbuild => 0x10
  | .henc _ => 0x11
  | .hdec _ => 0x12
  | .fenc _ => 0x18
  | .fdec _ => 0x19
  | .senc _ => 0x20
  | .sdec _ => 0x21
  | .chan _ _ => 0x28
  | .renc _ _ => 0x30
  | .rdec _ _ => 0x31
  | .corr _ _ => 0x38

/-- enc(OPC, DST, SRC, IMM) = OPC·2^24 + DST·2^22 + SRC·2^20 + IMM, with RSV = 0 (R140). -/
def encWord (opc dst src imm : Nat) : Word :=
  BitVec.ofNat 32 (opc * 2 ^ 24 + dst * 2 ^ 22 + src * 2 ^ 20 + imm)

/-- The canonical encoding: 0 in every unused field (R149). -/
def encode : Instr → Word
  | .nop => encWord 0x00 0 0 0
  | .bclr d => encWord 0x01 d.field 0 0
  | .bcopy d s => encWord 0x02 d.field s.field 0
  | .bcat d s => encWord 0x03 d.field s.field 0
  | .bput d w => encWord 0x04 d.field 0 w
  | .bget s w => encWord 0x05 0 s.field w
  | .hbuild => encWord 0x10 0 0 0
  | .henc d => encWord 0x11 d.field 0 0
  | .hdec s => encWord 0x12 0 s.field 0
  | .fenc d => encWord 0x18 d.field 0 0
  | .fdec s => encWord 0x19 0 s.field 0
  | .senc d => encWord 0x20 d.field 0 0
  | .sdec s => encWord 0x21 0 s.field 0
  | .chan d s => encWord 0x28 d.field s.field 0
  | .renc d s => encWord 0x30 d.field s.field 0
  | .rdec d s => encWord 0x31 d.field s.field 0
  | .corr d s => encWord 0x38 d.field s.field 0

/-- The command decoded from an opcode-table word: a command is one 32-bit bus word (R148), so the table's bit
numbering is the word's own. -/
def decodeTableWord (nbits w : Nat) : Option Instr :=
  match decode (BitVec.ofNat 32 (w % 2 ^ nbits)) with
  | .ok i => some i
  | .error _ => none

/-- An operand of the assembler syntax: `bK` or `#n` (R149). -/
inductive AsmOperand where
  | buf (b : BufId)
  | imm (n : Nat)
  deriving DecidableEq, Repr

/-- The assembler: a lowercase mnemonic with its used fields, DST first (R149), and the aliases bmov and bzero
(R153). Operands of the wrong number or kind are refused. -/
def assemble (mnemonic : String) (operands : List AsmOperand) : Option Instr :=
  match operands with
  | [] =>
    if mnemonic = "nop" then some .nop
    else if mnemonic = "hbuild" then some .hbuild
    else none
  | [.buf b] =>
    if mnemonic = "bclr" ∨ mnemonic = "bzero" then some (.bclr b)
    else if mnemonic = "henc" then some (.henc b)
    else if mnemonic = "hdec" then some (.hdec b)
    else if mnemonic = "fenc" then some (.fenc b)
    else if mnemonic = "fdec" then some (.fdec b)
    else if mnemonic = "senc" then some (.senc b)
    else if mnemonic = "sdec" then some (.sdec b)
    else none
  | [.buf b, .imm n] =>
    if mnemonic = "bput" then some (.bput b n)
    else if mnemonic = "bget" then some (.bget b n)
    else none
  | [.buf d, .buf s] =>
    if mnemonic = "bcopy" ∨ mnemonic = "bmov" then some (.bcopy d s)
    else if mnemonic = "bcat" then some (.bcat d s)
    else if mnemonic = "chan" then some (.chan d s)
    else if mnemonic = "renc" then some (.renc d s)
    else if mnemonic = "rdec" then some (.rdec d s)
    else if mnemonic = "corr" then some (.corr d s)
    else none
  | _ => none

end Sys2Proof
end

