-- ==== Sys2Proof/Config.lean ====
section
/-! DEFINITION. The implementation parameters of R9 at the values this hardware takes, and the open channel
parameter ChannelDraw of R12. -/

namespace Sys2Proof.Config

/-- NSYM: size of the Huffman symbol alphabet (R9). -/
@[simp] abbrev nsym : Nat := 256
/-- NBUF: number of bit buffers (R9). -/
@[simp] abbrev nbuf : Nat := 4
/-- BUF_BITS: capacity of each bit buffer in bits (R9). -/
@[simp] abbrev bufBits : Nat := 16384
/-- The window words of one buffer, BUF_BITS / 32 (R101, R103). -/
@[simp] abbrev bufWords : Nat := 512
/-- SYM_DEPTH: words of the symbol memory (R9). -/
@[simp] abbrev symDepth : Nat := 1024
/-- CB_DEPTH: entries of the codebook memory (R9). -/
@[simp] abbrev cbDepth : Nat := 1024
/-- TRIE_DEPTH: node words of the decode-trie arena (R9, R10). -/
@[simp] abbrev trieDepth : Nat := 511
/-- MAX_CODE_LEN: longest Huffman codeword (R9, R10). -/
@[simp] abbrev maxCodeLen : Nat := 255
/-- FREQ_W: width of one frequency word (R9). -/
@[simp] abbrev freqW : Nat := 32
/-- SUM_W: width that holds every merge sum; the model computes the sums exactly (R9, R232). -/
@[simp] abbrev sumW : Nat := 40
/-- MAX_FIELD_W: largest semantic id field width (R9, R275). -/
@[simp] abbrev maxFieldW : Nat := 16
/-- MAX_CB_W: largest codebook entry width (R9). -/
@[simp] abbrev maxCbW : Nat := 64
/-- MAX_REP: largest repetition factor (R9). -/
@[simp] abbrev maxRep : Nat := 255
/-- PROB_ONE: the PROB value that means p = 1 (R9, R300). -/
@[simp] abbrev probOne : Nat := 65536

/-- ChannelDraw: the k-th 16-bit draw after the generator was seeded with `seed`. The spec leaves the generator
open, so this constant has no body: every theorem about CHAN holds for every generator (R12, D20; assumption 1).
It is fixed for a whole run (R151, C8). -/
opaque channelDraw (seed : BitVec 32) (k : BitVec 32) : BitVec 16

end Sys2Proof.Config
end

