-- ==== Sys2Proof/Machine/State.lean ====
section
/-! DEFINITION. All the state the spec gives the VLCE, as plain data, the reasons a step stops, and the state after
power-on reset. -/

namespace Sys2Proof.Machine

/-- The error codes of R402. No other value is ever written to STATUS.ERRCODE. -/
inductive ErrCode where
  | ok | illegal | param | emptyFreq | noTable | emptyCb | width | range | capacity
  deriving DecidableEq, Repr

/-- Why a step stops (R420): runs the hardware would make meaningless. A faulted state is never final. -/
inductive Fault where
  /-- UNINIT_READ: the engine or the host read the memory word at this bus address before any write reached it
  (R60). Raised by every command that reads a memory and by host window reads. Safe: the hardware goes on with an
  unspecified value and the model stops. -/
  | uninitRead (addr : Nat)
  /-- HOST_HAZARD: a host access to this bus address that R460 does not allow while BUSY = 1. Raised by the host's
  turns. Safe: the hardware result is unspecified and the model stops. -/
  | hostHazard (addr : Nat)
  /-- The host is stuck: a byte, halfword or misaligned access at this bus address, for which the model has no step
  (R106). Raised by the host's turns. Safe: the hardware's effect is unspecified and the model stops. -/
  | hostStuck (addr : Nat)
  deriving DecidableEq, Repr

/-- Why the model has no meaning for a command. -/
inductive Refusal where
  /-- The command with this mnemonic has no meaning in the model yet. Raised by exec's refused arms. Safe. -/
  | notModelled (mnemonic : String)
  deriving DecidableEq, Repr

/-- How a command rule ends early: `raise Error(code, info)` (R17), or a read of an unwritten word (R60). -/
inductive Stop where
  | raised (code : ErrCode) (info : Nat)
  | fault (f : Fault)
  deriving DecidableEq, Repr

/-- The fields of STATUS (R40). The reserved bits 7:5 and 31:24 read as 0 and are not stored. -/
structure Status where
  busy : Bool
  done : Bool
  err : Bool
  ovr : Bool
  tblv : Bool
  errcode : ErrCode
  lastop : BitVec 8
  deriving DecidableEq, Repr

/-- A buffer length, always in 0..16384 (R32). -/
abbrev BufLen := Fin 16385

/-- The length registers LEN0..LEN3 (R32). -/
structure Lens where
  len0 : BufLen
  len1 : BufLen
  len2 : BufLen
  len3 : BufLen
  deriving DecidableEq, Repr

/-- The configuration registers, each with the bits R48 stores. SEMW is held as its three fields WH, WR and WT. -/
structure ConfigRegs where
  fixw : BitVec 6
  fbw : BitVec 6
  rep : BitVec 8
  prob : BitVec 17
  seed : BitVec 32
  semWh : BitVec 5
  semWr : BitVec 5
  semWt : BitVec 5
  semNh : BitVec 17
  semNr : BitVec 17
  semNt : BitVec 17
  cbW : BitVec 7
  cbN : BitVec 11
  symInBase : BitVec 10
  symInCnt : BitVec 11
  symOutBase : BitVec 10
  pkData : BitVec 32
  pkOff : BitVec 15
  deriving DecidableEq, Repr

/-- The result registers, written by the engine only (R52). -/
structure ResultRegs where
  symOutCnt : BitVec 11
  resid : BitVec 16
  drop : BitVec 16
  badbit : BitVec 16
  corrIdx : BitVec 10
  corrDist : BitVec 7
  hbNleaf : BitVec 9
  hbMaxlen : BitVec 8
  hbNnode : BitVec 9
  deriving DecidableEq, Repr

/-- One written memory word: its byte address on the host bus and its value. -/
abbrev MemCell := Nat × Word

/-- The internal memories FREQ, TRIE, SYM, CB, CODE and the four buffer arrays (R54 to R59, R30), each at its window's
bus addresses (R101): the written words, addresses strictly rising. A word not listed carries no written mark (R60). -/
abbrev Memory := List MemCell

/-- Bus access sizes. Only whole words are supported (R106). -/
inductive AccessSize where
  | byte | half | word
  deriving DecidableEq, Repr

/-- One host access on the register bus (R20, R100). -/
inductive Access where
  | read (size : AccessSize) (addr : BusAddr)
  | write (size : AccessSize) (addr : BusAddr) (data : Word)
  deriving DecidableEq, Repr

/-- Who moves next: the host with one bus access, the engine with its completion step, or the RST input (R20, R151,
R450). -/
inductive Turn where
  | host (a : Access)
  | engine
  | powerOn
  deriving DecidableEq, Repr

/-- The registers of the host register window (R32, R40, R43 to R52, R57). -/
inductive Reg where
  | id | version | ctrl | status | cmd | errinfo
  | len (b : BufId)
  | fixw | fbw | rep | prob | seed | drawcnt
  | semw | semNh | semNr | semNt
  | cbW | cbN
  | symInBase | symInCnt | symOutBase | symOutCnt
  | pkData | pkOff
  | resid | drop | badbit | corrIdx | corrDist
  | hbNleaf | hbMaxlen | hbNnode
  deriving DecidableEq, Repr

/-- The state of the VLCE. ID and VERSION are constants and have no field (R43, R44). The last two fields are the
model's own: `agenda` is the plain-data input of the host and of the scheduler (assumption 2), `rdata` the word the
last host read returned (assumption 3). -/
structure State where
  /-- STATUS (R40). -/
  status : Status
  /-- CTRL.IE (R46). -/
  ie : Bool
  /-- CMD_LATCH, the last accepted command word (R45, R150). -/
  cmd : Word
  /-- A command is accepted but not yet executed (R61). -/
  pending : Bool
  /-- ERRINFO (R47). -/
  errinfo : Word
  /-- LEN0..LEN3 (R32). -/
  lens : Lens
  /-- The configuration registers (R48). -/
  cfg : ConfigRegs
  /-- DRAW_IDX, read as DRAWCNT (R57). -/
  drawIdx : BitVec 32
  /-- The result registers (R52). -/
  res : ResultRegs
  /-- The memories with their written marks (R54 to R60). -/
  mem : Memory
  /-- The turns still to come. -/
  agenda : List Turn
  /-- The data of the last host read. -/
  rdata : Word
  deriving DecidableEq, Repr

/-- STATUS after reset: 0 (R62). -/
def Status.reset : Status :=
  { busy := false, done := false, err := false, ovr := false, tblv := false, errcode := .ok, lastop := 0 }

/-- LEN0..LEN3 after reset: 0 (R62). -/
def Lens.reset : Lens := { len0 := 0, len1 := 0, len2 := 0, len3 := 0 }

/-- The configuration registers after reset: FIXW = 7, FBW = 8, REP = 1, every other 0 (R62). -/
def ConfigRegs.reset : ConfigRegs :=
  { fixw := 7, fbw := 8, rep := 1, prob := 0, seed := 0
    semWh := 0, semWr := 0, semWt := 0, semNh := 0, semNr := 0, semNt := 0
    cbW := 0, cbN := 0, symInBase := 0, symInCnt := 0, symOutBase := 0, pkData := 0, pkOff := 0 }

/-- The result registers after reset: 0 (R62). -/
def ResultRegs.reset : ResultRegs :=
  { symOutCnt := 0, resid := 0, drop := 0, badbit := 0, corrIdx := 0, corrDist := 0
    hbNleaf := 0, hbMaxlen := 0, hbNnode := 0 }

/-- The state after power-on reset: every register at its value of R62, every memory word unwritten (R450). The
model's own fields start empty (assumptions 2 and 3). -/
def State.reset : State :=
  { status := Status.reset, ie := false, cmd := 0, pending := false, errinfo := 0, lens := Lens.reset
    cfg := ConfigRegs.reset, drawIdx := 0, res := ResultRegs.reset, mem := [], agenda := [], rdata := 0 }

end Sys2Proof.Machine
end

