-- ==== Sys2Proof/Machine/Flags.lean ====
section
/-! DEFINITION. STATUS and IRQ: the error codes as numbers, STATUS as a word, what acceptance, completion and a host
write do to it (R40, R150 to R152, R400, R402, R410). -/

namespace Sys2Proof.Machine

/-- The value of an error code (R402). -/
def ErrCode.value : ErrCode → BitVec 8
  | .ok => 0x00
  | .illegal => 0x01
  | .param => 0x02
  | .emptyFreq => 0x03
  | .noTable => 0x04
  | .emptyCb => 0x05
  | .width => 0x06
  | .range => 0x07
  | .capacity => 0x08

/-- STATUS as software reads it (R40). -/
def Status.word (st : Status) : Word :=
  0#8 ++ st.lastop ++ st.errcode.value ++ 0#3 ++ BitVec.ofBool st.tblv ++ BitVec.ofBool st.ovr
    ++ BitVec.ofBool st.err ++ BitVec.ofBool st.done ++ BitVec.ofBool st.busy

/-- A host write of STATUS: DONE, ERR and OVR clear where the written bit is 1; the other bits ignore it (R40). -/
def Status.hostWrite (st : Status) (w : Word) : Status :=
  { st with
    done := st.done && !w.getLsbD 1
    err := st.err && !w.getLsbD 2
    ovr := st.ovr && !w.getLsbD 3 }

/-- STATUS when a command is accepted: BUSY set, DONE cleared, ERR and OVR unchanged (R150). -/
def Status.accepted (st : Status) : Status := { st with busy := true, done := false }

/-- STATUS when a CMD write is dropped: OVR set (R152). -/
def Status.dropped (st : Status) : Status := { st with ovr := true }

/-- STATUS when a command completes with `code` and opcode `opc`: ERR is set by an error and kept by a success
(R151, R401). -/
def Status.completed (st : Status) (opc : BitVec 8) (code : ErrCode) : Status :=
  { st with
    busy := false
    done := true
    err := st.err || decide (code ≠ .ok)
    errcode := code
    lastop := opc }

/-- IRQ = STATUS.DONE AND CTRL.IE (R410). -/
def State.irq (s : State) : Bool := s.status.done && s.ie

/-- CMD_LATCH[31:24], which a completion stores in LASTOP (R151). -/
def State.latchedOpc (s : State) : BitVec 8 := BitVec.ofNat 8 (opcOf s.cmd)

end Sys2Proof.Machine
end

