-- ==== Sys2Proof/Machine/Ops.lean ====
section
/-! DEFINITION. The operations every command shares: bit vectors (R13 to R19), the memories (R17, R60, R100 to R104),
buffers, symbol ranges, and completing a command with success or with an error (R151, R400, R401). -/

namespace Sys2Proof.Machine

/-! ## Bit vectors -/

/-- val(v) = Σ v[i]·2^(|v|-1-i): the first bit is the most significant (R15). -/
def val : Bits → Nat
  | [] => 0
  | b :: v => b.toNat * 2 ^ v.length + val v

/-- bits_W(x): the W bits of x mod 2^W, most significant first (R15). -/
def bitsOf : Nat → Nat → Bits
  | 0, _ => []
  | w + 1, x => x.testBit w :: bitsOf w x

/-- v[i:j], the half-open slice (R14). -/
def slice (v : Bits) (i j : Nat) : Bits := (v.drop i).take (j - i)

/-- zeros(n) (R14). -/
def zeros (n : Nat) : Bits := List.replicate n false

/-- The Hamming distance of two vectors of equal length (R19). -/
def hammingDist : Bits → Bits → Nat
  | a :: u, b :: v => (a != b).toNat + hammingDist u v
  | _, _ => 0

/-- popcount(v): the number of 1 bits (R19). -/
def popcount (v : Bits) : Nat := v.count true

/-- The first `m` consecutive chunks of `w` bits. -/
def chunks (w : Nat) : Nat → Bits → List Bits
  | 0, _ => []
  | m + 1, v => v.take w :: chunks w m (v.drop w)

/-! ## Packing bits into words -/

/-- The 32 cells of a word, its most significant bit first (R103). -/
def wordBits (w : Word) : Bits := bitsOf 32 w.toNat

/-- A word holding at most 32 cells, the first in the most significant bit and 0 in the rest (R103, R104). -/
def wordOfBits (v : Bits) : Word := BitVec.ofNat 32 (val v * 2 ^ (32 - v.length))

/-- `n` window words holding v ++ zeros (R103, R104). -/
def packWords : Nat → Bits → List Word
  | 0, _ => []
  | n + 1, v => wordOfBits (v.take 32) :: packWords n (v.drop 32)

/-- The cells of consecutive window words (R103). -/
def unpackWords (ws : List Word) : Bits := ws.flatMap wordBits

/-- The window words that hold `n` cells. -/
def wordsFor (n : Nat) : Nat := (n + 31) / 32

/-! ## The memories -/

/-- FREQ[s] is at 0x01000 + 4·s (R54). -/
def freqAddr (i : Nat) : Nat := 0x01000 + 4 * i
/-- TRIE[n] is at 0x02000 + 4·n (R56). -/
def trieAddr (n : Nat) : Nat := 0x02000 + 4 * n
/-- SYM[i] is at 0x04000 + 4·i (R58). -/
def symAddr (i : Nat) : Nat := 0x04000 + 4 * i
/-- The low word of CB[j] is at 0x08000 + 8·j, the high word 4 above it (R59). -/
def cbAddr (j : Nat) : Nat := 0x08000 + 8 * j
/-- CODE[s] is at 0x10000 + 64·s: CODE_LEN, then the eight CODE_BITS words (R55). -/
def codeAddr (i : Nat) : Nat := 0x10000 + 64 * i
/-- Window word m of buffer Bk is at 0x20000 + 0x800·k + 4·m (R101). -/
def bufAddr (b : BufId) (m : Nat) : Nat := 0x20000 + 0x800 * b.field + 4 * m

/-- What the host may do with a window (R101). -/
inductive Window where
  | readWrite
  | readOnly
  deriving DecidableEq, Repr

/-- The memory window a word address lies in; `none` for registers and reserved addresses (R55, R56, R101). -/
def windowAt (a : Nat) : Option Window :=
  if 0x01000 ≤ a ∧ a < 0x01400 then some .readWrite
  else if 0x02000 ≤ a ∧ a < 0x027FC then some .readOnly
  else if 0x04000 ≤ a ∧ a < 0x05000 then some .readWrite
  else if 0x08000 ≤ a ∧ a < 0x0A000 then some .readWrite
  else if 0x10000 ≤ a ∧ a < 0x14000 ∧ a % 64 < 0x24 then some .readOnly
  else if 0x20000 ≤ a ∧ a < 0x22000 then some .readWrite
  else none

/-- The canonical form: addresses strictly rising, each the address of a memory word the map has (R60, R101). -/
abbrev Memory.wf (m : Memory) : Prop :=
  m.Pairwise (fun c d => c.1 < d.1) ∧ ∀ c ∈ m, c.1 % 4 = 0 ∧ windowAt c.1 ≠ none

/-- The word at a bus address; `none` where no write has reached it (R60). -/
def Memory.read (m : Memory) (a : Nat) : Option Word := m.lookup a

/-- The cells of consecutive words from address `a` up. -/
def cellsAt (a : Nat) : List Word → List MemCell
  | [] => []
  | w :: ws => (a, w) :: cellsAt (a + 4) ws

/-- Replace everything in [lo, hi) by `cells`, whose addresses rise within it. -/
def Memory.replace (m : Memory) (lo hi : Nat) (cells : List MemCell) : Memory :=
  m.filter (fun c => decide (c.1 < lo)) ++ cells ++ m.filter (fun c => decide (hi ≤ c.1))

/-- Write consecutive words from address `a` up, setting their written marks (R60). -/
def Memory.writeWords (m : Memory) (a : Nat) (ws : List Word) : Memory :=
  m.replace a (a + 4 * ws.length) (cellsAt a ws)

/-- MemRead: a read of an unwritten word is the model fault UNINIT_READ (R17, R60). -/
def State.readWord (s : State) (a : Nat) : Except Stop Word :=
  match s.mem.read a with
  | some w => .ok w
  | none => .error (.fault (.uninitRead a))

/-- `n` consecutive words from address `a` up. -/
def State.readWords (s : State) : Nat → Nat → Except Stop (List Word)
  | _, 0 => .ok []
  | a, n + 1 => (s.readWord a).bind fun w => (s.readWords (a + 4) n).map (w :: ·)

/-- MemWrite of consecutive words (R17). -/
def State.writeWords (s : State) (a : Nat) (ws : List Word) : State :=
  { s with mem := s.mem.writeWords a ws }

/-! ## Buffers -/

/-- The length register of a buffer (R32). -/
def Lens.get (l : Lens) : BufId → BufLen
  | .b0 => l.len0
  | .b1 => l.len1
  | .b2 => l.len2
  | .b3 => l.len3

/-- Store a length register (R32). -/
def Lens.set (l : Lens) (b : BufId) (n : BufLen) : Lens :=
  match b with
  | .b0 => { l with len0 := n }
  | .b1 => { l with len1 := n }
  | .b2 => { l with len2 := n }
  | .b3 => { l with len3 := n }

/-- min(x, BUF_BITS), what a length register stores (R32). -/
def clampLen (x : Nat) : BufLen := ⟨min x Config.bufBits, Nat.lt_succ_of_le (Nat.min_le_right x _)⟩

/-- LEN_k as a number. -/
def State.bufLen (s : State) (b : BufId) : Nat := (s.lens.get b).val

/-- Buf(k): the first LEN_k cells of the buffer, reading only the window words that hold them (R17, R31, R60). -/
def State.buf (s : State) (b : BufId) : Except Stop Bits :=
  (s.readWords (bufAddr b 0) (wordsFor (s.bufLen b))).map fun ws => (unpackWords ws).take (s.bufLen b)

/-- SetBuf(k, v): LEN_k becomes |v|, the cells become v ++ zeros, and every word of the buffer is marked written
(R17, R60, R104). Its caller has |v| ≤ BUF_BITS. -/
def State.setBuf (s : State) (b : BufId) (v : Bits) : State :=
  { s with
    lens := s.lens.set b (clampLen v.length)
    mem := s.mem.writeWords (bufAddr b 0) (packWords Config.bufWords v) }

/-! ## Completion -/

/-- ERRINFO keeps its value saturated at 2^32 - 1 (R200, R403). -/
def saturate (n : Nat) : Word := BitVec.ofNat 32 (min n (2 ^ 32 - 1))

/-- A successful completion: ERRCODE = OK, ERR and ERRINFO kept (R151, R401). -/
def State.completeOk (s : State) : State :=
  { s with status := s.status.completed s.latchedOpc .ok, pending := false }

/-- An error completion, the VLCE's only trap-like event. Nothing is saved and control does not move (R151, R400). -/
def State.raiseError (s : State) (code : ErrCode) (info : Nat) : State :=
  { s with status := s.status.completed s.latchedOpc code, pending := false, errinfo := saturate info }

/-- The host's acknowledgement of an error, `wr STATUS, 0x0000000E`: there is no return instruction and nothing to
restore (R153, R406). -/
def State.acknowledge (s : State) : State := { s with status := s.status.hostWrite 0x0000000E }

/-- Complete a command whose rule gave `r`: its effect if no error was raised, the error completion of the old state
if one was, and the model fault otherwise (R18, R151, R401). -/
def State.settle (s : State) (r : Except Stop State) : Host.Outcome State Fault Refusal :=
  match r with
  | .ok t => .next t.completeOk
  | .error (.raised code info) => .next (s.raiseError code info)
  | .error (.fault f) => .fault f

/-- The completion of an illegal word: ILLEGAL, with the whole command word as information, and no other change
(R147, R403). -/
def State.completeIllegal (s : State) : State := s.raiseError .illegal s.cmd.toNat

end Sys2Proof.Machine
end

