-- ==== Sys2Proof/Machine/Regs.lean ====
section
/-! DEFINITION. The host register window: addresses, what a read returns, what a write does, and the soft reset
(R32, R40 to R53, R57, R451). -/

namespace Sys2Proof.Machine

/-- The byte offset of a register on the host bus (R32, R40, R43 to R52, R57). -/
def Reg.addr : Reg → Nat
  | .id => 0x000
  | .version => 0x004
  | .ctrl => 0x008
  | .status => 0x00C
  | .cmd => 0x010
  | .errinfo => 0x014
  | .len b => 0x020 + 4 * b.field
  | .fixw => 0x040
  | .fbw => 0x044
  | .rep => 0x048
  | .prob => 0x04C
  | .seed => 0x050
  | .drawcnt => 0x054
  | .semw => 0x058
  | .semNh => 0x05C
  | .semNr => 0x060
  | .semNt => 0x064
  | .cbW => 0x068
  | .cbN => 0x06C
  | .symInBase => 0x070
  | .symInCnt => 0x074
  | .symOutBase => 0x078
  | .symOutCnt => 0x07C
  | .pkData => 0x080
  | .pkOff => 0x084
  | .resid => 0x088
  | .drop => 0x08C
  | .badbit => 0x090
  | .corrIdx => 0x094
  | .corrDist => 0x098
  | .hbNleaf => 0x09C
  | .hbMaxlen => 0x0A0
  | .hbNnode => 0x0A4

/-- Every register of the window. -/
def allRegs : List Reg :=
  [.id, .version, .ctrl, .status, .cmd, .errinfo, .len .b0, .len .b1, .len .b2, .len .b3,
   .fixw, .fbw, .rep, .prob, .seed, .drawcnt, .semw, .semNh, .semNr, .semNt, .cbW, .cbN]
  ++ [.symInBase, .symInCnt, .symOutBase, .symOutCnt, .pkData, .pkOff, .resid, .drop, .badbit,
   .corrIdx, .corrDist, .hbNleaf, .hbMaxlen, .hbNnode]

/-- The register at a bus address; `none` where the address is reserved (R53). -/
def regAt (a : Nat) : Option Reg := allRegs.find? (fun r => r.addr == a)

/-- The constant ID reads, ASCII "VLCE" (R43). -/
def idValue : Word := 0x564C4345
/-- The constant VERSION reads (R44). -/
def versionValue : Word := 0x00000001

/-- SEMW as a word: WH at [4:0], WR at [12:8], WT at [20:16], the rest 0 (R48). -/
def ConfigRegs.semwWord (c : ConfigRegs) : Word := 0#11 ++ c.semWt ++ 0#3 ++ c.semWr ++ 0#3 ++ c.semWh

/-- What a host read of a register returns: its stored bits, zero elsewhere. Reads have no side effect (R107, R110). -/
def State.readReg (s : State) : Reg → Word
  | .id => idValue
  | .version => versionValue
  | .ctrl => (BitVec.ofBool s.ie).setWidth 32
  | .status => s.status.word
  | .cmd => s.cmd
  | .errinfo => s.errinfo
  | .len b => BitVec.ofNat 32 (s.bufLen b)
  | .fixw => s.cfg.fixw.setWidth 32
  | .fbw => s.cfg.fbw.setWidth 32
  | .rep => s.cfg.rep.setWidth 32
  | .prob => s.cfg.prob.setWidth 32
  | .seed => s.cfg.seed
  | .drawcnt => s.drawIdx
  | .semw => s.cfg.semwWord
  | .semNh => s.cfg.semNh.setWidth 32
  | .semNr => s.cfg.semNr.setWidth 32
  | .semNt => s.cfg.semNt.setWidth 32
  | .cbW => s.cfg.cbW.setWidth 32
  | .cbN => s.cfg.cbN.setWidth 32
  | .symInBase => s.cfg.symInBase.setWidth 32
  | .symInCnt => s.cfg.symInCnt.setWidth 32
  | .symOutBase => s.cfg.symOutBase.setWidth 32
  | .symOutCnt => s.res.symOutCnt.setWidth 32
  | .pkData => s.cfg.pkData
  | .pkOff => s.cfg.pkOff.setWidth 32
  | .resid => s.res.resid.setWidth 32
  | .drop => s.res.drop.setWidth 32
  | .badbit => s.res.badbit.setWidth 32
  | .corrIdx => s.res.corrIdx.setWidth 32
  | .corrDist => s.res.corrDist.setWidth 32
  | .hbNleaf => s.res.hbNleaf.setWidth 32
  | .hbMaxlen => s.res.hbMaxlen.setWidth 32
  | .hbNnode => s.res.hbNnode.setWidth 32

/-- A soft reset: every register of R62 at its reset value; the memories and their written marks kept (R451). -/
def State.softReset (s : State) : State :=
  { State.reset with mem := s.mem, agenda := s.agenda, rdata := s.rdata }

/-- The RST input: registers and the pending condition reset, every memory word unwritten (R450). -/
def State.powerOn (s : State) : State := { State.reset with agenda := s.agenda, rdata := s.rdata }

/-- Acceptance of the command word `c` (R150). -/
def State.accept (s : State) (c : Word) : State :=
  { s with cmd := c, status := s.status.accepted, pending := true }

/-- A write of CMD is accepted when idle and dropped when busy (R45, R150, R152). -/
def State.writeCmd (s : State) (c : Word) : State :=
  if s.status.busy then { s with status := s.status.dropped } else s.accept c

/-- A write of CTRL: SRST = 1 performs a soft reset and the same write's IE is ignored (R46, R451). -/
def State.writeCtrl (s : State) (w : Word) : State :=
  if w.getLsbD 1 then s.softReset else { s with ie := w.getLsbD 0 }

/-- A write of LENk stores min(x, BUF_BITS) (R32). -/
def State.writeLen (s : State) (b : BufId) (w : Word) : State :=
  { s with lens := s.lens.set b (clampLen w.toNat) }

/-- A write of SEED also sets DRAW_IDX to 0 (R57). -/
def State.writeSeed (s : State) (w : Word) : State :=
  { s with cfg := { s.cfg with seed := w }, drawIdx := 0 }

/-- What a host write of a register does. A configuration register stores the listed bits of the value as written,
legal or not; a read-only register ignores the write (R42 to R53, R107). -/
def State.writeReg (s : State) (r : Reg) (w : Word) : State :=
  match r with
  | .id => s
  | .version => s
  | .ctrl => s.writeCtrl w
  | .status => { s with status := s.status.hostWrite w }
  | .cmd => s.writeCmd w
  | .errinfo => s
  | .len b => s.writeLen b w
  | .fixw => { s with cfg := { s.cfg with fixw := w.setWidth 6 } }
  | .fbw => { s with cfg := { s.cfg with fbw := w.setWidth 6 } }
  | .rep => { s with cfg := { s.cfg with rep := w.setWidth 8 } }
  | .prob => { s with cfg := { s.cfg with prob := w.setWidth 17 } }
  | .seed => s.writeSeed w
  | .drawcnt => s
  | .semw => { s with cfg := { s.cfg with
      semWh := w.extractLsb' 0 5, semWr := w.extractLsb' 8 5, semWt := w.extractLsb' 16 5 } }
  | .semNh => { s with cfg := { s.cfg with semNh := w.setWidth 17 } }
  | .semNr => { s with cfg := { s.cfg with semNr := w.setWidth 17 } }
  | .semNt => { s with cfg := { s.cfg with semNt := w.setWidth 17 } }
  | .cbW => { s with cfg := { s.cfg with cbW := w.setWidth 7 } }
  | .cbN => { s with cfg := { s.cfg with cbN := w.setWidth 11 } }
  | .symInBase => { s with cfg := { s.cfg with symInBase := w.setWidth 10 } }
  | .symInCnt => { s with cfg := { s.cfg with symInCnt := w.setWidth 11 } }
  | .symOutBase => { s with cfg := { s.cfg with symOutBase := w.setWidth 10 } }
  | .symOutCnt => s
  | .pkData => { s with cfg := { s.cfg with pkData := w } }
  | .pkOff => { s with cfg := { s.cfg with pkOff := w.setWidth 15 } }
  | .resid => s
  | .drop => s
  | .badbit => s
  | .corrIdx => s
  | .corrDist => s
  | .hbNleaf => s
  | .hbMaxlen => s
  | .hbNnode => s

end Sys2Proof.Machine
end

