-- ==== Sys2Proof/Machine/Bus.lean ====
section
/-! DEFINITION. The host agent's step: one access on the register bus (R100 to R107, R460). -/

namespace Sys2Proof.Machine

/-- What a bus address names: a register, a word of a memory window, or nothing (R101). -/
inductive Place where
  | reg (r : Reg)
  | mem (w : Window)
  | reserved
  deriving DecidableEq, Repr

/-- The place at a bus address. The register window comes first (R53, R101). -/
def placeAt (a : Nat) : Place :=
  match regAt a with
  | some r => .reg r
  | none =>
    match windowAt a with
    | some w => .mem w
    | none => .reserved

/-- The host reads R460 allows while BUSY = 1. -/
def busyReadAllowed (p : Place) : Bool :=
  decide (p = .reg .id ∨ p = .reg .version ∨ p = .reg .ctrl ∨ p = .reg .status ∨ p = .reg .cmd)

/-- The host writes R460 allows while BUSY = 1: STATUS, CMD, and CTRL with SRST = 0. -/
def busyWriteAllowed (p : Place) (w : Word) : Bool :=
  decide (p = .reg .status ∨ p = .reg .cmd ∨ (p = .reg .ctrl ∧ w.getLsbD 1 = false))

/-- A supported access: an aligned whole word (R106). -/
def accessSupported (z : AccessSize) (a : BusAddr) : Bool := decide (z = .word ∧ a.toNat % 4 = 0)

/-- The data of a host read; none for a memory word no write has reached (R60, R101, R102). -/
def State.readPlace (s : State) (a : Nat) (p : Place) : Option Word :=
  match p with
  | .reg r => some (s.readReg r)
  | .mem _ => s.mem.read a
  | .reserved => some 0

/-- The state after a host write: a read-only window and a reserved address ignore it (R101, R102, R107). -/
def State.writePlace (s : State) (a : Nat) (p : Place) (w : Word) : State :=
  match p with
  | .reg r => s.writeReg r w
  | .mem .readWrite => s.writeWords a [w]
  | .mem .readOnly => s
  | .reserved => s

/-- A host read: the bus returns the data, and nothing else changes; a read of an unwritten word is UNINIT_READ (R60,
R107). A read of an unwritten window word while BUSY = 1 is that and HOST_HAZARD too (R460), in an order the spec does not
give: that the hazard is the fault reported is the model's choice (assumption 21, DESIGN CHOICE). -/
def State.hostRead (s : State) (a : Nat) : Host.Outcome State Fault Refusal :=
  let p := placeAt a
  if s.status.busy && !busyReadAllowed p then .fault (.hostHazard a)
  else
    match s.readPlace a p with
    | some w => .next { s with rdata := w }
    | none => .fault (.uninitRead a)

/-- A host write (R107, R460). -/
def State.hostWrite (s : State) (a : Nat) (w : Word) : Host.Outcome State Fault Refusal :=
  let p := placeAt a
  if s.status.busy && !busyWriteAllowed p w then .fault (.hostHazard a)
  else .next (s.writePlace a p w)

/-- One bus access; an unsupported one leaves the host stuck (R106). -/
def State.hostTurn (s : State) (x : Access) : Host.Outcome State Fault Refusal :=
  match x with
  | .read z a => if accessSupported z a then s.hostRead a.toNat else .fault (.hostStuck a.toNat)
  | .write z a w => if accessSupported z a then s.hostWrite a.toNat w else .fault (.hostStuck a.toNat)

end Sys2Proof.Machine
end

