-- ==== Sys2Proof/Machine/Operands.lean ====
section
/-! DEFINITION. The operands of the commands beside their buffers: the IMM width (R142), the width registers, the
symbol ranges (R51), the semantic field widths (R275) and the codebook entries (R340). -/

namespace Sys2Proof.Machine

/-- A width of BPUT, BGET, FENC, FDEC or HENC is legal in 1..32 (R48, R142). -/
def widthLegal (w : Nat) : Bool := decide (1 ≤ w ∧ w ≤ 32)

/-- The PARAM information of an illegal IMM width: the offset of CMD (R205, R403). -/
def immParam : Stop := .raised .param Reg.cmd.addr

/-- PARAM with the byte offset of the register holding the bad value (R403). -/
def regParam (r : Reg) : Stop := .raised .param r.addr

/-- The words of `n` input items of `k` words each, or RANGE when they pass SYM_DEPTH (R51). -/
def State.inputRangeLegal (s : State) (k : Nat) : Bool :=
  decide (s.cfg.symInBase.toNat + s.cfg.symInCnt.toNat * k ≤ Config.symDepth)

/-- RANGE with the offset of SYM_IN_BASE (R403). -/
def inputRange : Stop := .raised .range Reg.symInBase.addr

/-- SYM words [SYM_IN_BASE, SYM_IN_BASE + SYM_IN_CNT) (R240, R271). -/
def State.inputWords (s : State) : Except Stop (List Word) :=
  s.readWords (symAddr s.cfg.symInBase.toNat) s.cfg.symInCnt.toNat

/-- Write output words to SYM from SYM_OUT_BASE, or raise CAPACITY with the item count when they pass SYM_DEPTH
(R51). -/
def State.writeOutput (s : State) (items : Nat) (ws : List Word) : Except Stop State :=
  if s.cfg.symOutBase.toNat + ws.length > Config.symDepth then .error (.raised .capacity items)
  else .ok (s.writeWords (symAddr s.cfg.symOutBase.toNat) ws)

/-- SetBuf of a result, or CAPACITY with its length when it passes BUF_BITS (R200). -/
def State.storeResult (s : State) (d : BufId) (v : Bits) : Except Stop State :=
  if v.length > Config.bufBits then .error (.raised .capacity v.length) else .ok (s.setBuf d v)

/-- The SEMW fields WH, WR and WT (R48, R275). -/
structure FieldWidths where
  wh : Nat
  wr : Nat
  wt : Nat
  deriving DecidableEq, Repr

/-- TW = WH + WR + WT (R275). -/
def FieldWidths.total (f : FieldWidths) : Nat := f.wh + f.wr + f.wt

/-- Each field in 0..16 and TW ≥ 1 (R275). -/
def FieldWidths.legal (f : FieldWidths) : Bool :=
  decide (f.wh ≤ Config.maxFieldW ∧ f.wr ≤ Config.maxFieldW ∧ f.wt ≤ Config.maxFieldW ∧ f.total ≠ 0)

/-- The field widths SEMW holds (R276). -/
def State.fieldWidths (s : State) : FieldWidths :=
  { wh := s.cfg.semWh.toNat, wr := s.cfg.semWr.toNat, wt := s.cfg.semWt.toNat }

/-- A triple of ids: head, relation, tail (R58, R275). -/
structure Triple where
  h : Nat
  r : Nat
  t : Nat
  deriving DecidableEq, Repr

/-- Every id fits its field (R275, R276). -/
def Triple.fits (x : Triple) (f : FieldWidths) : Bool :=
  decide (x.h < 2 ^ f.wh ∧ x.r < 2 ^ f.wr ∧ x.t < 2 ^ f.wt)

/-- bits_WH(h) ++ bits_WR(r) ++ bits_WT(t) (R275). -/
def Triple.bits (x : Triple) (f : FieldWidths) : Bits := bitsOf f.wh x.h ++ bitsOf f.wr x.r ++ bitsOf f.wt x.t

/-- The triple a chunk of TW bits holds (R279). -/
def tripleOfBits (f : FieldWidths) (c : Bits) : Triple :=
  { h := val (slice c 0 f.wh), r := val (slice c f.wh (f.wh + f.wr)), t := val (slice c (f.wh + f.wr) f.total) }

/-- The three SYM words of a triple (R58). -/
def Triple.words (x : Triple) : List Word := [BitVec.ofNat 32 x.h, BitVec.ofNat 32 x.r, BitVec.ofNat 32 x.t]

/-- Read the triple in SYM words i, i+1, i+2 (R276). -/
def State.readTriple (s : State) (i : Nat) : Except Stop Triple :=
  (s.readWord (symAddr i)).bind fun h =>
  (s.readWord (symAddr (i + 1))).bind fun r =>
  (s.readWord (symAddr (i + 2))).map fun t => { h := h.toNat, r := r.toNat, t := t.toNat }

/-- Every id of a triple is below its count (R279, D19). -/
def State.knows (s : State) (x : Triple) : Bool :=
  decide (x.h < s.cfg.semNh.toNat ∧ x.r < s.cfg.semNr.toNat ∧ x.t < s.cfg.semNt.toNat)

/-- E_j = CB[j].hi·2^32 + CB[j].lo (R340). -/
def State.readEntry (s : State) (j : Nat) : Except Stop Nat :=
  (s.readWord (cbAddr j)).bind fun lo =>
  (s.readWord (cbAddr j + 4)).map fun hi => hi.toNat * 2 ^ 32 + lo.toNat

end Sys2Proof.Machine
end

