-- ==== Sys2Proof/Machine/BitVector.lean ====
section
/-! DEFINITION. The bit-vector pack/unpack datapath: NOP, BCLR, BCOPY, BCAT, BPUT, BGET (R200 to R206). -/

namespace Sys2Proof.Machine

/-- NOP: the completion only (R201). -/
def execNop (s : State) : Host.Outcome State Fault Refusal := s.settle (.ok s)

/-- BCLR: SetBuf(d, []) (R202). -/
def execBclr (d : BufId) (s : State) : Host.Outcome State Fault Refusal := s.settle (.ok (s.setBuf d []))

/-- BCOPY: SetBuf(d, Buf(s)) (R203). -/
def execBcopy (d k : BufId) (s : State) : Host.Outcome State Fault Refusal :=
  s.settle ((s.buf k).map (s.setBuf d))

/-- BCAT: SetBuf(d, Buf(d) ++ Buf(s)), CAPACITY if too long (R204). -/
def execBcat (d k : BufId) (s : State) : Host.Outcome State Fault Refusal :=
  s.settle ((s.buf d).bind fun u => (s.buf k).bind fun v => s.storeResult d (u ++ v))

/-- BPUT: append bits_W(PK_DATA); PARAM on the width, then CAPACITY (R205). -/
def execBput (d : BufId) (w : Nat) (s : State) : Host.Outcome State Fault Refusal :=
  s.settle <|
    if widthLegal w then (s.buf d).bind fun u => s.storeResult d (u ++ bitsOf w s.cfg.pkData.toNat)
    else .error immParam

/-- The registers BGET writes: PK_DATA the zero-extended field, PK_OFF past it (R206). -/
def State.setUnpacked (s : State) (x off : Nat) : State :=
  { s with cfg := { s.cfg with pkData := BitVec.ofNat 32 x, pkOff := BitVec.ofNat 15 off } }

/-- BGET: PK_DATA becomes val(Buf(s)[off : off+W]) and PK_OFF advances; PARAM on the width, then RANGE (R206). -/
def execBget (k : BufId) (w : Nat) (s : State) : Host.Outcome State Fault Refusal :=
  s.settle <|
    let off := s.cfg.pkOff.toNat
    if widthLegal w then
      if off + w > s.bufLen k then .error (.raised .range off)
      else (s.buf k).map fun v => s.setUnpacked (val (slice v off (off + w))) (off + w)
    else .error immParam

end Sys2Proof.Machine
end

