-- ==== Sys2Proof/Machine/Channel.lean ====
section
/-! DEFINITION. The binary symmetric channel simulator: CHAN (R300 to R304). -/

namespace Sys2Proof.Machine

/-- The error bit of draw number `k`: 1 iff the draw is below PROB (R300, R301). -/
def errorBit (seed : BitVec 32) (prob : Nat) (k : BitVec 32) : Bool :=
  decide ((Config.channelDraw seed k).toNat < prob)

/-- Each bit exclusive-ORed with its own draw; the draw index wraps at 2^32 (R57, R301). -/
def transmit (seed : BitVec 32) (prob : Nat) : BitVec 32 → Bits → Bits
  | _, [] => []
  | k, b :: v => (b ^^ errorBit seed prob k) :: transmit seed prob (k + 1) v

/-- DRAW_IDX advances by the draws consumed, mod 2^32 (R57). -/
def State.advanceDraws (s : State) (n : Nat) : State := { s with drawIdx := s.drawIdx + BitVec.ofNat 32 n }

/-- CHAN: PARAM on PROB; LEN_SRC draws are consumed whatever PROB is (R301). -/
def execChan (d k : BufId) (s : State) : Host.Outcome State Fault Refusal :=
  s.settle <|
    let p := s.cfg.prob.toNat
    if p > Config.probOne then .error (regParam .prob)
    else (s.buf k).map fun u => (s.setBuf d (transmit s.cfg.seed p s.drawIdx u)).advanceDraws u.length

end Sys2Proof.Machine
end

