-- ==== Sys2Proof/Machine/Corrector.lean ====
section
/-! DEFINITION. The Hamming-distance nearest-codeword matcher: CORR (R340 to R344). -/

namespace Sys2Proof.Machine

/-- Read entries j, j+1, ..., j+n-1 as vectors of `w` bits, in order; the first with E_j ≥ 2^w raises WIDTH with
0x10000 + j (R340, R341). -/
def State.readEntries (s : State) (w : Nat) : Nat → Nat → Except Stop (List Bits)
  | _, 0 => .ok []
  | j, n + 1 =>
    (s.readEntry j).bind fun e =>
      if e ≥ 2 ^ w then .error (.raised .width (0x10000 + j))
      else (s.readEntries w (j + 1) n).map (bitsOf w e :: ·)

/-- The entry CORR returns: its index, its distance and its bits. -/
structure Nearest where
  idx : Nat
  dist : Nat
  entry : Bits
  deriving DecidableEq, Repr

/-- The scan from entry number `j` on: a strictly smaller distance replaces the best so far, so the first minimum wins
(R341, R342). -/
def scanEntries (u : Bits) : Nearest → Nat → List Bits → Nearest
  | best, _, [] => best
  | best, j, e :: es =>
    let d := hammingDist u e
    scanEntries u (if d < best.dist then { idx := j, dist := d, entry := e } else best) (j + 1) es

/-- The nearest of the entries; none for an empty codebook (R341). -/
def nearestEntry (u : Bits) (es : List Bits) : Option Nearest :=
  match es with
  | [] => none
  | e :: rest => some (scanEntries u { idx := 0, dist := hammingDist u e, entry := e } 1 rest)

/-- The result registers CORR writes (R52, R341). -/
def State.setCorrected (s : State) (n : Nearest) : State :=
  { s with res := { s.res with corrIdx := BitVec.ofNat 10 n.idx, corrDist := BitVec.ofNat 7 n.dist } }

/-- CORR: PARAM on CB_W, PARAM on CB_N, EMPTY_CB, WIDTH of the input, WIDTH of the entries, then the scan (R341). -/
def execCorr (d k : BufId) (s : State) : Host.Outcome State Fault Refusal :=
  s.settle <|
    let w := s.cfg.cbW.toNat
    let n := s.cfg.cbN.toNat
    if w < 1 ∨ w > Config.maxCbW then .error (regParam .cbW)
    else if n > Config.cbDepth then .error (regParam .cbN)
    else if n = 0 then .error (.raised .emptyCb 0)
    else (s.buf k).bind fun u =>
      if u.length ≠ w then .error (.raised .width u.length)
      else (s.readEntries w 0 n).bind fun es =>
        match nearestEntry u es with
        | none => .error (.raised .emptyCb 0)
        | some best => .ok ((s.setBuf d best.entry).setCorrected best)

end Sys2Proof.Machine
end

