-- ==== Sys2Proof/Machine/FixedSemantic.lean ====
section
/-! DEFINITION. The fixed-width codec FENC, FDEC and the semantic-symbol codec SENC, SDEC (R270 to R281). -/

namespace Sys2Proof.Machine

/-! ## Fixed-width codec -/

/-- bits_W of each character, concatenated: masking keeps the low W bits (R270, R271). -/
def packChars (w : Nat) (xs : List Word) : Bits := xs.flatMap fun x => bitsOf w x.toNat

/-- FENC: PARAM on FIXW, RANGE, then CAPACITY (R271). -/
def execFenc (d : BufId) (s : State) : Host.Outcome State Fault Refusal :=
  s.settle <|
    if widthLegal s.cfg.fixw.toNat then
      if s.inputRangeLegal 1 then s.inputWords.bind fun xs => s.storeResult d (packChars s.cfg.fixw.toNat xs)
      else .error inputRange
    else .error (regParam .fixw)

/-- The characters of the whole chunks of `w` bits, zero-extended (R273). -/
def unpackChars (w : Nat) (u : Bits) : List Word :=
  (chunks w (u.length / w) u).map fun c => BitVec.ofNat 32 (val c)

/-- The result registers FDEC writes (R52, R273). -/
def State.setFixedDecoded (s : State) (count resid : Nat) : State :=
  { s with res := { s.res with symOutCnt := BitVec.ofNat 11 count, resid := BitVec.ofNat 16 resid } }

/-- FDEC: PARAM on FIXW, then CAPACITY (R273). -/
def execFdec (k : BufId) (s : State) : Host.Outcome State Fault Refusal :=
  s.settle <|
    let w := s.cfg.fixw.toNat
    if widthLegal w then
      (s.buf k).bind fun u =>
        let xs := unpackChars w u
        (s.writeOutput xs.length xs).map fun t => t.setFixedDecoded xs.length (u.length % w)
    else .error (regParam .fixw)

/-! ## Semantic-symbol codec -/

/-- Read `n` triples from triple number `i` of the input on, in order; the first with an id that does not fit raises
WIDTH with its number (R276). `b` is the SYM word of triple 0. -/
def State.readTriples (s : State) (b : Nat) : Nat → Nat → Except Stop (List Triple)
  | _, 0 => .ok []
  | i, n + 1 =>
    (s.readTriple (b + 3 * i)).bind fun x =>
      if x.fits s.fieldWidths then (s.readTriples b (i + 1) n).map (x :: ·)
      else .error (.raised .width i)

/-- The concatenation of the triples' codes (R275, R276). -/
def packTriples (f : FieldWidths) (xs : List Triple) : Bits := xs.flatMap fun x => x.bits f

/-- SENC: PARAM on SEMW, RANGE, then WIDTH (R276). -/
def execSenc (d : BufId) (s : State) : Host.Outcome State Fault Refusal :=
  s.settle <|
    if s.fieldWidths.legal then
      if s.inputRangeLegal 3 then
        (s.readTriples s.cfg.symInBase.toNat 0 s.cfg.symInCnt.toNat).map fun xs =>
          s.setBuf d (packTriples s.fieldWidths xs)
      else .error inputRange
    else .error (regParam .semw)

/-- The triples of the whole chunks of TW bits (R279). -/
def unpackTriples (f : FieldWidths) (u : Bits) : List Triple :=
  (chunks f.total (u.length / f.total) u).map (tripleOfBits f)

/-- The result registers SDEC writes (R52, R279). -/
def State.setTriplesDecoded (s : State) (count resid drop : Nat) : State :=
  { s with res := { s.res with
    symOutCnt := BitVec.ofNat 11 count, resid := BitVec.ofNat 16 resid, drop := BitVec.ofNat 16 drop } }

/-- SDEC: keep the triples whose ids are all known, in order, and count the dropped ones; PARAM on SEMW, then CAPACITY
(R279). -/
def execSdec (k : BufId) (s : State) : Host.Outcome State Fault Refusal :=
  s.settle <|
    let f := s.fieldWidths
    if f.legal then
      (s.buf k).bind fun u =>
        let all := unpackTriples f u
        let kept := all.filter s.knows
        (s.writeOutput kept.length (kept.flatMap Triple.words)).map fun t =>
          t.setTriplesDecoded kept.length (u.length % f.total) (all.length - kept.length)
    else .error (regParam .semw)

end Sys2Proof.Machine
end

