-- ==== Sys2Proof/Machine/Huffman.lean ====
section
/-! DEFINITION. The Huffman family: HBUILD, HENC, HDEC (R230 to R247). -/

namespace Sys2Proof.Machine

/-! ## The build algorithm -/

/-- A tree of R230: a leaf, a node with both branches, or the single-symbol root whose 1 branch is ABSENT (R233). -/
inductive HuffTree where
  | leaf (sym : Nat)
  | node (t0 t1 : HuffTree)
  | single (t0 : HuffTree)
  deriving DecidableEq, Repr

/-- A queue entry (f, o, t) (R231). -/
structure QueueEntry where
  freq : Nat
  order : Nat
  tree : HuffTree
  deriving DecidableEq, Repr

/-- The queue's order: lexicographic on (f, o) (R231). -/
def QueueEntry.before (a b : QueueEntry) : Bool :=
  decide (a.freq < b.freq ∨ (a.freq = b.freq ∧ a.order < b.order))

/-- Insert an entry into a queue kept in ascending order, so that removeMin takes its head (R231). -/
def queueInsert (e : QueueEntry) : List QueueEntry → List QueueEntry
  | [] => [e]
  | x :: q => if e.before x then e :: x :: q else x :: queueInsert e q

/-- The symbols with nonzero frequency, ascending, each with its frequency (R231). `k` is the first symbol. -/
def leavesFrom : Nat → List Word → List (Nat × Nat)
  | _, [] => []
  | k, w :: ws => if w.toNat = 0 then leavesFrom (k + 1) ws else (k, w.toNat) :: leavesFrom (k + 1) ws

/-- The leaf entries get o = 0, 1, ... in ascending order of symbol (R231). `o` is the first order number. -/
def leafEntries : Nat → List (Nat × Nat) → List QueueEntry
  | _, [] => []
  | o, (k, f) :: ls => { freq := f, order := o, tree := .leaf k } :: leafEntries (o + 1) ls

/-- Merge `n` times, the merged node taking order number k, k+1, ...: the first popped node is the 0 branch (R232).
Sums are exact. -/
def mergeQueue : Nat → Nat → List QueueEntry → List QueueEntry
  | n + 1, k, e1 :: e2 :: q =>
    mergeQueue n (k + 1)
      (queueInsert { freq := e1.freq + e2.freq, order := k, tree := .node e1.tree e2.tree } q)
  | _, _, q => q

/-- The tree of the leaves: none for no leaf, the single-symbol tree for one (R233), the merged tree otherwise
(R232). -/
def buildTree (leaves : List (Nat × Nat)) : Option HuffTree :=
  match leaves with
  | [] => none
  | [(k, _)] => some (.single (.leaf k))
  | _ =>
    let q := (leafEntries 0 leaves).foldr queueInsert []
    ((mergeQueue (leaves.length - 1) leaves.length q).head?).map (·.tree)

/-- Every leaf with its path, the branch labels from the root (R230). -/
def HuffTree.codes : HuffTree → List (Nat × Bits)
  | .leaf k => [(k, [])]
  | .node t0 t1 =>
    t0.codes.map (fun c => (c.1, false :: c.2)) ++ t1.codes.map (fun c => (c.1, true :: c.2))
  | .single t0 => t0.codes.map (fun c => (c.1, false :: c.2))

/-- The codeword of a symbol: the path of its leaf; empty for a symbol with no leaf (R235). -/
def HuffTree.codeword (t : HuffTree) (k : Nat) : Bits := (t.codes.lookup k).getD []

/-- The number of nodes, NNODE (R234). -/
def HuffTree.size : HuffTree → Nat
  | .leaf _ => 1
  | .node t0 t1 => 1 + t0.size + t1.size
  | .single t0 => 1 + t0.size

/-- The length of the longest codeword (R235). -/
def HuffTree.maxLen (t : HuffTree) : Nat := t.codes.foldr (fun c n => max c.2.length n) 0

/-- A leaf node word (R234). -/
def leafWord (k : Nat) : Word := BitVec.ofNat 32 (0x80000000 + k)
/-- A two-child node word (R234). -/
def nodeWord (c0 c1 : Nat) : Word := BitVec.ofNat 32 (0x60000000 + c1 * 2 ^ 16 + c0)
/-- The single-symbol root word (R234). -/
def singleWord (c0 : Nat) : Word := BitVec.ofNat 32 (0x20000000 + c0)

/-- The node words in depth-first preorder, the 0 branch first, the tree's root getting number `i` (R234). -/
def HuffTree.arena : HuffTree → Nat → List Word
  | .leaf k, _ => [leafWord k]
  | .node t0 t1, i =>
    nodeWord (i + 1) (i + 1 + t0.size) :: (t0.arena (i + 1) ++ t1.arena (i + 1 + t0.size))
  | .single t0, i => singleWord (i + 1) :: t0.arena (i + 1)

/-- The 511 TRIE words: the arena, then zeros (R234). -/
def HuffTree.trieWords (t : HuffTree) : List Word :=
  (t.arena 0 ++ List.replicate Config.trieDepth 0).take Config.trieDepth

/-- The nine words of a CODE entry: CODE_LEN, then CODE_BITS (R55). -/
def codeEntryWords (p : Bits) : List Word := BitVec.ofNat 32 p.length :: packWords 8 p

/-- The cells of the CODE entries of symbols k, k+1, ..., k+n-1 (R55, R235). -/
def HuffTree.codeCells (t : HuffTree) : Nat → Nat → List MemCell
  | _, 0 => []
  | k, n + 1 => cellsAt (codeAddr k) (codeEntryWords (t.codeword k)) ++ t.codeCells (k + 1) n

/-- Write all 256 CODE entries and all 511 TRIE words, setting their marks (R60, R235). -/
def Memory.writeTable (m : Memory) (t : HuffTree) : Memory :=
  (m.replace (codeAddr 0) (codeAddr Config.nsym) (t.codeCells 0 Config.nsym)).writeWords (trieAddr 0) t.trieWords

/-- The effect of a successful HBUILD with tree `t` over `n` leaves (R235). -/
def State.setTable (s : State) (n : Nat) (t : HuffTree) : State :=
  { s with
    mem := s.mem.writeTable t
    res := { s.res with
      hbNleaf := BitVec.ofNat 9 n, hbMaxlen := BitVec.ofNat 8 t.maxLen, hbNnode := BitVec.ofNat 9 t.size }
    status := { s.status with tblv := true } }

/-- STATUS.TBLV is cleared, the one write a failed HBUILD makes (R235, R401). -/
def State.clearTblv (s : State) : State := { s with status := { s.status with tblv := false } }

/-- All 256 FREQ words (R231). -/
def State.freqWords (s : State) : Except Stop (List Word) := s.readWords (freqAddr 0) Config.nsym

/-- HBUILD: build CODE and TRIE from FREQ; EMPTY_FREQ, which clears TBLV, when every word is 0 (R235). -/
def execHbuild (s : State) : Host.Outcome State Fault Refusal :=
  match s.freqWords with
  | .error e => s.settle (.error e)
  | .ok ws =>
    let leaves := leavesFrom 0 ws
    match buildTree leaves with
    | none => s.clearTblv.settle (.error (.raised .emptyFreq 0))
    | some t => s.settle (.ok (s.setTable leaves.length t))

/-! ## Encoding -/

/-- CODE_BITS[x][0 : n], reading only the words that hold them (R55, R240). -/
def State.codeBits (s : State) (x n : Nat) : Except Stop Bits :=
  (s.readWords (codeAddr x + 4) (wordsFor n)).map fun ws => (unpackWords ws).take n

/-- The bits HENC appends for one symbol: its codeword, or bits_FBW(x) for an unseen one (R240, R241). CODE_LEN is
bits [7:0] of its word (R55). -/
def State.symbolCode (s : State) (x : Word) : Except Stop Bits :=
  let fallback := bitsOf s.cfg.fbw.toNat x.toNat
  if x.toNat < Config.nsym then
    (s.readWord (codeAddr x.toNat)).bind fun l =>
      let n := wordField l 7 0
      if n > 0 then s.codeBits x.toNat n else .ok fallback
  else .ok fallback

/-- The concatenation of the symbols' bits, in order (R240). -/
def State.encodeSymbols (s : State) : List Word → Except Stop Bits
  | [] => .ok []
  | x :: xs => (s.symbolCode x).bind fun u => (s.encodeSymbols xs).map (u ++ ·)

/-- HENC: PARAM on FBW, NO_TABLE, RANGE, then CAPACITY (R240). -/
def execHenc (d : BufId) (s : State) : Host.Outcome State Fault Refusal :=
  s.settle <|
    if widthLegal s.cfg.fbw.toNat then
      if s.status.tblv then
        if s.inputRangeLegal 1 then
          s.inputWords.bind fun xs => (s.encodeSymbols xs).bind fun v => s.storeResult d v
        else .error inputRange
      else .error (.raised .noTable 0)
    else .error (regParam .fbw)

/-! ## Decoding -/

/-- The trie walk of HDEC: the node, the depth below the root, the discarded bits and the symbols so far (R245). -/
structure Walk where
  node : Nat
  depth : Nat
  bad : Nat
  out : List Word
  deriving DecidableEq, Repr

/-- The walk before the first bit (R245). -/
def Walk.start : Walk := { node := 0, depth := 0, bad := 0, out := [] }

/-- The branch a bit selects at a node word: its valid bit and its child index (R234, R245). -/
def branchOf (w : Word) (b : Bool) : Bool × Nat :=
  if b then (w.getLsbD 30, wordField w 24 16) else (w.getLsbD 29, wordField w 8 0)

/-- One bit of the walk. An absent branch discards the bit and returns to the root; a leaf outputs its symbol and
returns to the root (R245). -/
def State.walkBit (s : State) (k : Walk) (b : Bool) : Except Stop Walk :=
  (s.readWord (trieAddr k.node)).bind fun w =>
    let (ok, c) := branchOf w b
    if ok then
      (s.readWord (trieAddr c)).map fun w' =>
        if w'.getLsbD 31 then
          { k with node := 0, depth := 0, out := k.out ++ [BitVec.ofNat 32 (wordField w' 7 0)] }
        else { k with node := c, depth := k.depth + 1 }
    else .ok { k with node := 0, depth := 0, bad := k.bad + 1 }

/-- The walk over a bit vector (R245, R246). -/
def State.walkBits (s : State) (k : Walk) : Bits → Except Stop Walk
  | [] => .ok k
  | b :: v => (s.walkBit k b).bind fun k' => s.walkBits k' v

/-- The result registers HDEC writes (R52, R245). -/
def State.setDecoded (s : State) (k : Walk) : State :=
  { s with res := { s.res with
    symOutCnt := BitVec.ofNat 11 k.out.length, resid := BitVec.ofNat 16 k.depth, badbit := BitVec.ofNat 16 k.bad } }

/-- HDEC: NO_TABLE, then the walk, then CAPACITY (R245). -/
def execHdec (k : BufId) (s : State) : Host.Outcome State Fault Refusal :=
  s.settle <|
    if s.status.tblv then
      (s.buf k).bind fun u => (s.walkBits Walk.start u).bind fun e =>
        (s.writeOutput e.out.length e.out).map fun t => t.setDecoded e
    else .error (.raised .noTable 0)

end Sys2Proof.Machine
end

