-- ==== Sys2Proof/Machine/Repetition.lean ====
section
/-! DEFINITION. The repetition encoder RENC and the majority-vote decoder RDEC (R320 to R326). -/

namespace Sys2Proof.Machine

/-- rep_R of each bit, concatenated: the copies of a bit are contiguous (R14, R321). -/
def repeatBits (r : Nat) (u : Bits) : Bits := u.flatMap (List.replicate r)

/-- The majority rule: 1 iff 2·popcount ≥ R, so a tie gives 1 (R324). -/
def majority (r : Nat) (block : Bits) : Bool := decide (2 * popcount block ≥ r)

/-- The majority of each whole block of R bits (R323). -/
def voteBits (r : Nat) (u : Bits) : Bits := (chunks r (u.length / r) u).map (majority r)

/-- RENC: PARAM on REP = 0, then CAPACITY with L·R (R321). -/
def execRenc (d k : BufId) (s : State) : Host.Outcome State Fault Refusal :=
  s.settle <|
    let r := s.cfg.rep.toNat
    if r < 1 then .error (regParam .rep)
    else (s.buf k).bind fun u =>
      if u.length * r > Config.bufBits then .error (.raised .capacity (u.length * r))
      else .ok (s.setBuf d (repeatBits r u))

/-- RESID, the one result register RDEC writes (R52, R323). -/
def State.setResid (s : State) (n : Nat) : State := { s with res := { s.res with resid := BitVec.ofNat 16 n } }

/-- RDEC: PARAM on REP = 0; RESID counts the bits that fill no block (R323). -/
def execRdec (d k : BufId) (s : State) : Host.Outcome State Fault Refusal :=
  s.settle <|
    let r := s.cfg.rep.toNat
    if r < 1 then .error (regParam .rep)
    else (s.buf k).map fun u => (s.setBuf d (voteBits r u)).setResid (u.length % r)

end Sys2Proof.Machine
end

