-- ==== Sys2Proof/Machine/Dispatch.lean ====
section
/-! DEFINITION. The dispatch: one arm per command of the opcode map (R146). -/

namespace Sys2Proof.Machine

/-- Execute and complete one decoded command (R146, R151). -/
def exec (i : Instr) (s : State) : Host.Outcome State Fault Refusal :=
  match i with
  | .nop => Sys2Proof.Machine.execNop s
  | .bclr d => Sys2Proof.Machine.execBclr d s
  | .bcopy d k => Sys2Proof.Machine.execBcopy d k s
  | .bcat d k => Sys2Proof.Machine.execBcat d k s
  | .bput d w => Sys2Proof.Machine.execBput d w s
  | .bget k w => Sys2Proof.Machine.execBget k w s
  | .hbuild => Sys2Proof.Machine.execHbuild s
  | .henc d => Sys2Proof.Machine.execHenc d s
  | .hdec k => Sys2Proof.Machine.execHdec k s
  | .fenc d => Sys2Proof.Machine.execFenc d s
  | .fdec k => Sys2Proof.Machine.execFdec k s
  | .senc d => Sys2Proof.Machine.execSenc d s
  | .sdec k => Sys2Proof.Machine.execSdec k s
  | .chan d k => Sys2Proof.Machine.execChan d k s
  | .renc d k => Sys2Proof.Machine.execRenc d k s
  | .rdec d k => Sys2Proof.Machine.execRdec d k s
  | .corr d k => Sys2Proof.Machine.execCorr d k s

end Sys2Proof.Machine
end

