-- ==== Sys2Proof/Machine/Engine.lean ====
section
/-! DEFINITION. The engine agent's one step: execute and complete the latched command (R151). -/

namespace Sys2Proof.Machine

/-- Run the latched word: an illegal word completes with ILLEGAL, any other runs its command (R147, R151). -/
def State.engineStep (s : State) : Host.Outcome State Fault Refusal :=
  match decode s.cmd with
  | .ok i => exec i s
  | .error _ => .next s.completeIllegal

/-- The engine's turn: it has a step only while a command is pending (R151). -/
def State.engineTurn (s : State) : Host.Outcome State Fault Refusal :=
  if s.pending then s.engineStep else .next s

end Sys2Proof.Machine
end

