-- ==== Sys2Proof/Machine/Step.lean ====
section
/-! DEFINITION. One step of the machine: the next turn of the agenda (R20, R115, R151). -/

namespace Sys2Proof.Machine

/-- One step. The agenda's head moves; with no turn left a pending command completes, and an idle VLCE holds all its
state (R151, R434, R470; assumption 2). -/
def step (s : State) : Host.Outcome State Fault Refusal :=
  match s.agenda with
  | [] => s.engineTurn
  | .engine :: rest => State.engineTurn { s with agenda := rest }
  | .host x :: rest => State.hostTurn { s with agenda := rest } x
  | .powerOn :: rest => .next (State.powerOn { s with agenda := rest })

/-- The state in which the command word `w` has just been accepted and the engine moves next (R150; assumption 4). -/
def State.withFetchWord (s : State) (nbits w : Nat) : State :=
  { s.accept (BitVec.ofNat 32 (w % 2 ^ nbits)) with agenda := .engine :: s.agenda }

end Sys2Proof.Machine
end

