-- ==== Sys2Proof/Machine/HostProgram.lean ====
section
/-! DEFINITION. The host's side: the pseudo-instructions of R153 as turns, and the command sequences of the
reconstruction pipelines (R360 to R365). -/

namespace Sys2Proof.Machine

/-- `wr` of a register: one 32-bit host write (R153). -/
def hostWr (r : Reg) (x : Word) : Turn := .host (.write .word (BitVec.ofNat 20 r.addr) x)

/-- `wr` of a window word by its bus address (R153). -/
def hostWrAt (a : Nat) (x : Word) : Turn := .host (.write .word (BitVec.ofNat 20 a) x)

/-- `rd`: one 32-bit host read (R153). -/
def hostRd (r : Reg) : Turn := .host (.read .word (BitVec.ofNat 20 r.addr))

/-- `rd` of a window word by its bus address (R153). -/
def hostRdAt (a : Nat) : Turn := .host (.read .word (BitVec.ofNat 20 a))

/-- `wait`: polls of STATUS until BUSY = 0. `polls` of them see the command still running, then the engine completes
it, then one poll sees BUSY = 0 (R153, R470). -/
def hostWait (polls : Nat) : List Turn := List.replicate polls (hostRd .status) ++ [.engine, hostRd .status]

/-- `issue <cmd>` (R153). -/
def hostIssue (i : Instr) : Turn := hostWr .cmd (encode i)

/-- A bare command on a line of a program: `issue` followed by `wait` (R153). -/
def hostCommand (polls : Nat) (i : Instr) : List Turn := hostIssue i :: hostWait polls

/-- `ack`: clear DONE, ERR and OVR (R153). -/
def hostAck : Turn := hostWr .status 0x0000000E

/-- `ldbuf`: the listed words to the window from word 0 up, then the length (R153). -/
def hostLdbuf (b : BufId) (ws : List Word) (len : Word) : List Turn :=
  (cellsAt (bufAddr b 0) ws).map (fun c => hostWrAt c.1 c.2) ++ [hostWr (.len b) len]

/-- Baseline-A, fixed width (R361). -/
def pipelineFixed : List Instr := [.fenc .b0, .renc .b1 .b0, .chan .b2 .b1, .rdec .b3 .b2, .fdec .b3]

/-- Baseline-B, Huffman (R364). -/
def pipelineHuffman : List Instr :=
  [.hbuild, .henc .b0, .renc .b1 .b0, .chan .b2 .b1, .rdec .b3 .b2, .hdec .b3]

/-- The encode side of the semantic strategy for one triple, up to the corrector (R362). -/
def pipelineSemantic : List Instr := [.senc .b0, .renc .b1 .b0, .chan .b2 .b1, .rdec .b3 .b2, .corr .b3 .b3]

/-- The semantic strategy for triple `i`, writing its output from SYM word `ob` (R362). -/
def semanticTurns (polls i ob : Nat) : List Turn :=
  [hostWr .symInBase (BitVec.ofNat 32 (3 * i)), hostWr .symInCnt 1]
  ++ pipelineSemantic.flatMap (hostCommand polls)
  ++ hostWr .symOutBase (BitVec.ofNat 32 ob) :: hostCommand polls (.sdec .b3)

/-- The bit-length accounting of an item: the bits of its encoding, and the bits with the redundancy (R365). -/
structure BitLengths where
  encoded : Nat
  withRedundancy : Nat
  deriving DecidableEq, Repr

/-- The bits a strategy used for an item, without redundancy: LEN0 after its encode command (R365). -/
def State.bitsUsed (s : State) : Nat := s.bufLen .b0

/-- The bits a strategy used for an item, with the redundancy: LEN1 after RENC (R365). -/
def State.bitsUsedWithRedundancy (s : State) : Nat := s.bufLen .b1

/-- What the host hands to the evaluation collaborator, of a state after RENC: no later command of a pipeline writes B0
or B1, so both lengths are still there at its end (R365, R361, R362, R364). In the semantic strategy it is one triple's
accounting, because R362 runs the sequence once per triple (assumption 20, DEDUCED). -/
def State.accounting (s : State) : BitLengths :=
  { encoded := s.bitsUsed, withRedundancy := s.bitsUsedWithRedundancy }

/-- The host's reads for the accounting: LEN0 and LEN1 (R365). -/
def hostAccounting : List Turn := [hostRd (.len .b0), hostRd (.len .b1)]

/-- The length register whose value after the command is an accounting of R365: the destination's of an encode command
and of RENC. With R360's buffers they are LEN0 and LEN1. -/
def accountingReg : Instr → Option Reg
  | .fenc d => some (.len d)
  | .henc d => some (.len d)
  | .senc d => some (.len d)
  | .renc d _ => some (.len d)
  | .nop => none
  | .bclr _ => none
  | .bcopy _ _ => none
  | .bcat _ _ => none
  | .bput _ _ => none
  | .bget _ _ => none
  | .hbuild => none
  | .hdec _ => none
  | .fdec _ => none
  | .sdec _ => none
  | .chan _ _ => none
  | .rdec _ _ => none
  | .corr _ _ => none

/-- A pipeline with the accounting read as soon as its command is done: LEN0 after the encode command and LEN1 after
RENC (R365). -/
def accountedTurns (polls : Nat) (p : List Instr) : List Turn :=
  p.flatMap fun i => hostCommand polls i ++ ((accountingReg i).map hostRd).toList

/-- The host invokes the downstream generation step only when some triple was reconstructed (R363). -/
def downstreamInvoked (outCounts : List Nat) : Bool := decide (outCounts.sum ≠ 0)

end Sys2Proof.Machine
end

