-- ==== Sys2Proof/Safety.lean ====
section
/-! DEFINITION. What claims mean by a safe run, by a valid code table and by a reachable-like state. -/

namespace Sys2Proof.Machine

/-- `n` steps from `s` raise no model fault and no refusal: no UNINIT_READ, no HOST_HAZARD, no stuck host (R420). -/
def SafeRun (n : Nat) (s : State) : Prop := ∃ t, Host.Core.run Sys2Proof.core n s = .next t

/-- CODE and TRIE hold the table HBUILD builds from these 256 FREQ words (R235, R238). -/
def HoldsTable (m : Memory) (freqs : List Word) : Prop :=
  freqs.length = Config.nsym ∧ ∃ t, buildTree (leavesFrom 0 freqs) = some t ∧
    (∀ a, codeAddr 0 ≤ a → a < codeAddr Config.nsym → m.read a = Memory.read (Memory.writeTable [] t) a) ∧
    (∀ a, trieAddr 0 ≤ a → a < trieAddr Config.trieDepth → m.read a = Memory.read (Memory.writeTable [] t) a)

/-- What every run keeps: the memory's canonical form (R60, R101), BUSY exactly while a command is pending (R40, R61),
DONE clear while one is (R150), and a valid code table whenever TBLV = 1 (R236). -/
structure State.Inv (s : State) : Prop where
  memWf : s.mem.wf
  busyPending : s.status.busy = s.pending
  busyNotDone : s.status.busy = true → s.status.done = false
  table : s.status.tblv = true → ∃ freqs, HoldsTable s.mem freqs

/-! ## The vocabulary of the statements -/

/-- `t` is a successful completion from `s`: R151's list of a completion without error. TBLV is not spoken of. The last
two fields are the model's own (assumptions 2 and 3). -/
structure CompletesOk (s t : State) : Prop where
  busy : t.status.busy = false
  done : t.status.done = true
  errcode : t.status.errcode = .ok
  lastop : t.status.lastop = BitVec.ofNat 8 (opcOf s.cmd)
  err : t.status.err = s.status.err
  ovr : t.status.ovr = s.status.ovr
  pending : t.pending = false
  errinfo : t.errinfo = s.errinfo
  cmd : t.cmd = s.cmd
  ie : t.ie = s.ie
  agenda : t.agenda = s.agenda
  rdata : t.rdata = s.rdata

/-- The configuration registers, DRAW_IDX and TBLV are as before. -/
structure KeepsSetup (s t : State) : Prop where
  cfg : t.cfg = s.cfg
  drawIdx : t.drawIdx = s.drawIdx
  tblv : t.status.tblv = s.status.tblv

/-- Buffer `d` and nothing else of the lengths and memories changed: it holds `v`, its window words read as
v ++ zeros (R104), every other length and every word outside its window is as before. -/
structure SetsBuffer (d : BufId) (v : Bits) (s t : State) : Prop where
  value : t.buf d = .ok v
  length : t.bufLen d = v.length
  words : ∀ m, m < 512 → t.mem.read (bufAddr d m) = some (wordOfBits (slice v (32 * m) (32 * m + 32)))
  otherLens : ∀ b, b ≠ d → t.bufLen b = s.bufLen b
  otherWords : ∀ a, a < bufAddr d 0 ∨ bufAddr d 512 ≤ a → t.mem.read a = s.mem.read a

/-- The SYM words from SYM_OUT_BASE up become `ws`; every other word and every length is as before. -/
structure WritesSym (ws : List Word) (s t : State) : Prop where
  words : ∀ j, j < ws.length → t.mem.read (symAddr (s.cfg.symOutBase.toNat + j)) = ws[j]?
  otherWords : ∀ a, a < symAddr s.cfg.symOutBase.toNat ∨ symAddr (s.cfg.symOutBase.toNat + ws.length) ≤ a →
    t.mem.read a = s.mem.read a
  lens : t.lens = s.lens

/-- The `n` input words of an encode command: SYM[SYM_IN_BASE ..] reads as `xs`, and the range is legal (R51). -/
structure InputIs (s : State) (xs : List Word) : Prop where
  count : s.cfg.symInCnt.toNat = xs.length
  range : s.cfg.symInBase.toNat + xs.length ≤ 1024
  words : ∀ i, i < xs.length → s.mem.read (symAddr (s.cfg.symInBase.toNat + i)) = xs[i]?

/-- The input triples of SENC: their words in SYM, and the range is legal (R51, R58). -/
structure TriplesAre (s : State) (xs : List Triple) : Prop where
  count : s.cfg.symInCnt.toNat = xs.length
  range : s.cfg.symInBase.toNat + 3 * xs.length ≤ 1024
  words : ∀ i x, xs[i]? = some x → ∃ h r t : Word,
    s.mem.read (symAddr (s.cfg.symInBase.toNat + 3 * i)) = some h ∧
    s.mem.read (symAddr (s.cfg.symInBase.toNat + 3 * i + 1)) = some r ∧
    s.mem.read (symAddr (s.cfg.symInBase.toNat + 3 * i + 2)) = some t ∧
    x = { h := h.toNat, r := r.toNat, t := t.toNat }

/-- CODE_LEN[k] of a state whose CODE word is written (R55). -/
def codeLenIs (s : State) (k n : Nat) : Prop :=
  ∃ l : Word, s.mem.read (codeAddr k) = some l ∧ n = l.toNat % 256

/-- The codeword CODE holds for symbol k: its first CODE_LEN[k] bits of CODE_BITS[k] (R55). -/
def codewordIs (s : State) (k : Nat) (u : Bits) : Prop :=
  codeLenIs s k u.length ∧
    ∃ ws, s.readWords (codeAddr k + 4) (wordsFor u.length) = .ok ws ∧ u = (unpackWords ws).take u.length

/-- The bits HENC appends for symbol value `x`: the codeword of a seen symbol, bits_FBW(x) of an unseen one (R240,
R241). -/
def symbolBitsAre (s : State) (x : Word) (u : Bits) : Prop :=
  (x.toNat < 256 ∧ u ≠ [] ∧ codewordIs s x.toNat u) ∨
    ((x.toNat ≥ 256 ∨ codeLenIs s x.toNat 0) ∧ u = bitsOf s.cfg.fbw.toNat x.toNat)

/-- The value E_j of codebook entry j (R340). -/
def entryIs (s : State) (j e : Nat) : Prop :=
  ∃ lo hi : Word, s.mem.read (cbAddr j) = some lo ∧ s.mem.read (cbAddr j + 4) = some hi ∧
    e = hi.toNat * 2 ^ 32 + lo.toNat

/-- One bit of HDEC's walk, said by the TRIE words alone (R245). With n the word of the walk's node: a 0 bit selects
the branch (n[29], n[8:0]) and a 1 bit the branch (n[30], n[24:16]). An absent branch discards the bit, counts it and
returns to the root; a child whose word has bit 31 set outputs that word's bits 7:0 and returns to the root; any other
child becomes the walk's node, one deeper. -/
def walkStepIs (s : State) (p : Walk) (b : Bool) (q : Walk) : Prop :=
  ∃ n : Word, s.mem.read (0x02000 + 4 * p.node) = some n ∧
    ((n.getLsbD (if b then 30 else 29) = false ∧
        q = { node := 0, depth := 0, bad := p.bad + 1, out := p.out }) ∨
      (n.getLsbD (if b then 30 else 29) = true ∧ ∃ (c : Nat) (m : Word),
        c = (n.extractLsb' (if b then 16 else 0) 9).toNat ∧ s.mem.read (0x02000 + 4 * c) = some m ∧
        ((m.getLsbD 31 = true ∧
            q = { node := 0, depth := 0, bad := p.bad, out := p.out ++ [(m.extractLsb' 0 8).setWidth 32] }) ∨
          (m.getLsbD 31 = false ∧ q = { node := c, depth := p.depth + 1, bad := p.bad, out := p.out }))))

/-- The symbols of nonzero frequency, ascending (R231). -/
def presentSymbols (ws : List Word) : List Nat := (List.range 256).filter fun k => decide (ws.getD k 0 ≠ 0)

/-- The queue before the first merge: one leaf per present symbol, with its frequency, numbered in ascending order of
symbol (R231). -/
def firstEntries (ws : List Word) : List QueueEntry :=
  (presentSymbols ws).zipIdx.map fun p => { freq := (ws.getD p.1 0).toNat, order := p.2, tree := .leaf p.1 }

/-- `a` comes before `b` in the lexicographic order on (f, o) (R231). -/
def comesFirst (a b : QueueEntry) : Prop := a.freq < b.freq ∨ (a.freq = b.freq ∧ a.order < b.order)

/-- Merging the entries `q`, in whatever list order, with `k` the next order number, ends in the tree `t`: each merge
removes the least entry and then the least of the rest, and the first removed is the 0 branch (R232). -/
inductive MergesTo : Nat → List QueueEntry → HuffTree → Prop
  | done (k : Nat) (e : QueueEntry) : MergesTo k [e] e.tree
  | merge (k : Nat) (e1 e2 : QueueEntry) (rest q : List QueueEntry) (t : HuffTree) (hq : q.Perm (e1 :: e2 :: rest))
      (h1 : comesFirst e1 e2) (h2 : ∀ e ∈ rest, comesFirst e2 e)
      (h : MergesTo (k + 1)
        ({ freq := e1.freq + e2.freq, order := k, tree := .node e1.tree e2.tree } :: rest) t) : MergesTo k q t

/-- The tree of R232 for two or more present symbols, of R233 for one. -/
def treeOfFreqs (ws : List Word) (t : HuffTree) : Prop :=
  (∃ k, presentSymbols ws = [k] ∧ t = .single (.leaf k)) ∨
    (2 ≤ (presentSymbols ws).length ∧ MergesTo (presentSymbols ws).length (firstEntries ws) t)

/-- The destination buffer of the commands that write one (R33). -/
def bufferDst : Instr → Option BufId
  | .bclr d => some d
  | .bcopy d _ => some d
  | .bcat d _ => some d
  | .bput d _ => some d
  | .henc d => some d
  | .fenc d => some d
  | .senc d => some d
  | .chan d _ => some d
  | .renc d _ => some d
  | .rdec d _ => some d
  | .corr d _ => some d
  | .nop => none
  | .bget _ _ => none
  | .hbuild => none
  | .hdec _ => none
  | .fdec _ => none
  | .sdec _ => none

/-- The error codes a command can complete with (R402). -/
def codesOf : Instr → List ErrCode
  | .nop => [.ok]
  | .bclr _ => [.ok]
  | .bcopy _ _ => [.ok]
  | .bcat _ _ => [.ok, .capacity]
  | .bput _ _ => [.ok, .param, .capacity]
  | .bget _ _ => [.ok, .param, .range]
  | .hbuild => [.ok, .emptyFreq]
  | .henc _ => [.ok, .param, .noTable, .range, .capacity]
  | .hdec _ => [.ok, .noTable, .capacity]
  | .fenc _ => [.ok, .param, .range, .capacity]
  | .fdec _ => [.ok, .param, .capacity]
  | .senc _ => [.ok, .param, .range, .width]
  | .sdec _ => [.ok, .param, .capacity]
  | .chan _ _ => [.ok, .param]
  | .renc _ _ => [.ok, .param, .capacity]
  | .rdec _ _ => [.ok, .param]
  | .corr _ _ => [.ok, .param, .emptyCb, .width]

/-- The state `s` with `x` as the next turn. -/
def State.atTurn (s : State) (x : Turn) : State := { s with agenda := x :: s.agenda }

/-- The stored bits of a read-write configuration register, as a mask (R48). -/
def Reg.storedBits : Reg → Option Word
  | .fixw => some 0x0000003F
  | .fbw => some 0x0000003F
  | .rep => some 0x000000FF
  | .prob => some 0x0001FFFF
  | .seed => some 0xFFFFFFFF
  | .semw => some 0x001F1F1F
  | .semNh => some 0x0001FFFF
  | .semNr => some 0x0001FFFF
  | .semNt => some 0x0001FFFF
  | .cbW => some 0x0000007F
  | .cbN => some 0x000007FF
  | .symInBase => some 0x000003FF
  | .symInCnt => some 0x000007FF
  | .symOutBase => some 0x000003FF
  | .pkData => some 0xFFFFFFFF
  | .pkOff => some 0x00007FFF
  | _ => none

/-- The fields of a command word that its command uses (R143, R146). -/
def fieldsUsed : Instr → Word → Prop
  | .nop, _ => True
  | .bclr d, w => dstOf w = d.field
  | .bcopy d k, w => dstOf w = d.field ∧ srcOf w = k.field
  | .bcat d k, w => dstOf w = d.field ∧ srcOf w = k.field
  | .bput d n, w => dstOf w = d.field ∧ immWidthOf w = n
  | .bget k n, w => srcOf w = k.field ∧ immWidthOf w = n
  | .hbuild, _ => True
  | .henc d, w => dstOf w = d.field
  | .hdec k, w => srcOf w = k.field
  | .fenc d, w => dstOf w = d.field
  | .fdec k, w => srcOf w = k.field
  | .senc d, w => dstOf w = d.field
  | .sdec k, w => srcOf w = k.field
  | .chan d k, w => dstOf w = d.field ∧ srcOf w = k.field
  | .renc d k, w => dstOf w = d.field ∧ srcOf w = k.field
  | .rdec d k, w => dstOf w = d.field ∧ srcOf w = k.field
  | .corr d k, w => dstOf w = d.field ∧ srcOf w = k.field

end Sys2Proof.Machine
end

