-- ==== Sys2Proof/Certificates/Slice0/Obligations.lean ====
section
/-! DEFINITION. The statements for the provers, from the numbered rules of the spec. -/

open Sys2Proof Sys2Proof.Machine

/-! ## Reset, decoding and the step -/

/-- R62: after power-on every register reads its reset value, every memory word is unwritten, and nothing is
pending. -/
def Obligations.PowerOnResetValues : Prop :=
  (∀ r, State.reset.readReg r =
    match r with
    | .id => 0x564C4345
    | .version => 0x00000001
    | .fixw => 7
    | .fbw => 8
    | .rep => 1
    | _ => 0) ∧
  (∀ a, State.reset.mem.read a = none) ∧ State.reset.pending = false

/-- The invariant of StepKeepsInvariant holds after reset. -/
def Obligations.ResetMeetsInvariant : Prop := State.reset.Inv

/-- R149: words written out from the assembler table decode to the commands they stand for. -/
def Obligations.SpecWordsDecode : Prop :=
  decode 0x02800000 = .ok (.bcopy .b2 .b0) ∧ decode 0x05100002 = .ok (.bget .b1 2) ∧
  decode 0x10000000 = .ok .hbuild ∧ decode 0x12300000 = .ok (.hdec .b3) ∧
  decode 0x18400000 = .ok (.fenc .b1) ∧ decode 0x21300000 = .ok (.sdec .b3) ∧
  decode 0x28900000 = .ok (.chan .b2 .b1) ∧ decode 0x31E00000 = .ok (.rdec .b3 .b2) ∧
  decode 0x38F00000 = .ok (.corr .b3 .b3) ∧ decode 0x06000000 = .error .unknownOpcode ∧
  decode 0x00010000 = .error .reservedNonzero

/-- R151: when a command is pending and the engine moves (it is the engine's turn, or no turn is left), the step is
exec of the command the latched word decodes to, at that state with the turn consumed. The turns are the model's own
(assumption 2). -/
def Obligations.PendingStepRunsDecodedCommand : Prop :=
  ∀ (s : State) (i : Instr), s.pending = true → decode s.cmd = .ok i →
    step (s.atTurn .engine) = exec i s ∧ (s.agenda = [] → step s = exec i s)

/-- R147, R144: a latched word whose OPC is not in the map or whose RSV is nonzero completes with ILLEGAL, with the
whole word in ERRINFO, and changes nothing else. -/
def Obligations.IllegalWordCompletesWithIllegal : Prop :=
  ∀ s : State, s.pending = true →
    (rsvOf s.cmd ≠ 0 ∨
      opcOf s.cmd ∉ [0x00, 0x01, 0x02, 0x03, 0x04, 0x05, 0x10, 0x11, 0x12, 0x18, 0x19, 0x20, 0x21, 0x28, 0x30, 0x31, 0x38]) →
    step (s.atTurn .engine) = .next { s with
      status := { s.status with
        busy := false, done := true, err := true, errcode := .illegal, lastop := BitVec.ofNat 8 (opcOf s.cmd) }
      pending := false
      errinfo := s.cmd }

/-- R140, R149: the encoding of every well-formed command decodes to that command, with every operand at every value the
format admits. -/
def Obligations.DecodeOfEncodeIsIdentity : Prop :=
  ∀ i : Instr, i.wellFormed = true → decode (encode i) = .ok i

/-- R143, R144, R146: a word decodes to a command exactly when its RSV is 0, its OPC is the command's and the fields the
command uses are the command's operands; no other field matters. -/
def Obligations.DecodeReadsUsedFieldsOnly : Prop :=
  ∀ (w : Word) (i : Instr), decode w = .ok i ↔ rsvOf w = 0 ∧ opcOf w = i.opcode ∧ fieldsUsed i w

/-- From every state that meets the invariant, a step gives a state that meets it: canonical memory, BUSY exactly while a
command is pending, DONE clear while BUSY, and a valid code table whenever TBLV = 1. -/
def Obligations.StepKeepsInvariant : Prop :=
  ∀ s t : State, s.Inv → step s = .next t → t.Inv

/-! ## The bit-vector datapath -/

/-- R201: NOP writes the completion and nothing else. -/
def Obligations.NopOnlyCompletes : Prop :=
  ∀ s : State, exec .nop s = .next { s with
    status := { s.status with
      busy := false, done := true, errcode := .ok, lastop := BitVec.ofNat 8 (opcOf s.cmd) }
    pending := false }

/-- R202: BCLR gives the empty vector, and every cell of the buffer reads 0. -/
def Obligations.BclrClearsTheBuffer : Prop :=
  ∀ (s : State) (d : BufId), ∃ t, exec (.bclr d) s = .next t ∧ CompletesOk s t ∧ SetsBuffer d [] s t ∧
    (∀ m, m < 512 → t.mem.read (bufAddr d m) = some 0) ∧ KeepsSetup s t ∧ t.res = s.res

/-- R203: BCOPY copies the source's value, also onto itself. -/
def Obligations.BcopyCopiesTheValue : Prop :=
  ∀ (s : State) (d k : BufId) (v : Bits), s.buf k = .ok v →
    ∃ t, exec (.bcopy d k) s = .next t ∧ CompletesOk s t ∧ SetsBuffer d v s t ∧ KeepsSetup s t ∧ t.res = s.res

/-- R204: BCAT writes Buf(d) ++ Buf(s), built from the old values, or raises CAPACITY with the length. -/
def Obligations.BcatConcatenates : Prop :=
  ∀ (s : State) (d k : BufId) (u v : Bits), s.buf d = .ok u → s.buf k = .ok v →
    (u.length + v.length ≤ 16384 →
      ∃ t, exec (.bcat d k) s = .next t ∧ CompletesOk s t ∧ SetsBuffer d (u ++ v) s t ∧ KeepsSetup s t ∧
        t.res = s.res) ∧
    (u.length + v.length > 16384 → exec (.bcat d k) s = .next (s.raiseError .capacity (u.length + v.length)))

/-- R205: BPUT appends the low W bits of PK_DATA, or raises PARAM with 0x010, or CAPACITY with the length. -/
def Obligations.BputAppendsTheField : Prop :=
  ∀ (s : State) (d : BufId) (w : Nat) (u : Bits),
    (w < 1 ∨ w > 32 → exec (.bput d w) s = .next (s.raiseError .param 0x010)) ∧
    (1 ≤ w → w ≤ 32 → s.buf d = .ok u →
      (u.length + w ≤ 16384 →
        ∃ t v, exec (.bput d w) s = .next t ∧ CompletesOk s t ∧ SetsBuffer d (u ++ v) s t ∧ v.length = w ∧
          val v = s.cfg.pkData.toNat % 2 ^ w ∧ KeepsSetup s t ∧ t.res = s.res) ∧
      (u.length + w > 16384 → exec (.bput d w) s = .next (s.raiseError .capacity (u.length + w))))

/-- R206: BGET puts the zero-extended field at PK_OFF into PK_DATA and moves PK_OFF past it, or raises PARAM with 0x010,
or RANGE with the offset. -/
def Obligations.BgetExtractsTheField : Prop :=
  ∀ (s : State) (k : BufId) (w : Nat) (v : Bits),
    (w < 1 ∨ w > 32 → exec (.bget k w) s = .next (s.raiseError .param 0x010)) ∧
    (1 ≤ w → w ≤ 32 → s.cfg.pkOff.toNat + w > s.bufLen k →
      exec (.bget k w) s = .next (s.raiseError .range s.cfg.pkOff.toNat)) ∧
    (1 ≤ w → w ≤ 32 → s.cfg.pkOff.toNat + w ≤ s.bufLen k → s.buf k = .ok v →
      ∃ t, exec (.bget k w) s = .next t ∧ CompletesOk s t ∧
        t.cfg.pkData.toNat = val (slice v s.cfg.pkOff.toNat (s.cfg.pkOff.toNat + w)) ∧
        t.cfg.pkOff.toNat = s.cfg.pkOff.toNat + w ∧
        t.cfg = { s.cfg with pkData := t.cfg.pkData, pkOff := t.cfg.pkOff } ∧
        t.mem = s.mem ∧ t.lens = s.lens ∧ t.res = s.res ∧ t.drawIdx = s.drawIdx ∧ t.status.tblv = s.status.tblv)

/-! ## Huffman -/

/-- R231 to R235, R55: when some symbol is present, HBUILD succeeds with a tree that R232's merging (or R233's single
leaf) gives: it writes every CODE entry from the tree's paths and every TRIE word from its arena, sets the HB_ registers
and TBLV, and changes nothing else. The tree is also the one the model's buildTree computes. -/
def Obligations.HbuildWritesTheTable : Prop :=
  ∀ (s : State) (ws : List Word),
    s.readWords 0x01000 256 = .ok ws → presentSymbols ws ≠ [] →
    ∃ tree t, treeOfFreqs ws tree ∧ buildTree (leavesFrom 0 ws) = some tree ∧
      exec .hbuild s = .next t ∧ CompletesOk s t ∧ t.status.tblv = true ∧
      (∀ k, k < 256 → t.mem.read (0x10000 + 64 * k) = some (BitVec.ofNat 32 (tree.codeword k).length) ∧
        ∃ bits, t.readWords (0x10000 + 64 * k + 4) 8 = .ok bits ∧
          unpackWords bits = tree.codeword k ++ zeros (256 - (tree.codeword k).length)) ∧
      (∀ i, i < 511 → t.mem.read (0x02000 + 4 * i) = some ((tree.arena 0).getD i 0)) ∧
      t.res.hbNleaf.toNat = (presentSymbols ws).length ∧ t.res.hbMaxlen.toNat = tree.maxLen ∧
      t.res.hbNnode.toNat = tree.size ∧
      t.res = { s.res with hbNleaf := t.res.hbNleaf, hbMaxlen := t.res.hbMaxlen, hbNnode := t.res.hbNnode } ∧
      (∀ a, (a < 0x02000 ∨ 0x027FC ≤ a) → (a < 0x10000 ∨ 0x14000 ≤ a) → t.mem.read a = s.mem.read a) ∧
      t.lens = s.lens ∧ t.cfg = s.cfg ∧ t.drawIdx = s.drawIdx

/-- R235, R401: when every FREQ word is 0, HBUILD raises EMPTY_FREQ and clears TBLV, and CODE, TRIE and the HB_ registers
keep their contents. -/
def Obligations.HbuildOfNoSymbolsIsEmptyFreq : Prop :=
  ∀ s : State, (∀ k, k < 256 → s.mem.read (0x01000 + 4 * k) = some 0) →
    exec .hbuild s = .next { s.raiseError .emptyFreq 0 with
      status := { (s.raiseError .emptyFreq 0).status with tblv := false } }

/-- R231 to R233, R235: when some FREQ word is nonzero, HBUILD succeeds, and a symbol gets a codeword of 1 to 255 bits
exactly when its frequency is nonzero. A single present symbol gets the codeword 0. Of two present symbols the least in
(frequency, symbol) order gets 0 and the other 1. -/
def Obligations.HbuildCodesExactlyThePresentSymbols : Prop :=
  ∀ (s : State) (ws : List Word), s.readWords 0x01000 256 = .ok ws → (∃ k, k < 256 ∧ ws.getD k 0 ≠ 0) →
    ∃ t, exec .hbuild s = .next t ∧ t.status.errcode = .ok ∧
      (∀ k, k < 256 → ∃ n, codeLenIs t k n ∧ n ≤ 255 ∧ (0 < n ↔ ws.getD k 0 ≠ 0)) ∧
      (∀ x, x < 256 → (∀ k, k < 256 → (ws.getD k 0 ≠ 0 ↔ k = x)) → codewordIs t x [false]) ∧
      (∀ x y, x < 256 → y < 256 → x ≠ y → (∀ k, k < 256 → (ws.getD k 0 ≠ 0 ↔ k = x ∨ k = y)) →
        (ws.getD x 0).toNat < (ws.getD y 0).toNat ∨ (ws.getD x 0 = ws.getD y 0 ∧ x < y) →
        codewordIs t x [false] ∧ codewordIs t y [true])

/-- R237: after a successful HBUILD no codeword in CODE is a beginning of the codeword of another symbol. -/
def Obligations.BuiltCodeIsFreeOfPrefixes : Prop :=
  ∀ s t : State, exec .hbuild s = .next t → t.status.errcode = .ok →
    ∀ (x y : Nat) (u v : Bits), x < 256 → y < 256 → x ≠ y → codewordIs t x u → codewordIs t y v →
      u ≠ [] → v ≠ [] → ¬ u <+: v

/-- R238: HBUILD's outcome is a function of the FREQ words: two states with equal FREQ contents get the same error code
and TBLV, and on a success equal CODE and TRIE words and HB_ registers, whatever came before. -/
def Obligations.HbuildIsAFunctionOfFreq : Prop :=
  ∀ s s' t t' : State, (∀ k, k < 256 → s.mem.read (0x01000 + 4 * k) = s'.mem.read (0x01000 + 4 * k)) →
    exec .hbuild s = .next t → exec .hbuild s' = .next t' →
    t.status.errcode = t'.status.errcode ∧ t.status.tblv = t'.status.tblv ∧
    (t.status.errcode = .ok →
      (∀ a, (0x02000 ≤ a ∧ a < 0x027FC) ∨ (0x10000 ≤ a ∧ a < 0x14000) → t.mem.read a = t'.mem.read a) ∧
      t.res.hbNleaf = t'.res.hbNleaf ∧ t.res.hbMaxlen = t'.res.hbMaxlen ∧ t.res.hbNnode = t'.res.hbNnode)

/-- R240, R241: HENC writes the concatenation of the symbols' codewords and fallback bits, or raises CAPACITY with its
length. -/
def Obligations.HencConcatenatesCodewords : Prop :=
  ∀ (s : State) (d : BufId) (xs : List Word) (us : List Bits),
    1 ≤ s.cfg.fbw.toNat → s.cfg.fbw.toNat ≤ 32 → s.status.tblv = true → InputIs s xs →
    List.Forall₂ (symbolBitsAre s) xs us →
    (us.flatten.length ≤ 16384 →
      ∃ t, exec (.henc d) s = .next t ∧ CompletesOk s t ∧ SetsBuffer d us.flatten s t ∧ KeepsSetup s t ∧
        t.res = s.res) ∧
    (us.flatten.length > 16384 → exec (.henc d) s = .next (s.raiseError .capacity us.flatten.length))

/-- R240, R245, R403, R404: PARAM on FBW comes before NO_TABLE, and NO_TABLE before RANGE; HDEC raises NO_TABLE. -/
def Obligations.HuffmanCodecErrorsInOrder : Prop :=
  ∀ (s : State) (d k : BufId),
    (s.cfg.fbw.toNat < 1 ∨ s.cfg.fbw.toNat > 32 → exec (.henc d) s = .next (s.raiseError .param 0x044)) ∧
    (1 ≤ s.cfg.fbw.toNat → s.cfg.fbw.toNat ≤ 32 → s.status.tblv = false →
      exec (.henc d) s = .next (s.raiseError .noTable 0)) ∧
    (1 ≤ s.cfg.fbw.toNat → s.cfg.fbw.toNat ≤ 32 → s.status.tblv = true →
      s.cfg.symInBase.toNat + s.cfg.symInCnt.toNat > 1024 →
      exec (.henc d) s = .next (s.raiseError .range 0x070)) ∧
    (s.status.tblv = false → exec (.hdec k) s = .next (s.raiseError .noTable 0))

/-- R245: the walk is at the root before the first bit and takes one step of R245 per bit; HDEC writes its symbols to SYM
and its counts to the result registers, or raises CAPACITY with the symbol count. -/
def Obligations.HdecWritesTheWalksSymbols : Prop :=
  Walk.start = { node := 0, depth := 0, bad := 0, out := [] } ∧
  (∀ (s : State) (p : Walk), s.walkBits p [] = .ok p) ∧
  (∀ (s : State) (p q : Walk) (b : Bool) (v : Bits), walkStepIs s p b q → s.walkBits p (b :: v) = s.walkBits q v) ∧
  ∀ (s : State) (k : BufId) (u : Bits) (e : Walk),
    s.status.tblv = true → s.buf k = .ok u → s.walkBits Walk.start u = .ok e →
    (s.cfg.symOutBase.toNat + e.out.length ≤ 1024 →
      ∃ t, exec (.hdec k) s = .next t ∧ CompletesOk s t ∧ WritesSym e.out s t ∧ KeepsSetup s t ∧
        t.res.symOutCnt.toNat = e.out.length ∧ t.res.resid.toNat = e.depth ∧ t.res.badbit.toNat = e.bad ∧
        t.res = { s.res with symOutCnt := t.res.symOutCnt, resid := t.res.resid, badbit := t.res.badbit }) ∧
    (s.cfg.symOutBase.toNat + e.out.length > 1024 →
      exec (.hdec k) s = .next (s.raiseError .capacity e.out.length))

/-- R245, R236: with a valid code table and a readable source, HDEC always completes: the walk meets no unwritten TRIE
word, whatever the bits, and spends at least one bit per symbol; where the output range has room for one symbol per
source bit, the completion is a success and SYM holds the walk's symbols. -/
def Obligations.HdecCompletesOnAValidTable : Prop :=
  ∀ (s : State) (k : BufId) (u : Bits), s.Inv → s.status.tblv = true → s.buf k = .ok u →
    ∃ e t, s.walkBits Walk.start u = .ok e ∧ e.out.length + e.bad + e.depth ≤ u.length ∧
      exec (.hdec k) s = .next t ∧
      (s.cfg.symOutBase.toNat + u.length ≤ 1024 → CompletesOk s t ∧ WritesSym e.out s t)

/-- R247: with a valid table and every symbol seen, HENC then HDEC gives the symbols back. -/
def Obligations.HuffmanRoundTrip : Prop :=
  ∀ (s : State) (d : BufId) (xs : List Word) (us : List Bits),
    s.Inv → s.status.tblv = true → 1 ≤ s.cfg.fbw.toNat → s.cfg.fbw.toNat ≤ 32 → InputIs s xs →
    List.Forall₂ (fun x u => x.toNat < 256 ∧ u ≠ [] ∧ codewordIs s x.toNat u) xs us →
    us.flatten.length ≤ 16384 → s.cfg.symOutBase.toNat + xs.length ≤ 1024 →
    ∃ t t', exec (.henc d) s = .next t ∧ exec (.hdec d) t = .next t' ∧ t'.status.errcode = .ok ∧
      (∀ i, i < xs.length → t'.mem.read (symAddr (s.cfg.symOutBase.toNat + i)) = xs[i]?) ∧
      t'.res.symOutCnt.toNat = xs.length ∧ t'.res.resid = 0 ∧ t'.res.badbit = 0

/-! ## The fixed-width and semantic codecs -/

/-- R271, R270: FENC writes the low FIXW bits of each character, most significant first, or raises PARAM, RANGE or
CAPACITY. -/
def Obligations.FencPacksMaskedCharacters : Prop :=
  ∀ (s : State) (d : BufId) (xs : List Word),
    (s.cfg.fixw.toNat < 1 ∨ s.cfg.fixw.toNat > 32 → exec (.fenc d) s = .next (s.raiseError .param 0x040)) ∧
    (1 ≤ s.cfg.fixw.toNat → s.cfg.fixw.toNat ≤ 32 → s.cfg.symInBase.toNat + s.cfg.symInCnt.toNat > 1024 →
      exec (.fenc d) s = .next (s.raiseError .range 0x070)) ∧
    (1 ≤ s.cfg.fixw.toNat → s.cfg.fixw.toNat ≤ 32 → InputIs s xs →
      (xs.length * s.cfg.fixw.toNat ≤ 16384 →
        ∃ t v, exec (.fenc d) s = .next t ∧ CompletesOk s t ∧ SetsBuffer d v s t ∧ KeepsSetup s t ∧ t.res = s.res ∧
          v.length = xs.length * s.cfg.fixw.toNat ∧
          ∀ i x, xs[i]? = some x →
            val (slice v (i * s.cfg.fixw.toNat) ((i + 1) * s.cfg.fixw.toNat)) = x.toNat % 2 ^ s.cfg.fixw.toNat) ∧
      (xs.length * s.cfg.fixw.toNat > 16384 →
        exec (.fenc d) s = .next (s.raiseError .capacity (xs.length * s.cfg.fixw.toNat))))

/-- R273: FDEC writes the value of each whole chunk of FIXW bits and counts the bits left over, or raises PARAM or
CAPACITY. -/
def Obligations.FdecUnpacksWholeChunks : Prop :=
  ∀ (s : State) (k : BufId) (u : Bits),
    (s.cfg.fixw.toNat < 1 ∨ s.cfg.fixw.toNat > 32 → exec (.fdec k) s = .next (s.raiseError .param 0x040)) ∧
    (1 ≤ s.cfg.fixw.toNat → s.cfg.fixw.toNat ≤ 32 → s.buf k = .ok u →
      (s.cfg.symOutBase.toNat + u.length / s.cfg.fixw.toNat ≤ 1024 →
        ∃ t ws, exec (.fdec k) s = .next t ∧ CompletesOk s t ∧ WritesSym ws s t ∧ KeepsSetup s t ∧
          ws.length = u.length / s.cfg.fixw.toNat ∧
          (∀ j w, ws[j]? = some w →
            w.toNat = val (slice u (j * s.cfg.fixw.toNat) ((j + 1) * s.cfg.fixw.toNat))) ∧
          t.res.symOutCnt.toNat = u.length / s.cfg.fixw.toNat ∧ t.res.resid.toNat = u.length % s.cfg.fixw.toNat ∧
          t.res = { s.res with symOutCnt := t.res.symOutCnt, resid := t.res.resid }) ∧
      (s.cfg.symOutBase.toNat + u.length / s.cfg.fixw.toNat > 1024 →
        exec (.fdec k) s = .next (s.raiseError .capacity (u.length / s.cfg.fixw.toNat))))

/-- R274: FENC then FDEC gives the characters back when each is below 2^FIXW and the vector fits. -/
def Obligations.FixedWidthRoundTrip : Prop :=
  ∀ (s : State) (d : BufId) (xs : List Word),
    1 ≤ s.cfg.fixw.toNat → s.cfg.fixw.toNat ≤ 32 → InputIs s xs →
    (∀ x ∈ xs, x.toNat < 2 ^ s.cfg.fixw.toNat) → xs.length * s.cfg.fixw.toNat ≤ 16384 →
    s.cfg.symOutBase.toNat + xs.length ≤ 1024 →
    ∃ t t', exec (.fenc d) s = .next t ∧ exec (.fdec d) t = .next t' ∧ t'.status.errcode = .ok ∧
      (∀ i, i < xs.length → t'.mem.read (symAddr (s.cfg.symOutBase.toNat + i)) = xs[i]?) ∧
      t'.res.symOutCnt.toNat = xs.length ∧ t'.res.resid = 0

/-- R276, R275: SENC writes bits_WH(h) ++ bits_WR(r) ++ bits_WT(t) of each triple in order, or raises PARAM, RANGE, or
WIDTH with the number of the first triple with an id that does not fit. -/
def Obligations.SencPacksFittingTriples : Prop :=
  ∀ (s : State) (d : BufId) (f : FieldWidths) (xs : List Triple), s.fieldWidths = f →
    (f.wh > 16 ∨ f.wr > 16 ∨ f.wt > 16 ∨ f.wh + f.wr + f.wt = 0 →
      exec (.senc d) s = .next (s.raiseError .param 0x058)) ∧
    (f.wh ≤ 16 → f.wr ≤ 16 → f.wt ≤ 16 → f.wh + f.wr + f.wt ≥ 1 →
      (s.cfg.symInBase.toNat + 3 * s.cfg.symInCnt.toNat > 1024 →
        exec (.senc d) s = .next (s.raiseError .range 0x070)) ∧
      (TriplesAre s xs → (∀ x ∈ xs, x.h < 2 ^ f.wh ∧ x.r < 2 ^ f.wr ∧ x.t < 2 ^ f.wt) →
        ∃ t, exec (.senc d) s = .next t ∧ CompletesOk s t ∧
          SetsBuffer d (xs.flatMap fun x => bitsOf f.wh x.h ++ bitsOf f.wr x.r ++ bitsOf f.wt x.t) s t ∧
          KeepsSetup s t ∧ t.res = s.res) ∧
      (∀ (i : Nat) (x : Triple), TriplesAre s xs → xs[i]? = some x →
        ¬ (x.h < 2 ^ f.wh ∧ x.r < 2 ^ f.wr ∧ x.t < 2 ^ f.wt) →
        (∀ j y, j < i → xs[j]? = some y → y.h < 2 ^ f.wh ∧ y.r < 2 ^ f.wr ∧ y.t < 2 ^ f.wt) →
        exec (.senc d) s = .next (s.raiseError .width i)))

/-- R279: SDEC cuts the source into chunks of TW bits, keeps the triples whose ids are all below their counts, in order,
writes them to SYM and counts the dropped ones and the bits left over, or raises PARAM or CAPACITY. -/
def Obligations.SdecKeepsKnownTriples : Prop :=
  ∀ (s : State) (k : BufId) (f : FieldWidths) (u : Bits) (all kept : List Triple), s.fieldWidths = f →
    (f.wh > 16 ∨ f.wr > 16 ∨ f.wt > 16 ∨ f.wh + f.wr + f.wt = 0 →
      exec (.sdec k) s = .next (s.raiseError .param 0x058)) ∧
    (f.wh ≤ 16 → f.wr ≤ 16 → f.wt ≤ 16 → f.wh + f.wr + f.wt ≥ 1 → s.buf k = .ok u →
      all.length = u.length / (f.wh + f.wr + f.wt) →
      (∀ j x, all[j]? = some x → ∃ c, c = slice u (j * (f.wh + f.wr + f.wt)) ((j + 1) * (f.wh + f.wr + f.wt)) ∧
        x.h = val (slice c 0 f.wh) ∧ x.r = val (slice c f.wh (f.wh + f.wr)) ∧
        x.t = val (slice c (f.wh + f.wr) (f.wh + f.wr + f.wt))) →
      kept = all.filter (fun x => decide
        (x.h < s.cfg.semNh.toNat ∧ x.r < s.cfg.semNr.toNat ∧ x.t < s.cfg.semNt.toNat)) →
      (s.cfg.symOutBase.toNat + 3 * kept.length ≤ 1024 →
        ∃ t, exec (.sdec k) s = .next t ∧ CompletesOk s t ∧
          WritesSym (kept.flatMap fun x => [BitVec.ofNat 32 x.h, BitVec.ofNat 32 x.r, BitVec.ofNat 32 x.t]) s t ∧
          KeepsSetup s t ∧ t.res.symOutCnt.toNat = kept.length ∧
          t.res.resid.toNat = u.length % (f.wh + f.wr + f.wt) ∧
          t.res.drop.toNat = all.length - kept.length ∧
          t.res = { s.res with symOutCnt := t.res.symOutCnt, resid := t.res.resid, drop := t.res.drop }) ∧
      (s.cfg.symOutBase.toNat + 3 * kept.length > 1024 →
        exec (.sdec k) s = .next (s.raiseError .capacity kept.length)))

/-- R281: SENC then SDEC gives the triples back when every id fits its field and is below its count. -/
def Obligations.SemanticRoundTrip : Prop :=
  ∀ (s : State) (d : BufId) (xs : List Triple), s.fieldWidths.legal = true → TriplesAre s xs →
    (∀ x ∈ xs, x.fits s.fieldWidths = true ∧ s.knows x = true) →
    s.cfg.symOutBase.toNat + 3 * xs.length ≤ 1024 →
    ∃ t t', exec (.senc d) s = .next t ∧ exec (.sdec d) t = .next t' ∧ t'.status.errcode = .ok ∧
      WritesSym (xs.flatMap Triple.words) t t' ∧
      t'.res.symOutCnt.toNat = xs.length ∧ t'.res.resid = 0 ∧ t'.res.drop = 0

/-! ## The channel -/

/-- R301, R57: CHAN exclusive-ORs bit i with (draw_i < PROB), consumes one draw per bit whatever PROB is, and raises PARAM
for PROB above 65536. -/
def Obligations.ChanFlipsBitsByTheirDraws : Prop :=
  ∀ (s : State) (d k : BufId) (u : Bits),
    (s.cfg.prob.toNat > 65536 → exec (.chan d k) s = .next (s.raiseError .param 0x04C)) ∧
    (s.cfg.prob.toNat ≤ 65536 → s.buf k = .ok u →
      ∃ t v, exec (.chan d k) s = .next t ∧ CompletesOk s t ∧ SetsBuffer d v s t ∧ v.length = u.length ∧
        (∀ i b, u[i]? = some b →
          v[i]? = some (b ^^ decide
            ((Config.channelDraw s.cfg.seed (s.drawIdx + BitVec.ofNat 32 i)).toNat < s.cfg.prob.toNat))) ∧
        t.drawIdx = s.drawIdx + BitVec.ofNat 32 u.length ∧ t.cfg = s.cfg ∧ t.res = s.res ∧
        t.status.tblv = s.status.tblv)

/-- R302: at PROB = 0 CHAN copies its source, and at PROB = 65536 it writes the complement, whatever the draws. -/
def Obligations.ChannelEndpointsIgnoreDraws : Prop :=
  ∀ (s : State) (d k : BufId) (u : Bits), s.buf k = .ok u →
    (s.cfg.prob = 0 → ∃ t, exec (.chan d k) s = .next t ∧ t.status.errcode = .ok ∧ t.buf d = .ok u) ∧
    (s.cfg.prob.toNat = 65536 →
      ∃ t, exec (.chan d k) s = .next t ∧ t.status.errcode = .ok ∧ t.buf d = .ok (u.map not))

/-- R303: the output of CHAN is a function of the source bits, PROB, SEED and the draws consumed since the SEED write. -/
def Obligations.ChannelIsDeterministic : Prop :=
  ∀ (s s' t t' : State) (d k d' k' : BufId), s.buf k = s'.buf k' → s.cfg.prob = s'.cfg.prob →
    s.cfg.seed = s'.cfg.seed → s.drawIdx = s'.drawIdx →
    exec (.chan d k) s = .next t → exec (.chan d' k') s' = .next t' →
    t.status.errcode = .ok →
    t'.status.errcode = .ok ∧ t.buf d = t'.buf d' ∧ t.drawIdx = t'.drawIdx

/-- Vector V-L12 (from R301): with the same SEED and DRAW_IDX, a larger PROB flips at least the bits a smaller one
flips. -/
def Obligations.RaisingProbOnlyAddsFlips : Prop :=
  ∀ (s s' t t' : State) (d k : BufId) (u v v' : Bits), s.buf k = .ok u → s'.buf k = .ok u →
    s.cfg.seed = s'.cfg.seed → s.drawIdx = s'.drawIdx →
    s.cfg.prob.toNat ≤ s'.cfg.prob.toNat → s'.cfg.prob.toNat ≤ 65536 →
    exec (.chan d k) s = .next t → exec (.chan d k) s' = .next t' → t.buf d = .ok v → t'.buf d = .ok v' →
    ∀ i : Nat, v[i]? ≠ u[i]? → v'[i]? ≠ u[i]?

/-! ## The repetition code -/

/-- R321: RENC writes REP contiguous copies of each bit, or raises PARAM, or CAPACITY with L·R. -/
def Obligations.RencRepeatsEachBit : Prop :=
  ∀ (s : State) (d k : BufId) (u : Bits),
    (s.cfg.rep = 0 → exec (.renc d k) s = .next (s.raiseError .param 0x048)) ∧
    (s.cfg.rep ≠ 0 → s.buf k = .ok u →
      (u.length * s.cfg.rep.toNat ≤ 16384 →
        ∃ t v, exec (.renc d k) s = .next t ∧ CompletesOk s t ∧ SetsBuffer d v s t ∧ KeepsSetup s t ∧ t.res = s.res ∧
          v.length = u.length * s.cfg.rep.toNat ∧
          ∀ i, i < v.length → v[i]? = u[i / s.cfg.rep.toNat]?) ∧
      (u.length * s.cfg.rep.toNat > 16384 →
        exec (.renc d k) s = .next (s.raiseError .capacity (u.length * s.cfg.rep.toNat))))

/-- R323, R324: RDEC writes for each whole block of REP bits 1 iff twice its number of ones is at least REP, and counts the
bits left over in RESID; REP = 0 raises PARAM. -/
def Obligations.RdecVotesOnWholeBlocks : Prop :=
  ∀ (s : State) (d k : BufId) (u : Bits),
    (s.cfg.rep = 0 → exec (.rdec d k) s = .next (s.raiseError .param 0x048)) ∧
    (s.cfg.rep ≠ 0 → s.buf k = .ok u →
      ∃ t v, exec (.rdec d k) s = .next t ∧ CompletesOk s t ∧ SetsBuffer d v s t ∧ KeepsSetup s t ∧
        v.length = u.length / s.cfg.rep.toNat ∧
        (∀ j, j < v.length → v[j]? = some (decide
          (2 * (slice u (j * s.cfg.rep.toNat) ((j + 1) * s.cfg.rep.toNat)).count true ≥ s.cfg.rep.toNat))) ∧
        t.res.resid.toNat = u.length % s.cfg.rep.toNat ∧ t.res = { s.res with resid := t.res.resid })

/-- R325: RENC then RDEC gives the vector back, with RESID = 0, for every factor in 1..255, even or odd. -/
def Obligations.RepetitionRoundTrip : Prop :=
  ∀ (s : State) (d k e : BufId) (u : Bits), s.cfg.rep ≠ 0 → s.buf k = .ok u →
    u.length * s.cfg.rep.toNat ≤ 16384 →
    ∃ t t', exec (.renc d k) s = .next t ∧ exec (.rdec e d) t = .next t' ∧ t'.status.errcode = .ok ∧
      t'.buf e = .ok u ∧ t'.res.resid = 0

/-- R326: for odd R a block decodes to b iff fewer than (R+1)/2 of its bits differ from b. -/
def Obligations.MajorityCorrectsFewFlips : Prop :=
  ∀ (s : State) (d k : BufId) (u : Bits), s.cfg.rep.toNat % 2 = 1 → s.buf k = .ok u →
    ∃ t v, exec (.rdec d k) s = .next t ∧ t.buf d = .ok v ∧ v.length = u.length / s.cfg.rep.toNat ∧
      ∀ j b, j < v.length →
        (v[j]? = some b ↔
          (slice u (j * s.cfg.rep.toNat) ((j + 1) * s.cfg.rep.toNat)).count (!b) < (s.cfg.rep.toNat + 1) / 2)

/-! ## The corrector -/

/-- R340, R341, R342: CORR returns the entry of minimum Hamming distance, the lowest index among equals. -/
def Obligations.CorrReturnsFirstNearestEntry : Prop :=
  ∀ (s : State) (d k : BufId) (u : Bits) (e : Nat → Nat), s.buf k = .ok u →
    1 ≤ s.cfg.cbW.toNat → s.cfg.cbW.toNat ≤ 64 → 1 ≤ s.cfg.cbN.toNat → s.cfg.cbN.toNat ≤ 1024 →
    u.length = s.cfg.cbW.toNat →
    (∀ j, j < s.cfg.cbN.toNat → entryIs s j (e j) ∧ e j < 2 ^ s.cfg.cbW.toNat) →
    ∃ t j, exec (.corr d k) s = .next t ∧ CompletesOk s t ∧ KeepsSetup s t ∧ j < s.cfg.cbN.toNat ∧
      SetsBuffer d (bitsOf s.cfg.cbW.toNat (e j)) s t ∧ t.res.corrIdx.toNat = j ∧
      t.res.corrDist.toNat = hammingDist u (bitsOf s.cfg.cbW.toNat (e j)) ∧
      (∀ i, i < s.cfg.cbN.toNat → hammingDist u (bitsOf s.cfg.cbW.toNat (e j))
        ≤ hammingDist u (bitsOf s.cfg.cbW.toNat (e i))) ∧
      (∀ i, i < j → hammingDist u (bitsOf s.cfg.cbW.toNat (e j))
        < hammingDist u (bitsOf s.cfg.cbW.toNat (e i))) ∧
      t.res = { s.res with corrIdx := t.res.corrIdx, corrDist := t.res.corrDist }

/-- R343: an input that is itself an entry is returned unchanged, with distance 0 and the lowest index whose entry equals
it. -/
def Obligations.CorrFixesCodebookMembers : Prop :=
  ∀ (s : State) (d k : BufId) (u : Bits) (e : Nat → Nat) (j : Nat), s.buf k = .ok u →
    1 ≤ s.cfg.cbW.toNat → s.cfg.cbW.toNat ≤ 64 → s.cfg.cbN.toNat ≤ 1024 →
    (∀ i, i < s.cfg.cbN.toNat → entryIs s i (e i) ∧ e i < 2 ^ s.cfg.cbW.toNat) →
    j < s.cfg.cbN.toNat → u = bitsOf s.cfg.cbW.toNat (e j) →
    (∀ i, i < j → e i ≠ e j) →
    ∃ t, exec (.corr d k) s = .next t ∧ t.status.errcode = .ok ∧ t.buf d = .ok u ∧ t.res.corrDist = 0 ∧
      t.res.corrIdx.toNat = j

/-- R341, R403, R404: CORR's errors in their order: PARAM on CB_W, PARAM on CB_N, EMPTY_CB, WIDTH of the input, WIDTH of
the lowest malformed entry. -/
def Obligations.CorrErrorsInOrder : Prop :=
  ∀ (s : State) (d k : BufId),
    (s.cfg.cbW.toNat < 1 ∨ s.cfg.cbW.toNat > 64 → exec (.corr d k) s = .next (s.raiseError .param 0x068)) ∧
    (1 ≤ s.cfg.cbW.toNat → s.cfg.cbW.toNat ≤ 64 →
      (s.cfg.cbN.toNat > 1024 → exec (.corr d k) s = .next (s.raiseError .param 0x06C)) ∧
      (s.cfg.cbN.toNat = 0 → exec (.corr d k) s = .next (s.raiseError .emptyCb 0)) ∧
      (1 ≤ s.cfg.cbN.toNat → s.cfg.cbN.toNat ≤ 1024 → ∀ u, s.buf k = .ok u →
        (u.length ≠ s.cfg.cbW.toNat → exec (.corr d k) s = .next (s.raiseError .width u.length)) ∧
        (u.length = s.cfg.cbW.toNat → ∀ (e : Nat → Nat) (j : Nat), j < s.cfg.cbN.toNat →
          (∀ i, i ≤ j → entryIs s i (e i)) → (∀ i, i < j → e i < 2 ^ s.cfg.cbW.toNat) → e j ≥ 2 ^ s.cfg.cbW.toNat →
          exec (.corr d k) s = .next (s.raiseError .width (0x10000 + j)))))

/-! ## Frames and rules over all commands -/

/-- R33, R52, R401: what a command that writes a buffer leaves unchanged, whether it succeeds or fails: every other length,
every word outside the buffer's window, every configuration register, every result register but RESID for RDEC and
CORR_IDX and CORR_DIST for CORR, DRAW_IDX but for CHAN, TBLV, OVR and the rest of the control state. -/
def Obligations.BufferWritersFrame : Prop :=
  ∀ (i : Instr) (d : BufId) (s t : State), bufferDst i = some d → exec i s = .next t →
    (∀ b, b ≠ d → t.bufLen b = s.bufLen b) ∧
    (∀ a, a < bufAddr d 0 ∨ bufAddr d 512 ≤ a → t.mem.read a = s.mem.read a) ∧
    t.cfg = s.cfg ∧
    ((∀ k, i ≠ .chan d k) → t.drawIdx = s.drawIdx) ∧
    t.res = { s.res with resid := t.res.resid, corrIdx := t.res.corrIdx, corrDist := t.res.corrDist } ∧
    ((∀ k, i ≠ .rdec d k) → t.res.resid = s.res.resid) ∧
    ((∀ k, i ≠ .corr d k) → t.res.corrIdx = s.res.corrIdx ∧ t.res.corrDist = s.res.corrDist) ∧
    t.status.tblv = s.status.tblv ∧ t.status.ovr = s.status.ovr ∧ t.ie = s.ie ∧ t.cmd = s.cmd

/-- R33, R52, R401: what HDEC, FDEC and SDEC leave unchanged: every length, every word outside the SYM words they write,
every configuration register, DRAW_IDX, TBLV, and every result register they do not list. -/
def Obligations.SymbolWritersFrame : Prop :=
  ∀ (i : Instr) (k : BufId) (s t : State), i = .hdec k ∨ i = .fdec k ∨ i = .sdec k → exec i s = .next t →
    t.lens = s.lens ∧ t.cfg = s.cfg ∧ t.drawIdx = s.drawIdx ∧ t.status.tblv = s.status.tblv ∧
    t.status.ovr = s.status.ovr ∧ t.ie = s.ie ∧ t.cmd = s.cmd ∧
    (∀ a, (a < symAddr s.cfg.symOutBase.toNat ∨
        symAddr (s.cfg.symOutBase.toNat + (if i = .sdec k then 3 else 1) * t.res.symOutCnt.toNat) ≤ a) →
      t.mem.read a = s.mem.read a) ∧
    t.res = { s.res with
      symOutCnt := t.res.symOutCnt, resid := t.res.resid, badbit := t.res.badbit, drop := t.res.drop } ∧
    (i ≠ .hdec k → t.res.badbit = s.res.badbit) ∧ (i ≠ .sdec k → t.res.drop = s.res.drop)

/-- R33, R52, R206, R235: what NOP, BGET and HBUILD leave unchanged: every length, every buffer, FREQ, SYM and CB; for NOP
and BGET every memory word; every configuration register but PK_DATA and PK_OFF for BGET; every result register but
the HB_ ones for HBUILD. -/
def Obligations.NonBufferWritersFrame : Prop :=
  ∀ (i : Instr) (s t : State), exec i s = .next t →
    (i = .nop ∨ i = .hbuild ∨ ∃ k w, i = .bget k w) →
    t.lens = s.lens ∧ t.drawIdx = s.drawIdx ∧ t.status.ovr = s.status.ovr ∧ t.ie = s.ie ∧ t.cmd = s.cmd ∧
    (∀ a, (a < 0x02000 ∨ 0x027FC ≤ a) → (a < 0x10000 ∨ 0x14000 ≤ a) → t.mem.read a = s.mem.read a) ∧
    (i ≠ .hbuild → t.mem = s.mem ∧ t.res = s.res ∧ t.status.tblv = s.status.tblv) ∧
    t.cfg = { s.cfg with pkData := t.cfg.pkData, pkOff := t.cfg.pkOff } ∧
    (i = .nop ∨ i = .hbuild → t.cfg = s.cfg) ∧
    t.res = { s.res with hbNleaf := t.res.hbNleaf, hbMaxlen := t.res.hbMaxlen, hbNnode := t.res.hbNnode }

/-- R401: a failed command writes only its completion and ERRINFO, except that a failed HBUILD also clears TBLV; a
successful one leaves ERR and ERRINFO as they were. -/
def Obligations.FailedCommandWritesNothing : Prop :=
  ∀ (i : Instr) (s t : State), exec i s = .next t →
    (t.status.errcode ≠ .ok →
      t.mem = s.mem ∧ t.lens = s.lens ∧ t.cfg = s.cfg ∧ t.res = s.res ∧ t.drawIdx = s.drawIdx ∧ t.ie = s.ie ∧
      t.cmd = s.cmd ∧ t.status.err = true ∧ t.status.ovr = s.status.ovr ∧
      t.status.tblv = (s.status.tblv && decide (i ≠ .hbuild))) ∧
    (t.status.errcode = .ok → t.status.err = s.status.err ∧ t.errinfo = s.errinfo)

/-- R402: the error codes each command can complete with; no command completes with another. -/
def Obligations.CommandsRaiseTheirCodesOnly : Prop :=
  ∀ (i : Instr) (s t : State), exec i s = .next t → t.status.errcode ∈ codesOf i

/-- R151, R400, R401, R403: every completion clears BUSY and the pending condition, sets DONE, stores LASTOP, and sets
ERR on an error and keeps ERR and ERRINFO on a success. An error completion, which every error statement answers with,
writes the code, ERR and the information saturated at 2^32 - 1, and changes nothing else. -/
def Obligations.EveryCompletionReports : Prop :=
  (∀ (i : Instr) (s t : State), exec i s = .next t →
    t.status.busy = false ∧ t.pending = false ∧ t.status.done = true ∧
    t.status.lastop = BitVec.ofNat 8 (opcOf s.cmd) ∧
    (t.status.errcode ≠ .ok → t.status.err = true) ∧
    (t.status.errcode = .ok → t.status.err = s.status.err ∧ t.errinfo = s.errinfo)) ∧
  ∀ (s : State) (c : ErrCode) (n : Nat), c ≠ .ok → ∃ info : Word, info.toNat = min n (2 ^ 32 - 1) ∧
    s.raiseError c n = { s with
      status := { s.status with
        busy := false, done := true, err := true, errcode := c, lastop := BitVec.ofNat 8 (opcOf s.cmd) }
      pending := false
      errinfo := info }

/-- R60, R420: the only way a command stops without completing is UNINIT_READ of a word that is indeed unwritten. -/
def Obligations.CommandsStopOnlyAtUnwrittenWords : Prop :=
  ∀ (i : Instr) (s : State),
    (∃ t, exec i s = .next t) ∨ ∃ a, exec i s = .fault (.uninitRead a) ∧ s.mem.read a = none

/-- R236, R118: for every step but the RST input and the engine running HBUILD, CODE and TRIE are as before, and so is
TBLV, but for a CTRL write with SRST = 1, which clears it (R451). -/
def Obligations.OnlyHbuildChangesTheTable : Prop :=
  ∀ (s t : State), step s = .next t → s.agenda.head? ≠ some .powerOn →
    ¬ ((s.agenda = [] ∨ s.agenda.head? = some .engine) ∧ s.pending = true ∧ decode s.cmd = .ok .hbuild) →
    (∀ a, (0x02000 ≤ a ∧ a < 0x027FC) ∨ (0x10000 ≤ a ∧ a < 0x14000) → t.mem.read a = s.mem.read a) ∧
    ((∀ w, s.agenda.head? = some (.host (.write .word 0x008 w)) → w.getLsbD 1 = false) →
      t.status.tblv = s.status.tblv) ∧
    ∀ w, s.agenda.head? = some (.host (.write .word 0x008 w)) → w.getLsbD 1 = true → t.status.tblv = false

/-! ## The host bus

A statement about one host access or one engine step makes it the next turn of the agenda (assumption 2), and reads the
returned data in `rdata` (assumption 3): both are the model's own fields, not the spec's. -/

/-- R150, R152: a CMD write when idle is accepted, whatever the word; when busy it is dropped and sets OVR. -/
def Obligations.CmdWriteIsAcceptedOrDropped : Prop :=
  ∀ (s : State) (c : Word),
    (s.status.busy = false → step (s.atTurn (.host (.write .word 0x010 c))) = .next { s with
      cmd := c, pending := true, status := { s.status with busy := true, done := false } }) ∧
    (s.status.busy = true → step (s.atTurn (.host (.write .word 0x010 c))) = .next { s with
      status := { s.status with ovr := true } })

/-- R460: while BUSY = 1 a word access is HOST_HAZARD unless it reads ID, VERSION, CTRL, STATUS or CMD, or writes STATUS,
CMD or CTRL with SRST = 0; those go on. That a reserved address is a hazard too is the model's reading of R460's "only"
(assumption 7), and that the hazard is the fault reported of an unwritten word, whose read R60 makes UNINIT_READ, is the
model's choice (assumption 21). -/
def Obligations.BusyHostAccessesAreHazards : Prop :=
  ∀ (s : State) (a : BusAddr) (w : Word), s.status.busy = true → a.toNat % 4 = 0 →
    (a.toNat ∈ [0x000, 0x004, 0x008, 0x00C, 0x010] → ∃ t, step (s.atTurn (.host (.read .word a))) = .next t) ∧
    (a.toNat ∉ [0x000, 0x004, 0x008, 0x00C, 0x010] →
      step (s.atTurn (.host (.read .word a))) = .fault (.hostHazard a.toNat)) ∧
    (a.toNat ∈ [0x00C, 0x010] ∨ (a.toNat = 0x008 ∧ w.getLsbD 1 = false) →
      ∃ t, step (s.atTurn (.host (.write .word a w))) = .next t) ∧
    (a.toNat ∉ [0x00C, 0x010] → (a.toNat ≠ 0x008 ∨ w.getLsbD 1 = true) →
      step (s.atTurn (.host (.write .word a w))) = .fault (.hostHazard a.toNat))

/-- R106: a byte, halfword or misaligned access has no step: the host is stuck. That a stuck host is the named fault
hostStuck, whatever BUSY is, is the model's (assumption 8). -/
def Obligations.UnsupportedAccessesStickTheHost : Prop :=
  ∀ (s : State) (z : AccessSize) (a : BusAddr) (w : Word), z ≠ .word ∨ a.toNat % 4 ≠ 0 →
    step (s.atTurn (.host (.read z a))) = .fault (.hostStuck a.toNat) ∧
    step (s.atTurn (.host (.write z a w))) = .fault (.hostStuck a.toNat)

/-- R450, R451: the RST input, and a soft reset while idle whatever IE the write carries, give every register its reset
value, make the engine idle and the IRQ low; the first leaves every memory word unwritten, the second keeps the memories
and their written marks. -/
def Obligations.ResetsRestoreTheRegisters : Prop :=
  ∀ (s : State) (w : Word),
    (∃ t, step (s.atTurn .powerOn) = .next t ∧ t.pending = false ∧ t.irq = false ∧
      (∀ r, t.readReg r = State.reset.readReg r) ∧ ∀ a, t.mem.read a = none) ∧
    (s.status.busy = false → w.getLsbD 1 = true →
      ∃ t, step (s.atTurn (.host (.write .word 0x008 w))) = .next t ∧ t.mem = s.mem ∧ t.pending = false ∧
        t.irq = false ∧ ∀ r, t.readReg r = State.reset.readReg r)

/-- R40, R402: STATUS reads as its fields at their places; a write clears DONE, ERR and OVR exactly where the written bit
is 1, and changes nothing else. -/
def Obligations.StatusBitsClearOnWritingOne : Prop :=
  (∀ s : State, (s.readReg .status).toNat =
    s.status.busy.toNat + 2 * s.status.done.toNat + 4 * s.status.err.toNat + 8 * s.status.ovr.toNat +
      16 * s.status.tblv.toNat + 0x10000 * s.status.lastop.toNat +
      0x100 * (match s.status.errcode with
        | .ok => 0 | .illegal => 1 | .param => 2 | .emptyFreq => 3 | .noTable => 4 | .emptyCb => 5 | .width => 6
        | .range => 7 | .capacity => 8)) ∧
  ∀ (s : State) (w : Word), ∃ t, step (s.atTurn (.host (.write .word 0x00C w))) = .next t ∧
    t.readReg .status = s.readReg .status &&& ~~~ (w &&& 0x0000000E) ∧
    s.readReg .status &&& 0xFF0000E0 = 0 ∧
    t = { s with status := { s.status with done := t.status.done, err := t.status.err, ovr := t.status.ovr } }

/-- R32: a write of x to LENk stores min(x, 16384), and reads back so. -/
def Obligations.LenWriteStoresAtMostTheCapacity : Prop :=
  ∀ (s : State) (b : BufId) (x : Word), s.status.busy = false →
    ∃ t, step (s.atTurn (hostWr (.len b) x)) = .next t ∧ t.bufLen b = min x.toNat 16384 ∧
      (t.readReg (.len b)).toNat = min x.toNat 16384 ∧
      (∀ r, r ≠ .len b → t.readReg r = s.readReg r) ∧ t.mem = s.mem

/-- R48, R57, R107: a write of a configuration register stores the listed bits, legal or not, and changes no other
register, but for SEED, which also sets DRAWCNT to 0; no memory word changes. -/
def Obligations.ConfigWriteStoresListedBits : Prop :=
  ∀ (s : State) (r : Reg) (mask x : Word), s.status.busy = false → r.storedBits = some mask →
    ∃ t, step (s.atTurn (hostWr r x)) = .next t ∧ t.readReg r = x &&& mask ∧
      (∀ q, q ≠ r → q ≠ .drawcnt → t.readReg q = s.readReg q) ∧
      t.readReg .drawcnt = (if r = .seed then 0 else s.readReg .drawcnt) ∧ t.mem = s.mem

/-- R53, R101, R102: a reserved address reads 0 and ignores writes; a read-only register and a word of a read-only window
(CODE, TRIE) ignore writes. -/
def Obligations.ReservedAndReadOnlyPlacesIgnoreWrites : Prop :=
  ∀ (s : State) (a : BusAddr) (w : Word), s.status.busy = false → a.toNat % 4 = 0 →
    ((∀ r : Reg, r.addr ≠ a.toNat) → windowAt a.toNat = none →
      step (s.atTurn (.host (.read .word a))) = .next { s with rdata := 0 } ∧
      step (s.atTurn (.host (.write .word a w))) = .next s) ∧
    (a.toNat ∈ [0x000, 0x004, 0x014, 0x054, 0x07C, 0x088, 0x08C, 0x090, 0x094, 0x098, 0x09C, 0x0A0, 0x0A4] ∨
      (0x02000 ≤ a.toNat ∧ a.toNat < 0x027FC) ∨ (0x10000 ≤ a.toNat ∧ a.toNat < 0x14000) →
      step (s.atTurn (.host (.write .word a w))) = .next s)

/-- R107, R460: a host read changes nothing but the data it returns: the register's value (of ID, VERSION, CTRL, STATUS
and CMD also while BUSY = 1), the written memory word, and UNINIT_READ on an unwritten one (R60). -/
def Obligations.HostReadsHaveNoSideEffects : Prop :=
  ∀ (s : State) (a : BusAddr), a.toNat % 4 = 0 →
    (∀ r : Reg, r.addr = a.toNat → s.status.busy = false ∨ r ∈ [.id, .version, .ctrl, .status, .cmd] →
      step (s.atTurn (.host (.read .word a))) = .next { s with rdata := s.readReg r }) ∧
    (s.status.busy = false →
      (∀ v w, windowAt a.toNat = some v → s.mem.read a.toNat = some w →
        step (s.atTurn (.host (.read .word a))) = .next { s with rdata := w }) ∧
      (∀ v, windowAt a.toNat = some v → s.mem.read a.toNat = none →
        step (s.atTurn (.host (.read .word a))) = .fault (.uninitRead a.toNat)))

/-- R101, R103, R54, R58, R59: an idle host write of a word of FREQ, SYM, CB (low or high) or a buffer window sets that
word, so that it reads w, and changes nothing else. Of a buffer's window word m it sets the 32 cells, cell 32m the most
significant bit, and not the length. -/
def Obligations.WindowWriteSetsCells : Prop :=
  ∀ (s : State) (a : BusAddr) (w : Word), s.status.busy = false → a.toNat % 4 = 0 →
    (0x01000 ≤ a.toNat ∧ a.toNat < 0x01400) ∨ (0x04000 ≤ a.toNat ∧ a.toNat < 0x05000) ∨
      (0x08000 ≤ a.toNat ∧ a.toNat < 0x0A000) ∨ (0x20000 ≤ a.toNat ∧ a.toNat < 0x22000) →
    ∃ t, step (s.atTurn (.host (.write .word a w))) = .next t ∧ t.mem.read a.toNat = some w ∧
      (∀ b, b < a.toNat ∨ a.toNat + 4 ≤ b → t.mem.read b = s.mem.read b) ∧ t = { s with mem := t.mem } ∧
      ∀ (b : BufId) (m : Nat), m < 512 → a.toNat = 0x20000 + 0x800 * b.field + 4 * m →
        ∀ v i, t.buf b = .ok v → i < 32 → 32 * m + i < t.bufLen b → v[32 * m + i]? = some (w.getLsbD (31 - i))

/-- R410: IRQ is STATUS.DONE AND CTRL.IE: at a completion it is IE; it falls when the host clears DONE or IE, when the
next command is accepted, and at a soft or power-on reset. A CTRL write with SRST = 0, idle or busy, sets IE to its bit 0
and changes nothing else (R46, R460). -/
def Obligations.IrqRisesAtCompletionAndFalls : Prop :=
  ∀ s t : State,
    s.irq = ((s.readReg .status).getLsbD 1 && (s.readReg .ctrl).getLsbD 0) ∧
    (∀ i, exec i s = .next t → t.irq = s.ie) ∧
    (∀ w, w.getLsbD 1 = true → step (s.atTurn (.host (.write .word 0x00C w))) = .next t → t.irq = false) ∧
    (∀ w, w.getLsbD 0 = false ∨ w.getLsbD 1 = true →
      step (s.atTurn (.host (.write .word 0x008 w))) = .next t → t.irq = false) ∧
    (∀ c, s.status.busy = false → step (s.atTurn (.host (.write .word 0x010 c))) = .next t → t.irq = false) ∧
    (step (s.atTurn .powerOn) = .next t → t.irq = false) ∧
    ∀ w, w.getLsbD 1 = false →
      step (s.atTurn (.host (.write .word 0x008 w))) = .next { s with ie := w.getLsbD 0 }
end

