-- ==== Sys2Proof/Laws/Bits.lean ====
section
/-! SUPPORT. Bit vectors: val and bits_W are inverse, packing into words and unpacking give the vector back, chunks. -/

namespace Sys2Proof.Machine

@[simp] theorem length_bitsOf (w x : Nat) : (bitsOf w x).length = w := by
  induction w with
  | zero => rfl
  | succ w ih => simp [bitsOf, ih]

@[simp] theorem bitsOf_zero (x : Nat) : bitsOf 0 x = [] := rfl

theorem val_bitsOf (w x : Nat) : val (bitsOf w x) = x % 2 ^ w := by
  induction w with
  | zero => simp [bitsOf, val, Nat.mod_one]
  | succ w ih =>
    have h : x % 2 ^ (w + 1) = (x.testBit w).toNat * 2 ^ w + x % 2 ^ w := by
      rw [Nat.pow_succ, Nat.mod_mul, Nat.testBit_eq_decide_div_mod_eq]
      rcases Nat.mod_two_eq_zero_or_one (x / 2 ^ w) with h | h
      · simp [h]
      · simp [h]; omega
    simp [bitsOf, val, ih, h]

theorem val_lt (v : Bits) : val v < 2 ^ v.length := by
  induction v with
  | nil => simp [val]
  | cons b v ih => cases b <;> simp [val, Nat.pow_succ] <;> omega

theorem val_append (u v : Bits) : val (u ++ v) = val u * 2 ^ v.length + val v := by
  induction u with
  | nil => simp [val]
  | cons b u ih => simp [val, ih, Nat.pow_add, Nat.add_mul, Nat.mul_assoc, Nat.add_assoc]

@[simp] theorem val_zeros (n : Nat) : val (zeros n) = 0 := by
  induction n with
  | zero => rfl
  | succ n ih => simpa [zeros, List.replicate_succ, val] using ih

theorem bitsOf_mod (w x : Nat) : bitsOf w (x % 2 ^ w) = bitsOf w x := by
  have key : ∀ k, k ≤ w → bitsOf k (x % 2 ^ w) = bitsOf k x := by
    intro k
    induction k with
    | zero => intro; rfl
    | succ k ih =>
      intro hk
      simp [bitsOf, ih (by omega), Nat.testBit_mod_two_pow, show k < w by omega]
  exact key w (Nat.le_refl w)

theorem bitsOf_val (v : Bits) : bitsOf v.length (val v) = v := by
  induction v with
  | nil => rfl
  | cons b v ih =>
    have hv := val_lt v
    have hb : (val (b :: v)).testBit v.length = b := by
      rw [Nat.testBit_eq_decide_div_mod_eq]
      have : val (b :: v) / 2 ^ v.length = b.toNat := by
        rw [val, Nat.mul_comm, Nat.mul_add_div (Nat.two_pow_pos _), Nat.div_eq_of_lt hv, Nat.add_zero]
      rw [this]
      cases b <;> simp
    have ht : bitsOf v.length (val (b :: v)) = v := by
      rw [← bitsOf_mod, val, Nat.mul_comm, Nat.mul_add_mod, Nat.mod_eq_of_lt hv, ih]
    simp only [List.length_cons, bitsOf, hb, ht]

theorem val_injective {u v : Bits} (hl : u.length = v.length) (h : val u = val v) : u = v := by
  rw [← bitsOf_val u, ← bitsOf_val v, hl, h]

@[simp] theorem length_zeros (n : Nat) : (zeros n).length = n := by simp [zeros]

@[simp] theorem length_wordBits (w : Word) : (wordBits w).length = 32 := by simp [wordBits]

/-- A word built from at most 32 cells holds them first, and zeros after (R103, R104). -/
theorem wordBits_wordOfBits (v : Bits) (h : v.length ≤ 32) :
    wordBits (wordOfBits v) = v ++ zeros (32 - v.length) := by
  have hlt : val v * 2 ^ (32 - v.length) < 2 ^ 32 := by
    have h1 := val_lt v
    calc val v * 2 ^ (32 - v.length) < 2 ^ v.length * 2 ^ (32 - v.length) :=
          Nat.mul_lt_mul_of_pos_right h1 (Nat.two_pow_pos _)
      _ = 2 ^ 32 := by rw [← Nat.pow_add]; congr 1; omega
  have hval : val (v ++ zeros (32 - v.length)) = val v * 2 ^ (32 - v.length) := by
    rw [val_append]; simp
  have hlen : (v ++ zeros (32 - v.length)).length = 32 := by simp; omega
  unfold wordBits wordOfBits
  rw [BitVec.toNat_ofNat, Nat.mod_eq_of_lt hlt, ← hval]
  have := bitsOf_val (v ++ zeros (32 - v.length))
  rwa [hlen] at this

@[simp] theorem length_packWords (n : Nat) (v : Bits) : (packWords n v).length = n := by
  induction n generalizing v with
  | zero => rfl
  | succ n ih => simp [packWords, ih]

/-- Window word m of a packed vector holds its cells 32m..32m+31, zero-filled (R103, R104). -/
theorem getElem?_packWords (n m : Nat) (v : Bits) (h : m < n) :
    (packWords n v)[m]? = some (wordOfBits ((v.drop (32 * m)).take 32)) := by
  induction n generalizing v m with
  | zero => omega
  | succ n ih =>
    cases m with
    | zero => simp [packWords]
    | succ m =>
      simp only [packWords, List.getElem?_cons_succ]
      rw [ih m (v.drop 32) (by omega), List.drop_drop]
      congr 4; omega

@[simp] theorem unpackWords_nil : unpackWords [] = [] := rfl
@[simp] theorem unpackWords_cons (w : Word) (ws : List Word) :
    unpackWords (w :: ws) = wordBits w ++ unpackWords ws := rfl

@[simp] theorem length_unpackWords (ws : List Word) : (unpackWords ws).length = 32 * ws.length := by
  induction ws with
  | nil => rfl
  | cons w ws ih => simp [ih]; omega

/-- Packing then unpacking gives the vector followed by zeros (R104). -/
theorem unpackWords_packWords (n : Nat) (v : Bits) (h : v.length ≤ 32 * n) :
    unpackWords (packWords n v) = v ++ zeros (32 * n - v.length) := by
  induction n generalizing v with
  | zero =>
    have : v = [] := List.eq_nil_of_length_eq_zero (by omega)
    subst this; rfl
  | succ n ih =>
    have hd : (v.drop 32).length ≤ 32 * n := by simp; omega
    simp only [packWords, unpackWords_cons]
    rw [ih _ hd, wordBits_wordOfBits _ (by simp)]
    by_cases hv : 32 ≤ v.length
    · have h1 : (v.take 32).length = 32 := by simp; omega
      rw [h1]
      simp only [Nat.sub_self, zeros, List.replicate_zero, List.append_nil]
      rw [← List.append_assoc, List.take_append_drop]
      congr 2
      rw [List.length_drop]; omega
    · have h1 : v.take 32 = v := List.take_of_length_le (by omega)
      have h2 : v.drop 32 = [] := List.drop_eq_nil_of_le (by omega)
      rw [h1, h2]
      simp only [zeros, List.nil_append, List.append_assoc, List.length_nil, List.replicate_append_replicate]
      congr 2; omega

/-- A prefix of the packed words gives the vector back when it holds all its cells. -/
theorem take_unpackWords_packWords (n m : Nat) (v : Bits) (hn : m ≤ n) (h : v.length ≤ 32 * m) :
    (unpackWords ((packWords n v).take m)).take v.length = v := by
  have hpre : unpackWords ((packWords n v).take m) = (unpackWords (packWords n v)).take (32 * m) := by
    have key : ∀ (ws : List Word) (k : Nat), unpackWords (ws.take k) = (unpackWords ws).take (32 * k) := by
      intro ws
      induction ws with
      | nil => simp
      | cons w ws ih =>
        intro k
        cases k with
        | zero => simp
        | succ k =>
          simp only [List.take_succ_cons, unpackWords_cons, ih]
          rw [List.take_append, length_wordBits]
          rw [List.take_of_length_le (l := wordBits w) (by simp)]
          congr 2
    exact key _ _
  rw [hpre, unpackWords_packWords n v (by omega), List.take_take, List.take_append_of_le_length (by omega)]
  exact List.take_of_length_le (by omega)

theorem length_slice (v : Bits) (i j : Nat) (h : j ≤ v.length) : (slice v i j).length = j - i := by
  simp [slice]; omega

@[simp] theorem length_chunks (w m : Nat) (v : Bits) : (chunks w m v).length = m := by
  induction m generalizing v with
  | zero => rfl
  | succ m ih => simp [chunks, ih]

theorem getElem?_chunks (w m j : Nat) (v : Bits) (h : j < m) :
    (chunks w m v)[j]? = some (slice v (j * w) ((j + 1) * w)) := by
  induction m generalizing v j with
  | zero => omega
  | succ m ih =>
    cases j with
    | zero => simp [chunks, slice]
    | succ j =>
      have h1 : w + j * w = (j + 1) * w := by rw [Nat.add_mul]; omega
      have h2 : (j + 1) * w - j * w = (j + 1 + 1) * w - (j + 1) * w := by simp [Nat.add_mul]
      simp only [chunks, List.getElem?_cons_succ, ih j (v.drop w) (by omega), slice, List.drop_drop, h1, h2]

/-- Cutting a concatenation of equal pieces gives the pieces back. -/
theorem chunks_flatten (w : Nat) (ps : List Bits) (h : ∀ p ∈ ps, p.length = w) :
    chunks w ps.length ps.flatten = ps := by
  induction ps with
  | nil => rfl
  | cons p ps ih =>
    have hp : p.length = w := h p (by simp)
    have ht := ih (fun q hq => h q (by simp [hq]))
    simp only [List.length_cons, List.flatten_cons, chunks]
    rw [List.take_append_of_le_length (by omega), List.take_of_length_le (by omega),
      List.drop_append_of_le_length (by omega), List.drop_of_length_le (by omega), List.nil_append, ht]

theorem length_flatten_of_pieces (w : Nat) (ps : List Bits) (h : ∀ p ∈ ps, p.length = w) :
    ps.flatten.length = ps.length * w := by
  induction ps with
  | nil => simp
  | cons p ps ih =>
    simp [ih (fun q hq => h q (by simp [hq])), h p (by simp), Nat.add_mul, Nat.add_comm]

/-- Bit i of bits_W(x), counted from the most significant. -/
theorem getElem?_bitsOf (w x i : Nat) (h : i < w) : (bitsOf w x)[i]? = some (x.testBit (w - 1 - i)) := by
  induction w generalizing i with
  | zero => omega
  | succ w ih =>
    cases i with
    | zero => rfl
    | succ i =>
      simp only [bitsOf, List.getElem?_cons_succ]
      rw [ih i (by omega)]
      congr 2; omega

/-- Cell 32m + i of consecutive window words is bit 31 - i of word m (R103). -/
theorem getElem?_unpackWords (ws : List Word) (m i : Nat) (w : Word) (hw : ws[m]? = some w) (hi : i < 32) :
    (unpackWords ws)[32 * m + i]? = some (w.getLsbD (31 - i)) := by
  induction ws generalizing m with
  | nil => simp at hw
  | cons x ws ih =>
    cases m with
    | zero =>
      simp at hw
      subst hw
      rw [unpackWords_cons, List.getElem?_append_left (by simpa using hi), Nat.mul_zero, Nat.zero_add, wordBits,
        getElem?_bitsOf _ _ _ hi]
      rfl
    | succ m =>
      rw [unpackWords_cons, List.getElem?_append_right (by simp; omega), length_wordBits,
        show 32 * (m + 1) + i - 32 = 32 * m + i by omega]
      exact ih m (by simpa using hw)

end Sys2Proof.Machine
end

