-- ==== Sys2Proof/Laws/Memory.lean ====
section
/-! SUPPORT. The memory laws: a read after a write, a write leaves every other word alone, every memory operation keeps
the canonical form. -/

namespace Sys2Proof.Machine

theorem mem_cellsAt {a : Nat} {ws : List Word} {c : MemCell} (h : c ∈ cellsAt a ws) :
    a ≤ c.1 ∧ c.1 < a + 4 * ws.length ∧ c.1 % 4 = a % 4 := by
  induction ws generalizing a with
  | nil => simp [cellsAt] at h
  | cons w ws ih =>
    rcases List.mem_cons.mp h with rfl | h
    · simp
    · have := ih h
      simp only [List.length_cons]
      omega

theorem Memory.read_cons (c : MemCell) (m : Memory) (a : Nat) :
    Memory.read (c :: m) a = if a = c.1 then some c.2 else Memory.read m a := by
  obtain ⟨k, w⟩ := c
  by_cases h : a = k
  · simp [Memory.read, h]
  · simp [Memory.read, List.lookup_cons, beq_eq_false_iff_ne.mpr h, h]

theorem lookup_filter (p : Nat → Bool) (m : Memory) (a : Nat) :
    (m.filter (fun c => p c.1)).lookup a = if p a then m.lookup a else none := by
  induction m with
  | nil => simp
  | cons c m ih =>
    obtain ⟨k, w⟩ := c
    by_cases hk : a = k
    · subst hk
      by_cases hp : p a = true
      · simp [hp]
      · simp [hp, ih]
    · by_cases hp : p k = true
      · simp [hp, List.lookup_cons, beq_eq_false_iff_ne.mpr hk, ih]
      · simp [hp, List.lookup_cons, beq_eq_false_iff_ne.mpr hk, ih]

theorem lookup_none_of_outside {cells : List MemCell} {lo hi a : Nat}
    (hc : ∀ c ∈ cells, lo ≤ c.1 ∧ c.1 < hi) (h : a < lo ∨ hi ≤ a) : cells.lookup a = none := by
  induction cells with
  | nil => rfl
  | cons c cells ih =>
    have h1 := hc c (by simp)
    have hne : a ≠ c.1 := by omega
    obtain ⟨k, w⟩ := c
    simp only at hne
    simp [List.lookup_cons, beq_eq_false_iff_ne.mpr hne, ih (fun d hd => hc d (by simp [hd]))]

/-- Inside the replaced range only the new cells are read, outside it only the old ones. -/
theorem Memory.read_replace (m : Memory) (lo hi : Nat) (cells : List MemCell)
    (hc : ∀ c ∈ cells, lo ≤ c.1 ∧ c.1 < hi) (a : Nat) :
    (m.replace lo hi cells).read a = if lo ≤ a ∧ a < hi then cells.lookup a else m.read a := by
  have h1 := lookup_filter (fun k => decide (k < lo)) m a
  have h2 := lookup_filter (fun k => decide (hi ≤ k)) m a
  unfold Memory.read Memory.replace
  rw [List.lookup_append, List.lookup_append, h1, h2]
  by_cases hin : lo ≤ a ∧ a < hi
  · have h3 : ¬ a < lo := by omega
    have h4 : ¬ hi ≤ a := by omega
    simp [hin, h3, h4]
  · have hl := lookup_none_of_outside hc (a := a) (by omega)
    rw [if_neg hin, hl]
    by_cases h3 : a < lo
    · by_cases h4 : hi ≤ a
      · simp [h3, h4]
      · simp [h3, h4]
    · have h4 : hi ≤ a := by omega
      simp [h3, h4]

theorem lookup_cellsAt (a j : Nat) (ws : List Word) : (cellsAt a ws).lookup (a + 4 * j) = ws[j]? := by
  induction ws generalizing a j with
  | nil => rfl
  | cons w ws ih =>
    cases j with
    | zero => simp [cellsAt]
    | succ j =>
      have hne : (a + 4 * (j + 1) == a) = false := beq_eq_false_iff_ne.mpr (by omega)
      have := ih (a + 4) j
      rw [show a + 4 + 4 * j = a + 4 * (j + 1) by omega] at this
      simp [cellsAt, List.lookup_cons, hne, this]

theorem lookup_cellsAt_of_unaligned (a b : Nat) (ws : List Word) (h : b % 4 ≠ a % 4) :
    (cellsAt a ws).lookup b = none := by
  induction ws generalizing a with
  | nil => rfl
  | cons w ws ih =>
    have hne : (b == a) = false := beq_eq_false_iff_ne.mpr (by rintro rfl; exact h rfl)
    simp [cellsAt, List.lookup_cons, hne, ih (a + 4) (by omega)]

theorem cellsAt_bounds (a : Nat) (ws : List Word) :
    ∀ c ∈ cellsAt a ws, a ≤ c.1 ∧ c.1 < a + 4 * ws.length :=
  fun _ h => ⟨(mem_cellsAt h).1, (mem_cellsAt h).2.1⟩

/-- A read of a word just written gives the word. -/
theorem Memory.read_writeWords_inside (m : Memory) (a j : Nat) (ws : List Word) (h : j < ws.length) :
    (m.writeWords a ws).read (a + 4 * j) = ws[j]? := by
  unfold Memory.writeWords
  rw [Memory.read_replace _ _ _ _ (cellsAt_bounds a ws), if_pos (by omega), lookup_cellsAt]

/-- A write of words leaves every word outside their range alone. -/
theorem Memory.read_writeWords_outside (m : Memory) (a b : Nat) (ws : List Word)
    (h : b < a ∨ a + 4 * ws.length ≤ b) : (m.writeWords a ws).read b = m.read b := by
  unfold Memory.writeWords
  rw [Memory.read_replace _ _ _ _ (cellsAt_bounds a ws), if_neg (by omega)]

theorem cellsAt_sorted (a : Nat) (ws : List Word) : (cellsAt a ws).Pairwise (fun c d => c.1 < d.1) := by
  induction ws generalizing a with
  | nil => exact List.Pairwise.nil
  | cons w ws ih =>
    refine List.Pairwise.cons (fun c hc => ?_) (ih (a + 4))
    have := (mem_cellsAt hc).1
    simp only
    omega

/-- Replacing a range by rising cells that lie in it and name memory words keeps the canonical form. -/
theorem Memory.wf_replace {m : Memory} {lo hi : Nat} {cells : List MemCell} (hm : m.wf) (hle : lo ≤ hi)
    (hs : cells.Pairwise (fun c d => c.1 < d.1)) (hc : ∀ c ∈ cells, lo ≤ c.1 ∧ c.1 < hi)
    (hw : ∀ c ∈ cells, c.1 % 4 = 0 ∧ windowAt c.1 ≠ none) : (m.replace lo hi cells).wf := by
  obtain ⟨hp, ha⟩ := hm
  refine ⟨?_, ?_⟩
  · unfold Memory.replace
    rw [List.pairwise_append, List.pairwise_append]
    refine ⟨⟨hp.filter _, hs, ?_⟩, hp.filter _, ?_⟩
    · intro c h1 d h2
      have := hc d h2
      simp only [List.mem_filter, decide_eq_true_eq] at h1
      omega
    · intro c h1 d h2
      simp only [List.mem_append, List.mem_filter, decide_eq_true_eq] at h1 h2
      rcases h1 with h1 | h1
      · omega
      · have := hc c h1; omega
  · intro c h
    simp only [Memory.replace, List.mem_append, List.mem_filter] at h
    rcases h with (h | h) | h
    · exact ha c h.1
    · exact hw c h
    · exact ha c h.1

/-- Writing words whose addresses name memory words keeps the canonical form. -/
theorem Memory.wf_writeWords {m : Memory} {a : Nat} {ws : List Word} (hm : m.wf) (h4 : a % 4 = 0)
    (hw : ∀ b, a ≤ b → b < a + 4 * ws.length → b % 4 = 0 → windowAt b ≠ none) : (m.writeWords a ws).wf := by
  refine Memory.wf_replace hm (by omega) (cellsAt_sorted a ws) (cellsAt_bounds a ws) (fun c hc => ?_)
  have h := mem_cellsAt hc
  exact ⟨by omega, hw c.1 h.1 h.2.1 (by omega)⟩

@[simp] theorem Memory.read_nil (a : Nat) : Memory.read [] a = none := rfl

/-- A memory in canonical form holds no word at an address that names none. -/
theorem Memory.read_none_of_no_window {m : Memory} {a : Nat} (hm : m.wf) (h : windowAt a = none) :
    m.read a = none := by
  obtain ⟨_, ha⟩ := hm
  unfold Memory.read
  rw [List.lookup_eq_none_iff]
  intro c hc
  have := (ha c hc).2
  rw [bne_iff_ne]
  rintro rfl
  exact this h

/-- Below its rising addresses a memory reads nothing. -/
theorem Memory.read_below {m : Memory} {k a : Nat} (h : ∀ c ∈ m, k < c.1) (ha : a ≤ k) : m.read a = none := by
  unfold Memory.read
  rw [List.lookup_eq_none_iff]
  intro c hc
  have := h c hc
  exact bne_iff_ne.mpr (by omega)

/-- Two memories in canonical form that read alike are the same data. -/
theorem Memory.eq_of_read_eq {m m' : Memory} (hm : m.wf) (hm' : m'.wf) (h : ∀ a, m.read a = m'.read a) : m = m' := by
  obtain ⟨hp, -⟩ := hm
  obtain ⟨hp', -⟩ := hm'
  induction m generalizing m' with
  | nil =>
    cases m' with
    | nil => rfl
    | cons c m' => have := h c.1; simp [Memory.read_cons] at this
  | cons c m ih =>
    cases m' with
    | nil => have := h c.1; simp [Memory.read_cons] at this
    | cons d m' =>
      have hc := (List.pairwise_cons.mp hp).1
      have hd := (List.pairwise_cons.mp hp').1
      have hkey : c.1 = d.1 := by
        rcases Nat.lt_trichotomy c.1 d.1 with hlt | heq | hgt
        · have h1 := h c.1
          rw [Memory.read_cons, Memory.read_cons, if_pos rfl, if_neg (by omega),
            Memory.read_below hd (by omega)] at h1
          cases h1
        · exact heq
        · have h1 := h d.1
          rw [Memory.read_cons, Memory.read_cons, if_neg (by omega), if_pos rfl,
            Memory.read_below hc (by omega)] at h1
          cases h1
      have hval : c.2 = d.2 := by
        have h1 := h c.1
        rw [Memory.read_cons, Memory.read_cons, if_pos rfl, if_pos hkey] at h1
        exact Option.some.inj h1
      have hcd : c = d := Prod.ext hkey hval
      subst hcd
      congr 1
      refine ih (fun a => ?_) (List.pairwise_cons.mp hp).2 (List.pairwise_cons.mp hp').2
      by_cases ha : a = c.1
      · rw [Memory.read_below hc (by omega), Memory.read_below hd (by omega)]
      · have h1 := h a
        rwa [Memory.read_cons, Memory.read_cons, if_neg ha, if_neg ha] at h1

end Sys2Proof.Machine
end

