-- ==== Sys2Proof/Laws/State.lean ====
section
/-! SUPPORT. One lemma per field of State per update of State, so that no proof unfolds a record update. -/

namespace Sys2Proof.Machine

variable (s : State)

/-! ## completeOk -/

@[simp] theorem State.completeOk_status : s.completeOk.status = s.status.completed s.latchedOpc .ok := rfl
@[simp] theorem State.completeOk_ie : s.completeOk.ie = s.ie := rfl
@[simp] theorem State.completeOk_cmd : s.completeOk.cmd = s.cmd := rfl
@[simp] theorem State.completeOk_pending : s.completeOk.pending = false := rfl
@[simp] theorem State.completeOk_errinfo : s.completeOk.errinfo = s.errinfo := rfl
@[simp] theorem State.completeOk_lens : s.completeOk.lens = s.lens := rfl
@[simp] theorem State.completeOk_cfg : s.completeOk.cfg = s.cfg := rfl
@[simp] theorem State.completeOk_drawIdx : s.completeOk.drawIdx = s.drawIdx := rfl
@[simp] theorem State.completeOk_res : s.completeOk.res = s.res := rfl
@[simp] theorem State.completeOk_mem : s.completeOk.mem = s.mem := rfl
@[simp] theorem State.completeOk_agenda : s.completeOk.agenda = s.agenda := rfl
@[simp] theorem State.completeOk_rdata : s.completeOk.rdata = s.rdata := rfl

/-! ## raiseError -/

@[simp] theorem State.raiseError_status (c : ErrCode) (n : Nat) :
    (s.raiseError c n).status = s.status.completed s.latchedOpc c := rfl
@[simp] theorem State.raiseError_ie (c : ErrCode) (n : Nat) : (s.raiseError c n).ie = s.ie := rfl
@[simp] theorem State.raiseError_cmd (c : ErrCode) (n : Nat) : (s.raiseError c n).cmd = s.cmd := rfl
@[simp] theorem State.raiseError_pending (c : ErrCode) (n : Nat) : (s.raiseError c n).pending = false := rfl
@[simp] theorem State.raiseError_errinfo (c : ErrCode) (n : Nat) : (s.raiseError c n).errinfo = saturate n := rfl
@[simp] theorem State.raiseError_lens (c : ErrCode) (n : Nat) : (s.raiseError c n).lens = s.lens := rfl
@[simp] theorem State.raiseError_cfg (c : ErrCode) (n : Nat) : (s.raiseError c n).cfg = s.cfg := rfl
@[simp] theorem State.raiseError_drawIdx (c : ErrCode) (n : Nat) : (s.raiseError c n).drawIdx = s.drawIdx := rfl
@[simp] theorem State.raiseError_res (c : ErrCode) (n : Nat) : (s.raiseError c n).res = s.res := rfl
@[simp] theorem State.raiseError_mem (c : ErrCode) (n : Nat) : (s.raiseError c n).mem = s.mem := rfl
@[simp] theorem State.raiseError_agenda (c : ErrCode) (n : Nat) : (s.raiseError c n).agenda = s.agenda := rfl
@[simp] theorem State.raiseError_rdata (c : ErrCode) (n : Nat) : (s.raiseError c n).rdata = s.rdata := rfl

/-! ## writeWords -/

@[simp] theorem State.writeWords_status (a : Nat) (ws : List Word) : (s.writeWords a ws).status = s.status := rfl
@[simp] theorem State.writeWords_ie (a : Nat) (ws : List Word) : (s.writeWords a ws).ie = s.ie := rfl
@[simp] theorem State.writeWords_cmd (a : Nat) (ws : List Word) : (s.writeWords a ws).cmd = s.cmd := rfl
@[simp] theorem State.writeWords_pending (a : Nat) (ws : List Word) : (s.writeWords a ws).pending = s.pending := rfl
@[simp] theorem State.writeWords_errinfo (a : Nat) (ws : List Word) : (s.writeWords a ws).errinfo = s.errinfo := rfl
@[simp] theorem State.writeWords_lens (a : Nat) (ws : List Word) : (s.writeWords a ws).lens = s.lens := rfl
@[simp] theorem State.writeWords_cfg (a : Nat) (ws : List Word) : (s.writeWords a ws).cfg = s.cfg := rfl
@[simp] theorem State.writeWords_drawIdx (a : Nat) (ws : List Word) : (s.writeWords a ws).drawIdx = s.drawIdx := rfl
@[simp] theorem State.writeWords_res (a : Nat) (ws : List Word) : (s.writeWords a ws).res = s.res := rfl
@[simp] theorem State.writeWords_mem (a : Nat) (ws : List Word) :
    (s.writeWords a ws).mem = s.mem.writeWords a ws := rfl
@[simp] theorem State.writeWords_agenda (a : Nat) (ws : List Word) : (s.writeWords a ws).agenda = s.agenda := rfl
@[simp] theorem State.writeWords_rdata (a : Nat) (ws : List Word) : (s.writeWords a ws).rdata = s.rdata := rfl

/-! ## setBuf -/

@[simp] theorem State.setBuf_status (b : BufId) (v : Bits) : (s.setBuf b v).status = s.status := rfl
@[simp] theorem State.setBuf_ie (b : BufId) (v : Bits) : (s.setBuf b v).ie = s.ie := rfl
@[simp] theorem State.setBuf_cmd (b : BufId) (v : Bits) : (s.setBuf b v).cmd = s.cmd := rfl
@[simp] theorem State.setBuf_pending (b : BufId) (v : Bits) : (s.setBuf b v).pending = s.pending := rfl
@[simp] theorem State.setBuf_errinfo (b : BufId) (v : Bits) : (s.setBuf b v).errinfo = s.errinfo := rfl
@[simp] theorem State.setBuf_lens (b : BufId) (v : Bits) :
    (s.setBuf b v).lens = s.lens.set b (clampLen v.length) := rfl
@[simp] theorem State.setBuf_cfg (b : BufId) (v : Bits) : (s.setBuf b v).cfg = s.cfg := rfl
@[simp] theorem State.setBuf_drawIdx (b : BufId) (v : Bits) : (s.setBuf b v).drawIdx = s.drawIdx := rfl
@[simp] theorem State.setBuf_res (b : BufId) (v : Bits) : (s.setBuf b v).res = s.res := rfl
@[simp] theorem State.setBuf_mem (b : BufId) (v : Bits) :
    (s.setBuf b v).mem = s.mem.writeWords (bufAddr b 0) (packWords Config.bufWords v) := rfl
@[simp] theorem State.setBuf_agenda (b : BufId) (v : Bits) : (s.setBuf b v).agenda = s.agenda := rfl
@[simp] theorem State.setBuf_rdata (b : BufId) (v : Bits) : (s.setBuf b v).rdata = s.rdata := rfl

/-! ## setUnpacked -/

@[simp] theorem State.setUnpacked_status (x off : Nat) : (s.setUnpacked x off).status = s.status := rfl
@[simp] theorem State.setUnpacked_ie (x off : Nat) : (s.setUnpacked x off).ie = s.ie := rfl
@[simp] theorem State.setUnpacked_cmd (x off : Nat) : (s.setUnpacked x off).cmd = s.cmd := rfl
@[simp] theorem State.setUnpacked_pending (x off : Nat) : (s.setUnpacked x off).pending = s.pending := rfl
@[simp] theorem State.setUnpacked_errinfo (x off : Nat) : (s.setUnpacked x off).errinfo = s.errinfo := rfl
@[simp] theorem State.setUnpacked_lens (x off : Nat) : (s.setUnpacked x off).lens = s.lens := rfl
@[simp] theorem State.setUnpacked_cfg (x off : Nat) :
    (s.setUnpacked x off).cfg = { s.cfg with pkData := BitVec.ofNat 32 x, pkOff := BitVec.ofNat 15 off } := rfl
@[simp] theorem State.setUnpacked_drawIdx (x off : Nat) : (s.setUnpacked x off).drawIdx = s.drawIdx := rfl
@[simp] theorem State.setUnpacked_res (x off : Nat) : (s.setUnpacked x off).res = s.res := rfl
@[simp] theorem State.setUnpacked_mem (x off : Nat) : (s.setUnpacked x off).mem = s.mem := rfl
@[simp] theorem State.setUnpacked_agenda (x off : Nat) : (s.setUnpacked x off).agenda = s.agenda := rfl
@[simp] theorem State.setUnpacked_rdata (x off : Nat) : (s.setUnpacked x off).rdata = s.rdata := rfl

/-! ## setTable -/

@[simp] theorem State.setTable_status (n : Nat) (t : HuffTree) :
    (s.setTable n t).status = { s.status with tblv := true } := rfl
@[simp] theorem State.setTable_ie (n : Nat) (t : HuffTree) : (s.setTable n t).ie = s.ie := rfl
@[simp] theorem State.setTable_cmd (n : Nat) (t : HuffTree) : (s.setTable n t).cmd = s.cmd := rfl
@[simp] theorem State.setTable_pending (n : Nat) (t : HuffTree) : (s.setTable n t).pending = s.pending := rfl
@[simp] theorem State.setTable_errinfo (n : Nat) (t : HuffTree) : (s.setTable n t).errinfo = s.errinfo := rfl
@[simp] theorem State.setTable_lens (n : Nat) (t : HuffTree) : (s.setTable n t).lens = s.lens := rfl
@[simp] theorem State.setTable_cfg (n : Nat) (t : HuffTree) : (s.setTable n t).cfg = s.cfg := rfl
@[simp] theorem State.setTable_drawIdx (n : Nat) (t : HuffTree) : (s.setTable n t).drawIdx = s.drawIdx := rfl
@[simp] theorem State.setTable_res (n : Nat) (t : HuffTree) :
    (s.setTable n t).res = { s.res with
      hbNleaf := BitVec.ofNat 9 n, hbMaxlen := BitVec.ofNat 8 t.maxLen, hbNnode := BitVec.ofNat 9 t.size } := rfl
@[simp] theorem State.setTable_mem (n : Nat) (t : HuffTree) : (s.setTable n t).mem = s.mem.writeTable t := rfl
@[simp] theorem State.setTable_agenda (n : Nat) (t : HuffTree) : (s.setTable n t).agenda = s.agenda := rfl
@[simp] theorem State.setTable_rdata (n : Nat) (t : HuffTree) : (s.setTable n t).rdata = s.rdata := rfl

/-! ## clearTblv -/

@[simp] theorem State.clearTblv_status : s.clearTblv.status = { s.status with tblv := false } := rfl
@[simp] theorem State.clearTblv_ie : s.clearTblv.ie = s.ie := rfl
@[simp] theorem State.clearTblv_cmd : s.clearTblv.cmd = s.cmd := rfl
@[simp] theorem State.clearTblv_pending : s.clearTblv.pending = s.pending := rfl
@[simp] theorem State.clearTblv_errinfo : s.clearTblv.errinfo = s.errinfo := rfl
@[simp] theorem State.clearTblv_lens : s.clearTblv.lens = s.lens := rfl
@[simp] theorem State.clearTblv_cfg : s.clearTblv.cfg = s.cfg := rfl
@[simp] theorem State.clearTblv_drawIdx : s.clearTblv.drawIdx = s.drawIdx := rfl
@[simp] theorem State.clearTblv_res : s.clearTblv.res = s.res := rfl
@[simp] theorem State.clearTblv_mem : s.clearTblv.mem = s.mem := rfl
@[simp] theorem State.clearTblv_agenda : s.clearTblv.agenda = s.agenda := rfl
@[simp] theorem State.clearTblv_rdata : s.clearTblv.rdata = s.rdata := rfl

/-! ## setDecoded -/

@[simp] theorem State.setDecoded_status (k : Walk) : (s.setDecoded k).status = s.status := rfl
@[simp] theorem State.setDecoded_ie (k : Walk) : (s.setDecoded k).ie = s.ie := rfl
@[simp] theorem State.setDecoded_cmd (k : Walk) : (s.setDecoded k).cmd = s.cmd := rfl
@[simp] theorem State.setDecoded_pending (k : Walk) : (s.setDecoded k).pending = s.pending := rfl
@[simp] theorem State.setDecoded_errinfo (k : Walk) : (s.setDecoded k).errinfo = s.errinfo := rfl
@[simp] theorem State.setDecoded_lens (k : Walk) : (s.setDecoded k).lens = s.lens := rfl
@[simp] theorem State.setDecoded_cfg (k : Walk) : (s.setDecoded k).cfg = s.cfg := rfl
@[simp] theorem State.setDecoded_drawIdx (k : Walk) : (s.setDecoded k).drawIdx = s.drawIdx := rfl
@[simp] theorem State.setDecoded_res (k : Walk) :
    (s.setDecoded k).res = { s.res with
      symOutCnt := BitVec.ofNat 11 k.out.length, resid := BitVec.ofNat 16 k.depth, badbit := BitVec.ofNat 16 k.bad } := rfl
@[simp] theorem State.setDecoded_mem (k : Walk) : (s.setDecoded k).mem = s.mem := rfl
@[simp] theorem State.setDecoded_agenda (k : Walk) : (s.setDecoded k).agenda = s.agenda := rfl
@[simp] theorem State.setDecoded_rdata (k : Walk) : (s.setDecoded k).rdata = s.rdata := rfl

/-! ## setFixedDecoded -/

@[simp] theorem State.setFixedDecoded_status (c r : Nat) : (s.setFixedDecoded c r).status = s.status := rfl
@[simp] theorem State.setFixedDecoded_ie (c r : Nat) : (s.setFixedDecoded c r).ie = s.ie := rfl
@[simp] theorem State.setFixedDecoded_cmd (c r : Nat) : (s.setFixedDecoded c r).cmd = s.cmd := rfl
@[simp] theorem State.setFixedDecoded_pending (c r : Nat) : (s.setFixedDecoded c r).pending = s.pending := rfl
@[simp] theorem State.setFixedDecoded_errinfo (c r : Nat) : (s.setFixedDecoded c r).errinfo = s.errinfo := rfl
@[simp] theorem State.setFixedDecoded_lens (c r : Nat) : (s.setFixedDecoded c r).lens = s.lens := rfl
@[simp] theorem State.setFixedDecoded_cfg (c r : Nat) : (s.setFixedDecoded c r).cfg = s.cfg := rfl
@[simp] theorem State.setFixedDecoded_drawIdx (c r : Nat) : (s.setFixedDecoded c r).drawIdx = s.drawIdx := rfl
@[simp] theorem State.setFixedDecoded_res (c r : Nat) :
    (s.setFixedDecoded c r).res = { s.res with
      symOutCnt := BitVec.ofNat 11 c, resid := BitVec.ofNat 16 r } := rfl
@[simp] theorem State.setFixedDecoded_mem (c r : Nat) : (s.setFixedDecoded c r).mem = s.mem := rfl
@[simp] theorem State.setFixedDecoded_agenda (c r : Nat) : (s.setFixedDecoded c r).agenda = s.agenda := rfl
@[simp] theorem State.setFixedDecoded_rdata (c r : Nat) : (s.setFixedDecoded c r).rdata = s.rdata := rfl

/-! ## setTriplesDecoded -/

@[simp] theorem State.setTriplesDecoded_status (c r d : Nat) : (s.setTriplesDecoded c r d).status = s.status := rfl
@[simp] theorem State.setTriplesDecoded_ie (c r d : Nat) : (s.setTriplesDecoded c r d).ie = s.ie := rfl
@[simp] theorem State.setTriplesDecoded_cmd (c r d : Nat) : (s.setTriplesDecoded c r d).cmd = s.cmd := rfl
@[simp] theorem State.setTriplesDecoded_pending (c r d : Nat) : (s.setTriplesDecoded c r d).pending = s.pending := rfl
@[simp] theorem State.setTriplesDecoded_errinfo (c r d : Nat) : (s.setTriplesDecoded c r d).errinfo = s.errinfo := rfl
@[simp] theorem State.setTriplesDecoded_lens (c r d : Nat) : (s.setTriplesDecoded c r d).lens = s.lens := rfl
@[simp] theorem State.setTriplesDecoded_cfg (c r d : Nat) : (s.setTriplesDecoded c r d).cfg = s.cfg := rfl
@[simp] theorem State.setTriplesDecoded_drawIdx (c r d : Nat) : (s.setTriplesDecoded c r d).drawIdx = s.drawIdx := rfl
@[simp] theorem State.setTriplesDecoded_res (c r d : Nat) :
    (s.setTriplesDecoded c r d).res = { s.res with
      symOutCnt := BitVec.ofNat 11 c, resid := BitVec.ofNat 16 r, drop := BitVec.ofNat 16 d } := rfl
@[simp] theorem State.setTriplesDecoded_mem (c r d : Nat) : (s.setTriplesDecoded c r d).mem = s.mem := rfl
@[simp] theorem State.setTriplesDecoded_agenda (c r d : Nat) : (s.setTriplesDecoded c r d).agenda = s.agenda := rfl
@[simp] theorem State.setTriplesDecoded_rdata (c r d : Nat) : (s.setTriplesDecoded c r d).rdata = s.rdata := rfl

/-! ## advanceDraws -/

@[simp] theorem State.advanceDraws_status (n : Nat) : (s.advanceDraws n).status = s.status := rfl
@[simp] theorem State.advanceDraws_ie (n : Nat) : (s.advanceDraws n).ie = s.ie := rfl
@[simp] theorem State.advanceDraws_cmd (n : Nat) : (s.advanceDraws n).cmd = s.cmd := rfl
@[simp] theorem State.advanceDraws_pending (n : Nat) : (s.advanceDraws n).pending = s.pending := rfl
@[simp] theorem State.advanceDraws_errinfo (n : Nat) : (s.advanceDraws n).errinfo = s.errinfo := rfl
@[simp] theorem State.advanceDraws_lens (n : Nat) : (s.advanceDraws n).lens = s.lens := rfl
@[simp] theorem State.advanceDraws_cfg (n : Nat) : (s.advanceDraws n).cfg = s.cfg := rfl
@[simp] theorem State.advanceDraws_drawIdx (n : Nat) :
    (s.advanceDraws n).drawIdx = s.drawIdx + BitVec.ofNat 32 n := rfl
@[simp] theorem State.advanceDraws_res (n : Nat) : (s.advanceDraws n).res = s.res := rfl
@[simp] theorem State.advanceDraws_mem (n : Nat) : (s.advanceDraws n).mem = s.mem := rfl
@[simp] theorem State.advanceDraws_agenda (n : Nat) : (s.advanceDraws n).agenda = s.agenda := rfl
@[simp] theorem State.advanceDraws_rdata (n : Nat) : (s.advanceDraws n).rdata = s.rdata := rfl

/-! ## setResid -/

@[simp] theorem State.setResid_status (n : Nat) : (s.setResid n).status = s.status := rfl
@[simp] theorem State.setResid_ie (n : Nat) : (s.setResid n).ie = s.ie := rfl
@[simp] theorem State.setResid_cmd (n : Nat) : (s.setResid n).cmd = s.cmd := rfl
@[simp] theorem State.setResid_pending (n : Nat) : (s.setResid n).pending = s.pending := rfl
@[simp] theorem State.setResid_errinfo (n : Nat) : (s.setResid n).errinfo = s.errinfo := rfl
@[simp] theorem State.setResid_lens (n : Nat) : (s.setResid n).lens = s.lens := rfl
@[simp] theorem State.setResid_cfg (n : Nat) : (s.setResid n).cfg = s.cfg := rfl
@[simp] theorem State.setResid_drawIdx (n : Nat) : (s.setResid n).drawIdx = s.drawIdx := rfl
@[simp] theorem State.setResid_res (n : Nat) : (s.setResid n).res = { s.res with resid := BitVec.ofNat 16 n } := rfl
@[simp] theorem State.setResid_mem (n : Nat) : (s.setResid n).mem = s.mem := rfl
@[simp] theorem State.setResid_agenda (n : Nat) : (s.setResid n).agenda = s.agenda := rfl
@[simp] theorem State.setResid_rdata (n : Nat) : (s.setResid n).rdata = s.rdata := rfl

/-! ## setCorrected -/

@[simp] theorem State.setCorrected_status (n : Nearest) : (s.setCorrected n).status = s.status := rfl
@[simp] theorem State.setCorrected_ie (n : Nearest) : (s.setCorrected n).ie = s.ie := rfl
@[simp] theorem State.setCorrected_cmd (n : Nearest) : (s.setCorrected n).cmd = s.cmd := rfl
@[simp] theorem State.setCorrected_pending (n : Nearest) : (s.setCorrected n).pending = s.pending := rfl
@[simp] theorem State.setCorrected_errinfo (n : Nearest) : (s.setCorrected n).errinfo = s.errinfo := rfl
@[simp] theorem State.setCorrected_lens (n : Nearest) : (s.setCorrected n).lens = s.lens := rfl
@[simp] theorem State.setCorrected_cfg (n : Nearest) : (s.setCorrected n).cfg = s.cfg := rfl
@[simp] theorem State.setCorrected_drawIdx (n : Nearest) : (s.setCorrected n).drawIdx = s.drawIdx := rfl
@[simp] theorem State.setCorrected_res (n : Nearest) :
    (s.setCorrected n).res = { s.res with
      corrIdx := BitVec.ofNat 10 n.idx, corrDist := BitVec.ofNat 7 n.dist } := rfl
@[simp] theorem State.setCorrected_mem (n : Nearest) : (s.setCorrected n).mem = s.mem := rfl
@[simp] theorem State.setCorrected_agenda (n : Nearest) : (s.setCorrected n).agenda = s.agenda := rfl
@[simp] theorem State.setCorrected_rdata (n : Nearest) : (s.setCorrected n).rdata = s.rdata := rfl

/-! ## accept -/

@[simp] theorem State.accept_status (c : Word) : (s.accept c).status = s.status.accepted := rfl
@[simp] theorem State.accept_ie (c : Word) : (s.accept c).ie = s.ie := rfl
@[simp] theorem State.accept_cmd (c : Word) : (s.accept c).cmd = c := rfl
@[simp] theorem State.accept_pending (c : Word) : (s.accept c).pending = true := rfl
@[simp] theorem State.accept_errinfo (c : Word) : (s.accept c).errinfo = s.errinfo := rfl
@[simp] theorem State.accept_lens (c : Word) : (s.accept c).lens = s.lens := rfl
@[simp] theorem State.accept_cfg (c : Word) : (s.accept c).cfg = s.cfg := rfl
@[simp] theorem State.accept_drawIdx (c : Word) : (s.accept c).drawIdx = s.drawIdx := rfl
@[simp] theorem State.accept_res (c : Word) : (s.accept c).res = s.res := rfl
@[simp] theorem State.accept_mem (c : Word) : (s.accept c).mem = s.mem := rfl
@[simp] theorem State.accept_agenda (c : Word) : (s.accept c).agenda = s.agenda := rfl
@[simp] theorem State.accept_rdata (c : Word) : (s.accept c).rdata = s.rdata := rfl

/-! ## softReset -/

@[simp] theorem State.softReset_status : s.softReset.status = Status.reset := rfl
@[simp] theorem State.softReset_ie : s.softReset.ie = false := rfl
@[simp] theorem State.softReset_cmd : s.softReset.cmd = 0 := rfl
@[simp] theorem State.softReset_pending : s.softReset.pending = false := rfl
@[simp] theorem State.softReset_errinfo : s.softReset.errinfo = 0 := rfl
@[simp] theorem State.softReset_lens : s.softReset.lens = Lens.reset := rfl
@[simp] theorem State.softReset_cfg : s.softReset.cfg = ConfigRegs.reset := rfl
@[simp] theorem State.softReset_drawIdx : s.softReset.drawIdx = 0 := rfl
@[simp] theorem State.softReset_res : s.softReset.res = ResultRegs.reset := rfl
@[simp] theorem State.softReset_mem : s.softReset.mem = s.mem := rfl
@[simp] theorem State.softReset_agenda : s.softReset.agenda = s.agenda := rfl
@[simp] theorem State.softReset_rdata : s.softReset.rdata = s.rdata := rfl

/-! ## powerOn -/

@[simp] theorem State.powerOn_status : s.powerOn.status = Status.reset := rfl
@[simp] theorem State.powerOn_ie : s.powerOn.ie = false := rfl
@[simp] theorem State.powerOn_cmd : s.powerOn.cmd = 0 := rfl
@[simp] theorem State.powerOn_pending : s.powerOn.pending = false := rfl
@[simp] theorem State.powerOn_errinfo : s.powerOn.errinfo = 0 := rfl
@[simp] theorem State.powerOn_lens : s.powerOn.lens = Lens.reset := rfl
@[simp] theorem State.powerOn_cfg : s.powerOn.cfg = ConfigRegs.reset := rfl
@[simp] theorem State.powerOn_drawIdx : s.powerOn.drawIdx = 0 := rfl
@[simp] theorem State.powerOn_res : s.powerOn.res = ResultRegs.reset := rfl
@[simp] theorem State.powerOn_mem : s.powerOn.mem = [] := rfl
@[simp] theorem State.powerOn_agenda : s.powerOn.agenda = s.agenda := rfl
@[simp] theorem State.powerOn_rdata : s.powerOn.rdata = s.rdata := rfl

/-! ## STATUS -/

variable (st : Status)

@[simp] theorem Status.completed_busy (opc : BitVec 8) (c : ErrCode) : (st.completed opc c).busy = false := rfl
@[simp] theorem Status.completed_done (opc : BitVec 8) (c : ErrCode) : (st.completed opc c).done = true := rfl
@[simp] theorem Status.completed_err (opc : BitVec 8) (c : ErrCode) :
    (st.completed opc c).err = (st.err || decide (c ≠ .ok)) := rfl
@[simp] theorem Status.completed_ovr (opc : BitVec 8) (c : ErrCode) : (st.completed opc c).ovr = st.ovr := rfl
@[simp] theorem Status.completed_tblv (opc : BitVec 8) (c : ErrCode) : (st.completed opc c).tblv = st.tblv := rfl
@[simp] theorem Status.completed_errcode (opc : BitVec 8) (c : ErrCode) : (st.completed opc c).errcode = c := rfl
@[simp] theorem Status.completed_lastop (opc : BitVec 8) (c : ErrCode) : (st.completed opc c).lastop = opc := rfl

@[simp] theorem Status.accepted_busy : st.accepted.busy = true := rfl
@[simp] theorem Status.accepted_done : st.accepted.done = false := rfl
@[simp] theorem Status.accepted_err : st.accepted.err = st.err := rfl
@[simp] theorem Status.accepted_ovr : st.accepted.ovr = st.ovr := rfl
@[simp] theorem Status.accepted_tblv : st.accepted.tblv = st.tblv := rfl
@[simp] theorem Status.accepted_errcode : st.accepted.errcode = st.errcode := rfl
@[simp] theorem Status.accepted_lastop : st.accepted.lastop = st.lastop := rfl

@[simp] theorem Status.dropped_busy : st.dropped.busy = st.busy := rfl
@[simp] theorem Status.dropped_done : st.dropped.done = st.done := rfl
@[simp] theorem Status.dropped_err : st.dropped.err = st.err := rfl
@[simp] theorem Status.dropped_ovr : st.dropped.ovr = true := rfl
@[simp] theorem Status.dropped_tblv : st.dropped.tblv = st.tblv := rfl
@[simp] theorem Status.dropped_errcode : st.dropped.errcode = st.errcode := rfl
@[simp] theorem Status.dropped_lastop : st.dropped.lastop = st.lastop := rfl

@[simp] theorem Status.hostWrite_busy (w : Word) : (st.hostWrite w).busy = st.busy := rfl
@[simp] theorem Status.hostWrite_done (w : Word) : (st.hostWrite w).done = (st.done && !w.getLsbD 1) := rfl
@[simp] theorem Status.hostWrite_err (w : Word) : (st.hostWrite w).err = (st.err && !w.getLsbD 2) := rfl
@[simp] theorem Status.hostWrite_ovr (w : Word) : (st.hostWrite w).ovr = (st.ovr && !w.getLsbD 3) := rfl
@[simp] theorem Status.hostWrite_tblv (w : Word) : (st.hostWrite w).tblv = st.tblv := rfl
@[simp] theorem Status.hostWrite_errcode (w : Word) : (st.hostWrite w).errcode = st.errcode := rfl
@[simp] theorem Status.hostWrite_lastop (w : Word) : (st.hostWrite w).lastop = st.lastop := rfl

/-! ## Lengths and opcodes -/

@[simp] theorem Lens.get_set_same (l : Lens) (b : BufId) (n : BufLen) : (l.set b n).get b = n := by cases b <;> rfl

theorem Lens.get_set_other (l : Lens) {b c : BufId} (n : BufLen) (h : c ≠ b) : (l.set b n).get c = l.get c := by
  cases b <;> cases c <;> first | rfl | exact absurd rfl h

theorem val_clampLen (x : Nat) : (clampLen x).val = min x 16384 := rfl

theorem State.bufLen_setBuf_same (b : BufId) (v : Bits) (h : v.length ≤ 16384) :
    (s.setBuf b v).bufLen b = v.length := by
  simp [State.bufLen, val_clampLen]; omega

theorem State.bufLen_setBuf_other {b c : BufId} (v : Bits) (h : c ≠ b) :
    (s.setBuf b v).bufLen c = s.bufLen c := by
  simp [State.bufLen, Lens.get_set_other _ _ h]

theorem State.bufLen_le (b : BufId) : s.bufLen b ≤ 16384 := by
  have := (s.lens.get b).isLt
  simp only [State.bufLen]; omega

end Sys2Proof.Machine
end

