-- ==== Sys2Proof/Laws/Buffers.lean ====
section
/-! SUPPORT. What reading words and buffers gives, what SetBuf leaves, and the inversion of a completion. -/

namespace Sys2Proof.Machine

/-! ## Reading words -/

theorem State.readWord_ok_iff (s : State) (a : Nat) (w : Word) : s.readWord a = .ok w ↔ s.mem.read a = some w := by
  unfold State.readWord
  cases s.mem.read a <;> simp

theorem State.readWord_error {s : State} {a : Nat} {e : Stop} (h : s.readWord a = .error e) :
    e = .fault (.uninitRead a) := by
  unfold State.readWord at h
  cases hm : s.mem.read a with
  | none => rw [hm] at h; exact (Except.error.inj h).symm
  | some w => rw [hm] at h; cases h

/-- Consecutive words read as `ws` exactly when each of them is written and reads so. -/
theorem State.readWords_ok_iff (s : State) (a n : Nat) (ws : List Word) :
    s.readWords a n = .ok ws ↔ ws.length = n ∧ ∀ j, j < n → s.mem.read (a + 4 * j) = ws[j]? := by
  induction n generalizing a ws with
  | zero =>
    constructor
    · intro h; cases h; simp
    · rintro ⟨h, -⟩; rw [List.eq_nil_of_length_eq_zero h]; rfl
  | succ n ih =>
    simp only [State.readWords]
    constructor
    · intro h
      cases hw : s.readWord a with
      | error e => rw [hw] at h; cases h
      | ok w =>
        rw [hw] at h
        cases hr : s.readWords (a + 4) n with
        | error e => simp only [Except.bind, hr] at h; cases h
        | ok vs =>
          simp only [Except.bind, hr, Except.map, Except.ok.injEq] at h
          subst h
          obtain ⟨hl, hj⟩ := (ih (a + 4) vs).mp hr
          refine ⟨by simp [hl], fun j hjn => ?_⟩
          cases j with
          | zero => simpa using (s.readWord_ok_iff a w).mp hw
          | succ j =>
            have := hj j (by omega)
            rw [show a + 4 * (j + 1) = a + 4 + 4 * j by omega, this]
            simp
    · rintro ⟨hl, hj⟩
      cases ws with
      | nil => simp at hl
      | cons w vs =>
        have h0 := hj 0 (by omega)
        have hw : s.readWord a = .ok w := (s.readWord_ok_iff a w).mpr (by simpa using h0)
        have hr : s.readWords (a + 4) n = .ok vs := (ih (a + 4) vs).mpr ⟨by simpa using hl, fun j hjn => by
          have := hj (j + 1) (by omega)
          rw [show a + 4 + 4 * j = a + 4 * (j + 1) by omega, this]
          simp⟩
        simp [hw, hr, Except.bind, Except.map]

/-- Reading words stops only at an unwritten one of them. -/
theorem State.readWords_error {s : State} {a n : Nat} {e : Stop} (h : s.readWords a n = .error e) :
    ∃ j, j < n ∧ e = .fault (.uninitRead (a + 4 * j)) ∧ s.mem.read (a + 4 * j) = none := by
  induction n generalizing a with
  | zero => cases h
  | succ n ih =>
    simp only [State.readWords] at h
    cases hw : s.readWord a with
    | error e' =>
      rw [hw] at h
      cases h
      refine ⟨0, by omega, State.readWord_error hw, ?_⟩
      unfold State.readWord at hw
      cases hm : s.mem.read a with
      | none => simp
      | some w => rw [hm] at hw; cases hw
    | ok w =>
      cases hr : s.readWords (a + 4) n with
      | error e' =>
        simp only [hw, Except.bind, hr, Except.map] at h
        cases h
        obtain ⟨j, hj, he, hm⟩ := ih hr
        exact ⟨j + 1, by omega, by rw [he]; congr 2; omega, by rw [← hm]; congr 1; omega⟩
      | ok vs => simp [hw, hr, Except.bind, Except.map] at h

theorem State.readWords_congr (s t : State) (a n : Nat)
    (h : ∀ j, j < n → t.mem.read (a + 4 * j) = s.mem.read (a + 4 * j)) : t.readWords a n = s.readWords a n := by
  induction n generalizing a with
  | zero => rfl
  | succ n ih =>
    have h0 : t.readWord a = s.readWord a := by
      unfold State.readWord; rw [show t.mem.read a = s.mem.read a by simpa using h 0 (by omega)]
    have h1 : t.readWords (a + 4) n = s.readWords (a + 4) n := ih (a + 4) (fun j hj => by
      have := h (j + 1) (by omega)
      rwa [show a + 4 + 4 * j = a + 4 * (j + 1) by omega])
    simp only [State.readWords, h0, h1]

/-! ## Buffers -/

theorem wordsFor_le (n : Nat) (h : n ≤ 16384) : wordsFor n ≤ 512 := by unfold wordsFor; omega
theorem le_wordsFor (n : Nat) : n ≤ 32 * wordsFor n := by unfold wordsFor; omega

theorem bufAddr_eq (b : BufId) (m : Nat) : bufAddr b m = bufAddr b 0 + 4 * m := by unfold bufAddr; omega

/-- A readable buffer has the length its register says. -/
theorem State.buf_length {s : State} {b : BufId} {v : Bits} (h : s.buf b = .ok v) : v.length = s.bufLen b := by
  unfold State.buf at h
  cases hr : s.readWords (bufAddr b 0) (wordsFor (s.bufLen b)) with
  | error e => rw [hr] at h; cases h
  | ok ws =>
    rw [hr] at h
    cases h
    have hl := ((s.readWords_ok_iff _ _ _).mp hr).1
    have := le_wordsFor (s.bufLen b)
    simp [hl]; omega

/-- A buffer is unreadable only where a word below its length is unwritten (R60). -/
theorem State.buf_error {s : State} {b : BufId} {e : Stop} (h : s.buf b = .error e) :
    ∃ m, m < wordsFor (s.bufLen b) ∧ e = .fault (.uninitRead (bufAddr b m)) ∧ s.mem.read (bufAddr b m) = none := by
  unfold State.buf at h
  cases hr : s.readWords (bufAddr b 0) (wordsFor (s.bufLen b)) with
  | error e' =>
    rw [hr] at h
    cases h
    obtain ⟨j, hj, he, hm⟩ := State.readWords_error hr
    exact ⟨j, hj, by rw [bufAddr_eq b j]; exact he, by rw [bufAddr_eq b j]; exact hm⟩
  | ok ws => rw [hr] at h; cases h

/-- Buf(k) depends only on LEN_k and the buffer's own window. -/
theorem State.buf_congr (s t : State) (b : BufId) (hl : t.bufLen b = s.bufLen b)
    (hm : ∀ m, m < 512 → t.mem.read (bufAddr b m) = s.mem.read (bufAddr b m)) : t.buf b = s.buf b := by
  unfold State.buf
  rw [hl, State.readWords_congr s t]
  intro j hj
  have := wordsFor_le _ (s.bufLen_le b)
  have := hm j (by omega)
  rwa [bufAddr_eq] at this

/-- The window word m of a buffer after SetBuf (R103, R104). -/
theorem State.read_setBuf_inside (s : State) (b : BufId) (v : Bits) (m : Nat) (h : m < 512) :
    (s.setBuf b v).mem.read (bufAddr b m) = some (wordOfBits ((v.drop (32 * m)).take 32)) := by
  rw [State.setBuf_mem, bufAddr_eq b m, Memory.read_writeWords_inside _ _ _ _ (by simpa using h)]
  exact getElem?_packWords _ _ _ (by simpa using h)

/-- SetBuf leaves every word outside the buffer's window alone. -/
theorem State.read_setBuf_outside (s : State) (b : BufId) (v : Bits) (a : Nat)
    (h : a < bufAddr b 0 ∨ bufAddr b 512 ≤ a) : (s.setBuf b v).mem.read a = s.mem.read a := by
  rw [State.setBuf_mem]
  apply Memory.read_writeWords_outside
  rw [bufAddr_eq b 512] at h
  simpa using h

/-- After SetBuf(k, v) with |v| ≤ BUF_BITS, Buf(k) is v (R17). -/
theorem State.buf_setBuf_same (s : State) (b : BufId) (v : Bits) (h : v.length ≤ 16384) :
    (s.setBuf b v).buf b = .ok v := by
  have hl := s.bufLen_setBuf_same b v h
  have hw := wordsFor_le _ h
  have hr : (s.setBuf b v).readWords (bufAddr b 0) (wordsFor v.length)
      = .ok ((packWords 512 v).take (wordsFor v.length)) := by
    rw [State.readWords_ok_iff]
    refine ⟨by simp; omega, fun j hj => ?_⟩
    rw [← bufAddr_eq, s.read_setBuf_inside b v j (by omega), List.getElem?_take_of_lt hj,
      getElem?_packWords _ _ _ (by omega)]
  unfold State.buf
  rw [hl, hr]
  simp only [Except.map]
  rw [take_unpackWords_packWords 512 _ v hw (le_wordsFor _)]

theorem bufAddr_disjoint {b c : BufId} (h : c ≠ b) (m : Nat) (hm : m < 512) :
    bufAddr c m < bufAddr b 0 ∨ bufAddr b 512 ≤ bufAddr c m := by
  unfold bufAddr
  cases b <;> cases c <;> first | exact absurd rfl h | (simp only [BufId.field]; omega)

/-- SetBuf changes no other buffer. -/
theorem State.buf_setBuf_other (s : State) {b c : BufId} (v : Bits) (h : c ≠ b) :
    (s.setBuf b v).buf c = s.buf c :=
  State.buf_congr _ _ _ (s.bufLen_setBuf_other v h)
    (fun m hm => s.read_setBuf_outside b v _ (bufAddr_disjoint h m hm))

/-! ## Completion -/

/-- A completion answers the successful or the error completion of the state, or the model fault: everything
`settle` can do. -/
theorem State.settle_next {s t : State} {r : Except Stop State} (h : s.settle r = .next t) :
    (∃ u, r = .ok u ∧ t = u.completeOk) ∨ ∃ c n, r = .error (.raised c n) ∧ t = s.raiseError c n := by
  unfold State.settle at h
  split at h
  · cases h; exact .inl ⟨_, rfl, rfl⟩
  · cases h; exact .inr ⟨_, _, rfl, rfl⟩
  · cases h

@[simp] theorem State.settle_ok (s t : State) : s.settle (.ok t) = .next t.completeOk := rfl
@[simp] theorem State.settle_raised (s : State) (c : ErrCode) (n : Nat) :
    s.settle (.error (.raised c n)) = .next (s.raiseError c n) := rfl
@[simp] theorem State.settle_fault (s : State) (f : Fault) : s.settle (.error (.fault f)) = .fault f := rfl

theorem State.storeResult_ok (s : State) (d : BufId) (v : Bits) (h : v.length ≤ 16384) :
    s.storeResult d v = .ok (s.setBuf d v) := by
  simp [State.storeResult]; omega

theorem State.storeResult_capacity (s : State) (d : BufId) (v : Bits) (h : v.length > 16384) :
    s.storeResult d v = .error (.raised .capacity v.length) := by
  simp [State.storeResult]; omega

theorem State.writeOutput_ok (s : State) (n : Nat) (ws : List Word)
    (h : s.cfg.symOutBase.toNat + ws.length ≤ 1024) :
    s.writeOutput n ws = .ok (s.writeWords (symAddr s.cfg.symOutBase.toNat) ws) := by
  simp [State.writeOutput]; omega

theorem State.writeOutput_capacity (s : State) (n : Nat) (ws : List Word)
    (h : s.cfg.symOutBase.toNat + ws.length > 1024) :
    s.writeOutput n ws = .error (.raised .capacity n) := by
  simp [State.writeOutput]; omega

@[simp] theorem bind_ok_val {α β : Type} (a : α) (f : α → Except Stop β) :
    Except.bind (.ok a) f = f a := rfl
@[simp] theorem bind_error_val {α β : Type} (e : Stop) (f : α → Except Stop β) :
    Except.bind (.error e) f = .error e := rfl
@[simp] theorem map_ok_val {α β : Type} (a : α) (f : α → β) :
    Except.map (ε := Stop) f (.ok a) = .ok (f a) := rfl
@[simp] theorem map_error_val {α β : Type} (e : Stop) (f : α → β) :
    Except.map (ε := Stop) f (.error e) = .error e := rfl

/-- From a sequence of two steps that succeeded, the first one succeeded. -/
theorem bind_eq_ok {α β : Type} {x : Except Stop α} {f : α → Except Stop β} {b : β}
    (h : x.bind f = .ok b) : ∃ a, x = .ok a ∧ f a = .ok b := by
  cases x with
  | error e => cases h
  | ok a => exact ⟨a, rfl, h⟩

theorem map_eq_ok {α β : Type} {x : Except Stop α} {f : α → β} {b : β}
    (h : x.map f = .ok b) : ∃ a, x = .ok a ∧ f a = b := by
  cases x with
  | error e => cases h
  | ok a => exact ⟨a, rfl, by simpa using h⟩

theorem bind_eq_error {α β : Type} {x : Except Stop α} {f : α → Except Stop β} {e : Stop}
    (h : x.bind f = .error e) : x = .error e ∨ ∃ a, x = .ok a ∧ f a = .error e := by
  cases x with
  | error e' => exact .inl (by simpa using h)
  | ok a => exact .inr ⟨a, rfl, h⟩

theorem map_eq_error {α β : Type} {x : Except Stop α} {f : α → β} {e : Stop}
    (h : x.map f = .error e) : x = .error e := by
  cases x with
  | error e' => simpa using h
  | ok a => cases h

end Sys2Proof.Machine
end

