-- ==== Sys2Proof/Laws/Decode.lean ====
section
/-! SUPPORT. The fields of an encoded word, and the decoder said once. -/

namespace Sys2Proof

theorem BufId.field_lt (b : BufId) : b.field < 4 := by cases b <;> decide

@[simp] theorem bufOfField_field (b : BufId) : bufOfField b.field = b := by cases b <;> rfl

theorem BufId.field_injective {b c : BufId} (h : b.field = c.field) : b = c := by
  rw [← bufOfField_field b, ← bufOfField_field c, h]

theorem field_bufOfField {n : Nat} (h : n < 4) : (bufOfField n).field = n := by
  unfold bufOfField
  split
  · simp [BufId.field, *]
  · split
    · simp [BufId.field, *]
    · split
      · simp [BufId.field, *]
      · simp only [BufId.field]; omega

theorem toNat_encWord {opc dst src imm : Nat} (ho : opc < 256) (hd : dst < 4) (hs : src < 4) (hi : imm < 65536) :
    (encWord opc dst src imm).toNat = opc * 2 ^ 24 + dst * 2 ^ 22 + src * 2 ^ 20 + imm := by
  unfold encWord
  rw [BitVec.toNat_ofNat]
  apply Nat.mod_eq_of_lt
  omega

/-- The fields of an encoded word are the fields it was made of, with RSV = 0 (R140). -/
theorem encWord_fields {opc dst src imm : Nat} (ho : opc < 256) (hd : dst < 4) (hs : src < 4) (hi : imm < 64) :
    opcOf (encWord opc dst src imm) = opc ∧ dstOf (encWord opc dst src imm) = dst ∧
      srcOf (encWord opc dst src imm) = src ∧ rsvOf (encWord opc dst src imm) = 0 ∧
      immWidthOf (encWord opc dst src imm) = imm := by
  have h := toNat_encWord ho hd hs (show imm < 65536 by omega)
  unfold opcOf dstOf srcOf rsvOf immWidthOf wordField
  rw [h]
  refine ⟨?_, ?_, ?_, ?_, ?_⟩ <;> omega

theorem wordField_lt (w : Word) (hi lo : Nat) : wordField w hi lo < 2 ^ (hi + 1 - lo) :=
  Nat.mod_lt _ (Nat.two_pow_pos _)

theorem dstOf_lt (w : Word) : dstOf w < 4 := wordField_lt w 23 22
theorem srcOf_lt (w : Word) : srcOf w < 4 := wordField_lt w 21 20
theorem immWidthOf_lt (w : Word) : immWidthOf w < 64 := wordField_lt w 5 0
theorem opcOf_lt (w : Word) : opcOf w < 256 := wordField_lt w 31 24

/-- The opcode map answers a command whose opcode is the OPC looked up and whose operands are those given. -/
theorem decodeOpc_cases {opc : Nat} {d k : BufId} {n : Nat} {i : Instr} (h : decodeOpc opc d k n = some i) :
    i = .nop ∧ opc = 0x00 ∨ i = .bclr d ∧ opc = 0x01 ∨ i = .bcopy d k ∧ opc = 0x02 ∨ i = .bcat d k ∧ opc = 0x03 ∨
    i = .bput d n ∧ opc = 0x04 ∨ i = .bget k n ∧ opc = 0x05 ∨ i = .hbuild ∧ opc = 0x10 ∨ i = .henc d ∧ opc = 0x11 ∨
    i = .hdec k ∧ opc = 0x12 ∨ i = .fenc d ∧ opc = 0x18 ∨ i = .fdec k ∧ opc = 0x19 ∨ i = .senc d ∧ opc = 0x20 ∨
    i = .sdec k ∧ opc = 0x21 ∨ i = .chan d k ∧ opc = 0x28 ∨ i = .renc d k ∧ opc = 0x30 ∨ i = .rdec d k ∧ opc = 0x31 ∨
    i = .corr d k ∧ opc = 0x38 := by
  unfold decodeOpc at h
  split at h <;> first | (cases h; simp) | cases h

/-- The decoder answers exactly where RSV is 0 and the opcode map has the OPC. -/
theorem decode_ok_iff (w : Word) (i : Instr) :
    decode w = .ok i ↔ rsvOf w = 0 ∧
      decodeOpc (opcOf w) (bufOfField (dstOf w)) (bufOfField (srcOf w)) (immWidthOf w) = some i := by
  unfold decode
  by_cases h : rsvOf w = 0
  · rw [if_neg (by simpa using h)]
    cases hd : decodeOpc (opcOf w) (bufOfField (dstOf w)) (bufOfField (srcOf w)) (immWidthOf w) <;> simp [h]
  · rw [if_pos h]; simp [h]

end Sys2Proof
end

