-- ==== Sys2Proof/Laws/Exec.lean ====
section
/-! SUPPORT. Everything each command can do, said once per command: it stops at an unwritten word, it raises one of its
errors, or it completes with its effect. -/

namespace Sys2Proof.Machine

/-- A rule ended at a read of an unwritten word. -/
def UnreadStop (s : State) (e : Stop) : Prop := ∃ a, e = .fault (.uninitRead a) ∧ s.mem.read a = none

/-- A command stopped at a read of an unwritten word. -/
def StopsUnread (s : State) (o : Host.Outcome State Fault Refusal) : Prop :=
  ∃ a, o = .fault (.uninitRead a) ∧ s.mem.read a = none

/-- A command completed with an error of the list. -/
def Raises (s : State) (codes : List ErrCode) (o : Host.Outcome State Fault Refusal) : Prop :=
  ∃ c n, c ∈ codes ∧ o = .next (s.raiseError c n)

theorem StopsUnread.of_settle {s : State} {e : Stop} (h : UnreadStop s e) : StopsUnread s (s.settle (.error e)) := by
  obtain ⟨a, rfl, ha⟩ := h
  exact ⟨a, rfl, ha⟩

theorem Raises.of_settle (s : State) {c : ErrCode} {codes : List ErrCode} (n : Nat) (h : c ∈ codes) :
    Raises s codes (s.settle (.error (.raised c n))) := ⟨c, n, h, rfl⟩

theorem State.readWord_unread {s : State} {a : Nat} {e : Stop} (h : s.readWord a = .error e) : UnreadStop s e := by
  refine ⟨a, State.readWord_error h, ?_⟩
  unfold State.readWord at h
  cases hm : s.mem.read a with
  | none => rfl
  | some w => rw [hm] at h; cases h

theorem State.readWords_unread {s : State} {a n : Nat} {e : Stop} (h : s.readWords a n = .error e) :
    UnreadStop s e := by
  obtain ⟨j, -, he, hm⟩ := State.readWords_error h
  exact ⟨_, he, hm⟩

theorem State.buf_unread {s : State} {b : BufId} {e : Stop} (h : s.buf b = .error e) : UnreadStop s e := by
  obtain ⟨m, -, he, hm⟩ := State.buf_error h
  exact ⟨_, he, hm⟩

/-- A buffer is readable or its read stops at an unwritten word. -/
theorem State.buf_cases (s : State) (b : BufId) :
    (∃ e, s.buf b = .error e ∧ UnreadStop s e) ∨ ∃ v, s.buf b = .ok v ∧ v.length = s.bufLen b ∧ v.length ≤ 16384 := by
  cases h : s.buf b with
  | error e => exact .inl ⟨e, rfl, State.buf_unread h⟩
  | ok v =>
    have hl := State.buf_length h
    exact .inr ⟨v, rfl, hl, hl ▸ s.bufLen_le b⟩

/-! ## The bit-vector datapath -/

theorem execBcopy_cases (d k : BufId) (s : State) :
    StopsUnread s (execBcopy d k s) ∨
      ∃ v, s.buf k = .ok v ∧ v.length ≤ 16384 ∧ execBcopy d k s = .next (s.setBuf d v).completeOk := by
  unfold execBcopy
  rcases s.buf_cases k with ⟨e, h, he⟩ | ⟨v, h, -, hl⟩
  · rw [h]; exact .inl (.of_settle he)
  · rw [h]; exact .inr ⟨v, rfl, hl, rfl⟩

theorem execBcat_cases (d k : BufId) (s : State) :
    StopsUnread s (execBcat d k s) ∨ Raises s [.capacity] (execBcat d k s) ∨
      ∃ u v, s.buf d = .ok u ∧ s.buf k = .ok v ∧ (u ++ v).length ≤ 16384 ∧
        execBcat d k s = .next (s.setBuf d (u ++ v)).completeOk := by
  unfold execBcat
  rcases s.buf_cases d with ⟨e, h, he⟩ | ⟨u, h, -, -⟩
  · rw [h]; exact .inl (.of_settle he)
  rcases s.buf_cases k with ⟨e, h', he⟩ | ⟨v, h', -, -⟩
  · rw [h, h']; exact .inl (.of_settle he)
  rw [h, h']
  simp only [bind_ok_val]
  by_cases hl : (u ++ v).length ≤ 16384
  · rw [s.storeResult_ok d _ hl]; exact .inr (.inr ⟨u, v, rfl, rfl, hl, rfl⟩)
  · rw [s.storeResult_capacity d _ (by omega)]; exact .inr (.inl (.of_settle s _ (by simp)))

theorem execBput_cases (d : BufId) (w : Nat) (s : State) :
    StopsUnread s (execBput d w s) ∨ Raises s [.param, .capacity] (execBput d w s) ∨
      ∃ u, s.buf d = .ok u ∧ widthLegal w = true ∧ u.length + w ≤ 16384 ∧
        execBput d w s = .next (s.setBuf d (u ++ bitsOf w s.cfg.pkData.toNat)).completeOk := by
  unfold execBput
  cases hw : widthLegal w with
  | false => exact .inr (.inl (.of_settle s _ (by simp)))
  | true =>
    rcases s.buf_cases d with ⟨e, h, he⟩ | ⟨u, h, -, -⟩
    · rw [h]; exact .inl (.of_settle he)
    simp only [h, bind_ok_val, if_true]
    by_cases hl : (u ++ bitsOf w s.cfg.pkData.toNat).length ≤ 16384
    · rw [s.storeResult_ok d _ hl]; exact .inr (.inr ⟨u, rfl, trivial, by simpa using hl, rfl⟩)
    · rw [s.storeResult_capacity d _ (by omega)]; exact .inr (.inl (.of_settle s _ (by simp)))

theorem execBget_cases (k : BufId) (w : Nat) (s : State) :
    StopsUnread s (execBget k w s) ∨ Raises s [.param, .range] (execBget k w s) ∨
      ∃ v, s.buf k = .ok v ∧ widthLegal w = true ∧ s.cfg.pkOff.toNat + w ≤ s.bufLen k ∧
        execBget k w s = .next (s.setUnpacked
          (val (slice v s.cfg.pkOff.toNat (s.cfg.pkOff.toNat + w))) (s.cfg.pkOff.toNat + w)).completeOk := by
  unfold execBget
  cases hw : widthLegal w with
  | false => exact .inr (.inl (.of_settle s _ (by simp)))
  | true =>
    by_cases hr : s.cfg.pkOff.toNat + w > s.bufLen k
    · simp only [hr, if_true]; exact .inr (.inl (.of_settle s _ (by simp)))
    simp only [hr, if_true, if_false]
    rcases s.buf_cases k with ⟨e, h, he⟩ | ⟨v, h, -, -⟩
    · rw [h]; exact .inl (.of_settle he)
    · rw [h]; exact .inr (.inr ⟨v, rfl, trivial, by omega, rfl⟩)

/-! ## Huffman -/

theorem buildTree_none_iff (leaves : List (Nat × Nat)) : buildTree leaves = none ↔ leaves = [] := by
  have hq : ∀ (e : QueueEntry) (q : List QueueEntry), queueInsert e q ≠ [] := by
    intro e q
    cases q with
    | nil => simp [queueInsert]
    | cons x q => unfold queueInsert; split <;> simp
  have hm : ∀ (n k : Nat) (q : List QueueEntry), q ≠ [] → mergeQueue n k q ≠ [] := by
    intro n
    induction n with
    | zero => intro k q h; cases q <;> simp_all [mergeQueue]
    | succ n ih =>
      intro k q h
      match q, h with
      | [], h => exact absurd rfl h
      | [e], _ => simp [mergeQueue]
      | e1 :: e2 :: q, _ => exact ih _ _ (hq _ _)
  match leaves with
  | [] => simp [buildTree]
  | [(k, f)] => simp [buildTree]
  | l1 :: l2 :: ls =>
    have : ((leafEntries 0 (l1 :: l2 :: ls)).foldr queueInsert []) ≠ [] := by
      obtain ⟨k, f⟩ := l1
      simp only [leafEntries, List.foldr_cons]
      exact hq _ _
    simp only [buildTree, Option.map_eq_none_iff, List.head?_eq_none_iff]
    simp [hm _ _ _ this]

theorem execHbuild_cases (s : State) :
    StopsUnread s (execHbuild s) ∨
      (∃ ws, s.freqWords = .ok ws ∧ leavesFrom 0 ws = [] ∧
        execHbuild s = .next (s.clearTblv.raiseError .emptyFreq 0)) ∨
      ∃ ws t, s.freqWords = .ok ws ∧ buildTree (leavesFrom 0 ws) = some t ∧
        execHbuild s = .next (s.setTable (leavesFrom 0 ws).length t).completeOk := by
  unfold execHbuild
  cases h : s.freqWords with
  | error e => exact .inl (.of_settle (State.readWords_unread h))
  | ok ws =>
    cases hb : buildTree (leavesFrom 0 ws) with
    | none => exact .inr (.inl ⟨ws, rfl, (buildTree_none_iff _).mp hb, by simp [hb]⟩)
    | some t => exact .inr (.inr ⟨ws, t, rfl, hb, by simp [hb]⟩)

theorem State.symbolCode_unread {s : State} {x : Word} {e : Stop} (h : s.symbolCode x = .error e) :
    UnreadStop s e := by
  unfold State.symbolCode at h
  split at h
  · rcases bind_eq_error h with h | ⟨l, -, h⟩
    · exact State.readWord_unread h
    · simp only at h
      split at h
      · exact State.readWords_unread (map_eq_error h)
      · cases h
  · cases h

theorem State.encodeSymbols_unread {s : State} {xs : List Word} {e : Stop} (h : s.encodeSymbols xs = .error e) :
    UnreadStop s e := by
  induction xs with
  | nil => cases h
  | cons x xs ih =>
    rcases bind_eq_error h with h | ⟨u, -, h⟩
    · exact State.symbolCode_unread h
    · exact ih (map_eq_error h)

theorem execHenc_cases (d : BufId) (s : State) :
    StopsUnread s (execHenc d s) ∨ Raises s [.param, .noTable, .range, .capacity] (execHenc d s) ∨
      ∃ xs v, s.inputWords = .ok xs ∧ s.encodeSymbols xs = .ok v ∧ v.length ≤ 16384 ∧
        execHenc d s = .next (s.setBuf d v).completeOk := by
  unfold execHenc
  cases hf : widthLegal s.cfg.fbw.toNat with
  | false => exact .inr (.inl (.of_settle s _ (by simp)))
  | true =>
    cases ht : s.status.tblv with
    | false => exact .inr (.inl (.of_settle s _ (by simp)))
    | true =>
      cases hr : s.inputRangeLegal 1 with
      | false => exact .inr (.inl (.of_settle s _ (by simp)))
      | true =>
        simp only [if_true]
        cases hi : s.inputWords with
        | error e => exact .inl (.of_settle (State.readWords_unread hi))
        | ok xs =>
          cases he : s.encodeSymbols xs with
          | error e => simp only [bind_ok_val, he]; exact .inl (.of_settle (State.encodeSymbols_unread he))
          | ok v =>
            simp only [bind_ok_val, he]
            by_cases hl : v.length ≤ 16384
            · rw [s.storeResult_ok d _ hl]; exact .inr (.inr ⟨xs, v, rfl, he, hl, rfl⟩)
            · rw [s.storeResult_capacity d _ (by omega)]; exact .inr (.inl (.of_settle s _ (by simp)))

theorem State.walkBit_unread {s : State} {k : Walk} {b : Bool} {e : Stop} (h : s.walkBit k b = .error e) :
    UnreadStop s e := by
  unfold State.walkBit at h
  rcases bind_eq_error h with h | ⟨w, -, h⟩
  · exact State.readWord_unread h
  · simp only at h
    split at h
    · exact State.readWord_unread (map_eq_error h)
    · cases h

theorem State.walkBits_unread {s : State} {k : Walk} {u : Bits} {e : Stop} (h : s.walkBits k u = .error e) :
    UnreadStop s e := by
  induction u generalizing k with
  | nil => cases h
  | cons b u ih =>
    rcases bind_eq_error h with h | ⟨k', -, h⟩
    · exact State.walkBit_unread h
    · exact ih h

/-- One bit of the walk goes one deeper at most, discards one bit at most and outputs one symbol at most. -/
theorem State.walkBit_bounds {s : State} {k k' : Walk} {b : Bool} (h : s.walkBit k b = .ok k') :
    k'.depth ≤ k.depth + 1 ∧ k'.bad ≤ k.bad + 1 ∧ k'.out.length ≤ k.out.length + 1 := by
  unfold State.walkBit at h
  obtain ⟨w, -, h⟩ := bind_eq_ok h
  simp only at h
  split at h
  · obtain ⟨w', -, h⟩ := map_eq_ok h
    split at h <;> subst h <;> simp
  · cases h; simp

theorem State.walkBits_bounds {s : State} {k e : Walk} {u : Bits} (h : s.walkBits k u = .ok e) :
    e.depth ≤ k.depth + u.length ∧ e.bad ≤ k.bad + u.length ∧ e.out.length ≤ k.out.length + u.length := by
  induction u generalizing k with
  | nil => cases h; simp
  | cons b u ih =>
    obtain ⟨k', h1, h2⟩ := bind_eq_ok h
    have := State.walkBit_bounds h1
    have := ih h2
    simp only [List.length_cons]
    omega

theorem execHdec_cases (k : BufId) (s : State) :
    StopsUnread s (execHdec k s) ∨ Raises s [.noTable, .capacity] (execHdec k s) ∨
      ∃ u e, s.buf k = .ok u ∧ s.walkBits Walk.start u = .ok e ∧
        s.cfg.symOutBase.toNat + e.out.length ≤ 1024 ∧ execHdec k s =
          .next ((s.writeWords (symAddr s.cfg.symOutBase.toNat) e.out).setDecoded e).completeOk := by
  unfold execHdec
  cases ht : s.status.tblv with
  | false => exact .inr (.inl (.of_settle s _ (by simp)))
  | true =>
    simp only [if_true]
    rcases s.buf_cases k with ⟨e, h, he⟩ | ⟨u, h, -, -⟩
    · rw [h]; exact .inl (.of_settle he)
    cases hw : s.walkBits Walk.start u with
    | error e => simp only [h, bind_ok_val, hw]; exact .inl (.of_settle (State.walkBits_unread hw))
    | ok e =>
      simp only [h, bind_ok_val, hw]
      by_cases hl : s.cfg.symOutBase.toNat + e.out.length ≤ 1024
      · rw [s.writeOutput_ok _ _ hl]; exact .inr (.inr ⟨u, e, rfl, hw, hl, rfl⟩)
      · rw [s.writeOutput_capacity _ _ (by omega)]; exact .inr (.inl (.of_settle s _ (by simp)))

/-! ## The fixed-width and semantic codecs -/

theorem execFenc_cases (d : BufId) (s : State) :
    StopsUnread s (execFenc d s) ∨ Raises s [.param, .range, .capacity] (execFenc d s) ∨
      ∃ xs, s.inputWords = .ok xs ∧ (packChars s.cfg.fixw.toNat xs).length ≤ 16384 ∧
        execFenc d s = .next (s.setBuf d (packChars s.cfg.fixw.toNat xs)).completeOk := by
  unfold execFenc
  cases hf : widthLegal s.cfg.fixw.toNat with
  | false => exact .inr (.inl (.of_settle s _ (by simp)))
  | true =>
    cases hr : s.inputRangeLegal 1 with
    | false => exact .inr (.inl (.of_settle s _ (by simp)))
    | true =>
      simp only [if_true]
      cases hi : s.inputWords with
      | error e => exact .inl (.of_settle (State.readWords_unread hi))
      | ok xs =>
        simp only [bind_ok_val]
        by_cases hl : (packChars s.cfg.fixw.toNat xs).length ≤ 16384
        · rw [s.storeResult_ok d _ hl]; exact .inr (.inr ⟨xs, rfl, hl, rfl⟩)
        · rw [s.storeResult_capacity d _ (by omega)]; exact .inr (.inl (.of_settle s _ (by simp)))

theorem execFdec_cases (k : BufId) (s : State) :
    StopsUnread s (execFdec k s) ∨ Raises s [.param, .capacity] (execFdec k s) ∨
      ∃ u, s.buf k = .ok u ∧ s.cfg.symOutBase.toNat + (unpackChars s.cfg.fixw.toNat u).length ≤ 1024 ∧
        execFdec k s = .next ((s.writeWords (symAddr s.cfg.symOutBase.toNat)
          (unpackChars s.cfg.fixw.toNat u)).setFixedDecoded (unpackChars s.cfg.fixw.toNat u).length
            (u.length % s.cfg.fixw.toNat)).completeOk := by
  unfold execFdec
  cases hf : widthLegal s.cfg.fixw.toNat with
  | false => simp only [hf]; exact .inr (.inl (.of_settle s _ (by simp)))
  | true =>
    simp only [hf, if_true]
    rcases s.buf_cases k with ⟨e, h, he⟩ | ⟨u, h, -, -⟩
    · rw [h]; exact .inl (.of_settle he)
    simp only [h, bind_ok_val]
    by_cases hl : s.cfg.symOutBase.toNat + (unpackChars s.cfg.fixw.toNat u).length ≤ 1024
    · rw [s.writeOutput_ok _ _ hl]; exact .inr (.inr ⟨u, rfl, hl, rfl⟩)
    · rw [s.writeOutput_capacity _ _ (by omega)]; exact .inr (.inl (.of_settle s _ (by simp)))

theorem State.readTriple_unread {s : State} {i : Nat} {e : Stop} (h : s.readTriple i = .error e) :
    UnreadStop s e := by
  unfold State.readTriple at h
  rcases bind_eq_error h with h | ⟨_, -, h⟩
  · exact State.readWord_unread h
  rcases bind_eq_error h with h | ⟨_, -, h⟩
  · exact State.readWord_unread h
  · exact State.readWord_unread (map_eq_error h)

/-- Reading the triples stops at an unwritten word or raises WIDTH, and else gives fitting triples, as many as asked
for. -/
theorem State.readTriples_cases (s : State) (b i n : Nat) :
    (∃ e, s.readTriples b i n = .error e ∧ (UnreadStop s e ∨ ∃ j, e = .raised .width j)) ∨
      ∃ xs, s.readTriples b i n = .ok xs ∧ xs.length = n ∧ ∀ x ∈ xs, x.fits s.fieldWidths = true := by
  induction n generalizing i with
  | zero => exact .inr ⟨[], rfl, rfl, by simp⟩
  | succ n ih =>
    simp only [State.readTriples]
    cases hx : s.readTriple (b + 3 * i) with
    | error e => exact .inl ⟨e, rfl, .inl (State.readTriple_unread hx)⟩
    | ok x =>
      simp only [bind_ok_val]
      cases hf : x.fits s.fieldWidths with
      | false => exact .inl ⟨_, rfl, .inr ⟨i, rfl⟩⟩
      | true =>
        simp only [if_true]
        rcases ih (i + 1) with ⟨e, h, he⟩ | ⟨xs, h, hl, ha⟩
        · exact .inl ⟨e, by rw [h]; rfl, he⟩
        · refine .inr ⟨x :: xs, by rw [h]; rfl, by simp [hl], fun y hy => ?_⟩
          rcases List.mem_cons.mp hy with rfl | hy
          · exact hf
          · exact ha y hy

@[simp] theorem Triple.length_bits (x : Triple) (f : FieldWidths) : (x.bits f).length = f.total := by
  simp [Triple.bits, FieldWidths.total]; omega

@[simp] theorem length_packTriples (f : FieldWidths) (xs : List Triple) :
    (packTriples f xs).length = xs.length * f.total := by
  induction xs with
  | nil => simp [packTriples]
  | cons x xs ih => simp only [packTriples, List.flatMap_cons, List.length_append, Triple.length_bits] at *; rw [ih]; simp [Nat.add_mul, Nat.add_comm]

theorem FieldWidths.total_le {f : FieldWidths} (h : f.legal = true) : f.total ≤ 48 := by
  simp [FieldWidths.legal] at h
  unfold FieldWidths.total
  omega

/-- SENC's result always fits: the range check limits n to 341, and 341·48 < BUF_BITS (R276). -/
theorem packTriples_fits {s : State} {xs : List Triple} (hf : s.fieldWidths.legal = true)
    (hr : s.inputRangeLegal 3 = true) (hl : xs.length = s.cfg.symInCnt.toNat) :
    (packTriples s.fieldWidths xs).length ≤ 16384 := by
  have h1 := FieldWidths.total_le hf
  simp [State.inputRangeLegal] at hr
  have h2 : xs.length ≤ 341 := by omega
  rw [length_packTriples]
  calc xs.length * s.fieldWidths.total ≤ 341 * 48 := Nat.mul_le_mul h2 h1
    _ ≤ 16384 := by decide

theorem execSenc_cases (d : BufId) (s : State) :
    StopsUnread s (execSenc d s) ∨ Raises s [.param, .range, .width] (execSenc d s) ∨
      ∃ xs, s.readTriples s.cfg.symInBase.toNat 0 s.cfg.symInCnt.toNat = .ok xs ∧
        (packTriples s.fieldWidths xs).length ≤ 16384 ∧
        execSenc d s = .next (s.setBuf d (packTriples s.fieldWidths xs)).completeOk := by
  unfold execSenc
  cases hf : s.fieldWidths.legal with
  | false => exact .inr (.inl (.of_settle s _ (by simp)))
  | true =>
    cases hr : s.inputRangeLegal 3 with
    | false => exact .inr (.inl (.of_settle s _ (by simp)))
    | true =>
      simp only [if_true]
      rcases s.readTriples_cases s.cfg.symInBase.toNat 0 s.cfg.symInCnt.toNat with ⟨e, h, he⟩ | ⟨xs, h, hl, -⟩
      · rw [h]
        rcases he with he | ⟨j, rfl⟩
        · exact .inl (.of_settle he)
        · exact .inr (.inl (.of_settle s _ (by simp)))
      · rw [h]
        exact .inr (.inr ⟨xs, rfl, packTriples_fits hf hr hl, rfl⟩)

@[simp] theorem length_words (xs : List Triple) : (xs.flatMap Triple.words).length = 3 * xs.length := by
  induction xs with
  | nil => rfl
  | cons x xs ih => simp only [List.flatMap_cons, List.length_append, ih, Triple.words, List.length_cons, List.length_nil]; omega

theorem execSdec_cases (k : BufId) (s : State) :
    StopsUnread s (execSdec k s) ∨ Raises s [.param, .capacity] (execSdec k s) ∨
      ∃ u all kept, s.buf k = .ok u ∧ all = unpackTriples s.fieldWidths u ∧ kept = all.filter s.knows ∧
        s.cfg.symOutBase.toNat + 3 * kept.length ≤ 1024 ∧
        execSdec k s = .next ((s.writeWords (symAddr s.cfg.symOutBase.toNat)
          (kept.flatMap Triple.words)).setTriplesDecoded kept.length (u.length % s.fieldWidths.total)
            (all.length - kept.length)).completeOk := by
  unfold execSdec
  cases hf : s.fieldWidths.legal with
  | false => simp only [hf]; exact .inr (.inl (.of_settle s _ (by simp)))
  | true =>
    simp only [hf, if_true]
    rcases s.buf_cases k with ⟨e, h, he⟩ | ⟨u, h, -, -⟩
    · rw [h]; exact .inl (.of_settle he)
    simp only [h, bind_ok_val]
    by_cases hl : s.cfg.symOutBase.toNat + 3 * ((unpackTriples s.fieldWidths u).filter s.knows).length ≤ 1024
    · rw [s.writeOutput_ok _ _ (by rw [length_words]; exact hl)]
      exact .inr (.inr ⟨u, _, _, rfl, rfl, rfl, hl, rfl⟩)
    · rw [s.writeOutput_capacity _ _ (by rw [length_words]; omega)]
      exact .inr (.inl (.of_settle s _ (by simp)))

/-! ## The channel, the repetition code and the corrector -/

@[simp] theorem length_transmit (seed : BitVec 32) (p : Nat) (k : BitVec 32) (u : Bits) :
    (transmit seed p k u).length = u.length := by
  induction u generalizing k with
  | nil => rfl
  | cons b u ih => simp [transmit, ih]

theorem execChan_cases (d k : BufId) (s : State) :
    StopsUnread s (execChan d k s) ∨ Raises s [.param] (execChan d k s) ∨
      ∃ u, s.buf k = .ok u ∧ s.cfg.prob.toNat ≤ 65536 ∧ u.length ≤ 16384 ∧
        execChan d k s = .next ((s.setBuf d (transmit s.cfg.seed s.cfg.prob.toNat s.drawIdx u)).advanceDraws
          u.length).completeOk := by
  unfold execChan
  by_cases hp : s.cfg.prob.toNat > 65536
  · simp only [hp, if_true]; exact .inr (.inl (.of_settle s _ (by simp)))
  · simp only [hp, if_false]
    rcases s.buf_cases k with ⟨e, h, he⟩ | ⟨u, h, -, hl⟩
    · rw [h]; exact .inl (.of_settle he)
    · rw [h]; exact .inr (.inr ⟨u, rfl, by omega, hl, rfl⟩)

@[simp] theorem length_repeatBits (r : Nat) (u : Bits) : (repeatBits r u).length = u.length * r := by
  induction u with
  | nil => simp [repeatBits]
  | cons b u ih =>
    simp only [repeatBits, List.flatMap_cons, List.length_append, List.length_replicate, List.length_cons] at *
    rw [ih, Nat.add_mul]; omega

theorem execRenc_cases (d k : BufId) (s : State) :
    StopsUnread s (execRenc d k s) ∨ Raises s [.param, .capacity] (execRenc d k s) ∨
      ∃ u, s.buf k = .ok u ∧ s.cfg.rep.toNat ≥ 1 ∧ (repeatBits s.cfg.rep.toNat u).length ≤ 16384 ∧
        execRenc d k s = .next (s.setBuf d (repeatBits s.cfg.rep.toNat u)).completeOk := by
  unfold execRenc
  by_cases hr : s.cfg.rep.toNat < 1
  · simp only [hr, if_true]; exact .inr (.inl (.of_settle s _ (by simp)))
  simp only [hr, if_false]
  rcases s.buf_cases k with ⟨e, h, he⟩ | ⟨u, h, -, -⟩
  · rw [h]; exact .inl (.of_settle he)
  simp only [h, bind_ok_val]
  by_cases hl : u.length * s.cfg.rep.toNat > 16384
  · simp only [hl, if_true]; exact .inr (.inl (.of_settle s _ (by simp)))
  · simp only [hl, if_false]
    exact .inr (.inr ⟨u, rfl, by omega, by rw [length_repeatBits]; omega, rfl⟩)

@[simp] theorem length_voteBits (r : Nat) (u : Bits) : (voteBits r u).length = u.length / r := by simp [voteBits]

theorem execRdec_cases (d k : BufId) (s : State) :
    StopsUnread s (execRdec d k s) ∨ Raises s [.param] (execRdec d k s) ∨
      ∃ u, s.buf k = .ok u ∧ s.cfg.rep.toNat ≥ 1 ∧ (voteBits s.cfg.rep.toNat u).length ≤ 16384 ∧
        execRdec d k s = .next ((s.setBuf d (voteBits s.cfg.rep.toNat u)).setResid
          (u.length % s.cfg.rep.toNat)).completeOk := by
  unfold execRdec
  by_cases hr : s.cfg.rep.toNat < 1
  · simp only [hr, if_true]; exact .inr (.inl (.of_settle s _ (by simp)))
  simp only [hr, if_false]
  rcases s.buf_cases k with ⟨e, h, he⟩ | ⟨u, h, -, hl⟩
  · rw [h]; exact .inl (.of_settle he)
  · rw [h]
    refine .inr (.inr ⟨u, rfl, by omega, ?_, rfl⟩)
    rw [length_voteBits]
    exact Nat.le_trans (Nat.div_le_self _ _) hl

theorem State.readEntry_unread {s : State} {j : Nat} {e : Stop} (h : s.readEntry j = .error e) : UnreadStop s e := by
  unfold State.readEntry at h
  rcases bind_eq_error h with h | ⟨_, -, h⟩
  · exact State.readWord_unread h
  · exact State.readWord_unread (map_eq_error h)

/-- Reading the entries stops at an unwritten word or raises WIDTH, and else gives as many vectors of `w` bits as asked
for. -/
theorem State.readEntries_cases (s : State) (w j n : Nat) :
    (∃ e, s.readEntries w j n = .error e ∧ (UnreadStop s e ∨ ∃ i, e = .raised .width i)) ∨
      ∃ es, s.readEntries w j n = .ok es ∧ es.length = n ∧ ∀ e ∈ es, e.length = w := by
  induction n generalizing j with
  | zero => exact .inr ⟨[], rfl, rfl, by simp⟩
  | succ n ih =>
    simp only [State.readEntries]
    cases hx : s.readEntry j with
    | error e => exact .inl ⟨e, rfl, .inl (State.readEntry_unread hx)⟩
    | ok x =>
      simp only [bind_ok_val]
      by_cases hf : x ≥ 2 ^ w
      · simp only [hf, if_true]; exact .inl ⟨_, rfl, .inr ⟨_, rfl⟩⟩
      · simp only [hf, if_false]
        rcases ih (j + 1) with ⟨e, h, he⟩ | ⟨es, h, hl, ha⟩
        · exact .inl ⟨e, by rw [h]; rfl, he⟩
        · refine .inr ⟨bitsOf w x :: es, by rw [h]; rfl, by simp [hl], fun y hy => ?_⟩
          rcases List.mem_cons.mp hy with rfl | hy
          · simp
          · exact ha y hy

/-- The scan returns its starting best or one of the entries. -/
theorem scanEntries_entry (u : Bits) (best : Nearest) (j : Nat) (es : List Bits) :
    (scanEntries u best j es).entry = best.entry ∨ (scanEntries u best j es).entry ∈ es := by
  induction es generalizing best j with
  | nil => exact .inl rfl
  | cons e es ih =>
    simp only [scanEntries]
    rcases ih (if hammingDist u e < best.dist then { idx := j, dist := hammingDist u e, entry := e } else best)
      (j + 1) with h | h
    · by_cases hd : hammingDist u e < best.dist
      · rw [if_pos hd] at h ⊢; exact .inr (by rw [h]; simp)
      · rw [if_neg hd] at h ⊢; exact .inl h
    · exact .inr (List.mem_cons_of_mem _ h)

theorem nearestEntry_entry {u : Bits} {es : List Bits} {n : Nearest} (h : nearestEntry u es = some n) :
    n.entry ∈ es := by
  cases es with
  | nil => cases h
  | cons e es =>
    cases h
    rcases scanEntries_entry u { idx := 0, dist := hammingDist u e, entry := e } 1 es with h | h
    · rw [h]; simp
    · exact List.mem_cons_of_mem _ h

theorem execCorr_cases (d k : BufId) (s : State) :
    StopsUnread s (execCorr d k s) ∨ Raises s [.param, .emptyCb, .width] (execCorr d k s) ∨
      ∃ u es n, s.buf k = .ok u ∧ s.readEntries s.cfg.cbW.toNat 0 s.cfg.cbN.toNat = .ok es ∧
        nearestEntry u es = some n ∧ n.entry.length ≤ 64 ∧
        execCorr d k s = .next ((s.setBuf d n.entry).setCorrected n).completeOk := by
  unfold execCorr
  by_cases hw : s.cfg.cbW.toNat < 1 ∨ s.cfg.cbW.toNat > 64
  · simp only [hw, if_true]; exact .inr (.inl (.of_settle s _ (by simp)))
  simp only [hw, if_false]
  by_cases hn : s.cfg.cbN.toNat > 1024
  · simp only [hn, if_true]; exact .inr (.inl (.of_settle s _ (by simp)))
  simp only [hn, if_false]
  by_cases h0 : s.cfg.cbN.toNat = 0
  · simp only [h0, if_true]; exact .inr (.inl (.of_settle s _ (by simp)))
  simp only [h0, if_false]
  rcases s.buf_cases k with ⟨e, h, he⟩ | ⟨u, h, -, -⟩
  · rw [h]; exact .inl (.of_settle he)
  simp only [h, bind_ok_val]
  by_cases hl : u.length ≠ s.cfg.cbW.toNat
  · rw [if_pos hl]; exact .inr (.inl (.of_settle s _ (by simp)))
  rw [if_neg hl]
  rcases s.readEntries_cases s.cfg.cbW.toNat 0 s.cfg.cbN.toNat with ⟨e, h', he⟩ | ⟨es, h', hes, ha⟩
  · rw [h']
    rcases he with he | ⟨j, rfl⟩
    · exact .inl (.of_settle he)
    · exact .inr (.inl (.of_settle s _ (by simp)))
  · simp only [h', bind_ok_val]
    cases hb : nearestEntry u es with
    | none => exact .inr (.inl (.of_settle s _ (by simp)))
    | some n =>
      refine .inr (.inr ⟨u, es, n, rfl, rfl, hb, ?_, rfl⟩)
      rw [ha _ (nearestEntry_entry hb)]
      omega

end Sys2Proof.Machine
end

