-- ==== Sys2Proof/Laws/Huffman.lean ====
section
/-! SUPPORT. The Huffman tree: its leaves are the present symbols, its paths are free of prefixes, its arena and the CODE
cells hold what R234 and R55 say. -/

namespace Sys2Proof.Machine

/-! ## Leaves -/

/-- The symbols of a tree's leaves, from left to right. -/
def HuffTree.symbols (t : HuffTree) : List Nat := t.codes.map (·.1)

@[simp] theorem HuffTree.symbols_leaf (k : Nat) : (HuffTree.leaf k).symbols = [k] := rfl
@[simp] theorem HuffTree.symbols_node (t0 t1 : HuffTree) :
    (HuffTree.node t0 t1).symbols = t0.symbols ++ t1.symbols := by
  simp [HuffTree.symbols, HuffTree.codes, Function.comp_def]
@[simp] theorem HuffTree.symbols_single (t0 : HuffTree) : (HuffTree.single t0).symbols = t0.symbols := by
  simp [HuffTree.symbols, HuffTree.codes, Function.comp_def]

/-- A tree with no absent branch, as the merges build it (R232). -/
def HuffTree.full : HuffTree → Prop
  | .leaf _ => True
  | .node t0 t1 => t0.full ∧ t1.full
  | .single _ => False

theorem HuffTree.symbols_pos (t : HuffTree) : 1 ≤ t.symbols.length := by
  induction t with
  | leaf k => simp
  | node t0 t1 h0 h1 => simp; omega
  | single t0 h0 => simpa using h0

/-- A full tree with n leaves has 2n-1 nodes (R232). -/
theorem HuffTree.size_full {t : HuffTree} (h : t.full) : t.size + 1 = 2 * t.symbols.length := by
  induction t with
  | leaf k => rfl
  | node t0 t1 h0 h1 =>
    have := h0 h.1
    have := h1 h.2
    simp [HuffTree.size]; omega
  | single t0 _ => exact absurd h id

/-- A leaf of a full tree with n leaves is at depth at most n-1 (R10). -/
theorem HuffTree.path_length_full {t : HuffTree} (h : t.full) :
    ∀ c ∈ t.codes, c.2.length + 1 ≤ t.symbols.length := by
  induction t with
  | leaf k => simp [HuffTree.codes]
  | node t0 t1 h0 h1 =>
    intro c hc
    have p0 := t0.symbols_pos
    have p1 := t1.symbols_pos
    simp only [HuffTree.codes, List.mem_append, List.mem_map] at hc
    rcases hc with ⟨d, hd, rfl⟩ | ⟨d, hd, rfl⟩
    · have := h0 h.1 d hd; simp; omega
    · have := h1 h.2 d hd; simp; omega
  | single t0 _ => exact absurd h id

theorem leavesFrom_length_le (k : Nat) (ws : List Word) : (leavesFrom k ws).length ≤ ws.length := by
  induction ws generalizing k with
  | nil => simp [leavesFrom]
  | cons w ws ih =>
    have := ih (k + 1)
    unfold leavesFrom
    split <;> simp <;> omega

theorem mem_leavesFrom {k : Nat} {ws : List Word} {x f : Nat} :
    (x, f) ∈ leavesFrom k ws ↔ ∃ j w, x = k + j ∧ ws[j]? = some w ∧ w.toNat = f ∧ f ≠ 0 := by
  induction ws generalizing k with
  | nil => simp [leavesFrom]
  | cons w ws ih =>
    have step : (∃ j v, x = k + j ∧ (w :: ws)[j]? = some v ∧ v.toNat = f ∧ f ≠ 0) ↔
        (x = k ∧ w.toNat = f ∧ f ≠ 0) ∨ (x, f) ∈ leavesFrom (k + 1) ws := by
      rw [ih]
      constructor
      · rintro ⟨j, v, rfl, hv, hf⟩
        cases j with
        | zero => simp at hv; subst hv; exact .inl ⟨by omega, hf⟩
        | succ j => exact .inr ⟨j, v, by omega, by simpa using hv, hf⟩
      · rintro (⟨rfl, hf⟩ | ⟨j, v, rfl, hv, hf⟩)
        · exact ⟨0, w, by omega, by simp, hf⟩
        · exact ⟨j + 1, v, by omega, by simpa using hv, hf⟩
    rw [step]
    simp only [leavesFrom]
    split
    · rename_i h0
      constructor
      · exact .inr
      · rintro (⟨-, h1, h2⟩ | h)
        · omega
        · exact h
    · rename_i h0
      simp only [List.mem_cons, Prod.mk.injEq]
      constructor
      · rintro (⟨rfl, rfl⟩ | h)
        · exact .inl ⟨rfl, rfl, h0⟩
        · exact .inr h
      · rintro (⟨rfl, rfl, -⟩ | h)
        · exact .inl ⟨rfl, rfl⟩
        · exact .inr h

theorem leavesFrom_sorted (k : Nat) (ws : List Word) :
    ((leavesFrom k ws).map (·.1)).Pairwise (· < ·) ∧ ∀ x ∈ (leavesFrom k ws).map (·.1), k ≤ x := by
  induction ws generalizing k with
  | nil => simp [leavesFrom]
  | cons w ws ih =>
    obtain ⟨h1, h2⟩ := ih (k + 1)
    unfold leavesFrom
    split
    · exact ⟨h1, fun x hx => by have := h2 x hx; omega⟩
    · simp only [List.map_cons, List.pairwise_cons, List.mem_cons]
      refine ⟨⟨fun x hx => by have := h2 x hx; omega, h1⟩, ?_⟩
      rintro x (rfl | hx)
      · exact Nat.le_refl _
      · have := h2 x hx; omega

theorem leavesFrom_nodup (k : Nat) (ws : List Word) : ((leavesFrom k ws).map (·.1)).Nodup :=
  (leavesFrom_sorted k ws).1.imp (fun h => Nat.ne_of_lt h)

/-! ## The queue -/

/-- The symbols held in a queue. -/
def queueSymbols (q : List QueueEntry) : List Nat := q.flatMap (·.tree.symbols)

theorem queueInsert_perm (e : QueueEntry) (q : List QueueEntry) : (queueInsert e q).Perm (e :: q) := by
  induction q with
  | nil => exact .refl _
  | cons x q ih =>
    unfold queueInsert
    split
    · exact .refl _
    · exact (List.Perm.cons x ih).trans (List.Perm.swap e x q)

theorem foldr_queueInsert_perm (es : List QueueEntry) : (es.foldr queueInsert []).Perm es := by
  induction es with
  | nil => exact .refl _
  | cons e es ih => exact (queueInsert_perm e _).trans (List.Perm.cons e ih)

theorem queueSymbols_leafEntries (o : Nat) (ls : List (Nat × Nat)) :
    queueSymbols (leafEntries o ls) = ls.map (·.1) := by
  induction ls generalizing o with
  | nil => rfl
  | cons l ls ih =>
    obtain ⟨k, f⟩ := l
    have := ih (o + 1)
    simp only [queueSymbols] at this
    simp [leafEntries, queueSymbols, this]

theorem length_leafEntries (o : Nat) (ls : List (Nat × Nat)) : (leafEntries o ls).length = ls.length := by
  induction ls generalizing o with
  | nil => rfl
  | cons l ls ih => simp [leafEntries, ih]

theorem leafEntries_full (o : Nat) (ls : List (Nat × Nat)) : ∀ e ∈ leafEntries o ls, e.tree.full := by
  induction ls generalizing o with
  | nil => simp [leafEntries]
  | cons l ls ih =>
    intro e he
    rcases List.mem_cons.mp he with rfl | he
    · trivial
    · exact ih _ e he

/-- n merges of a queue longer than n leave its symbols, n entries fewer, and full trees (R232). -/
theorem mergeQueue_spec (n k : Nat) (q : List QueueEntry) (hn : n < q.length) (hf : ∀ e ∈ q, e.tree.full) :
    (queueSymbols (mergeQueue n k q)).Perm (queueSymbols q) ∧ (mergeQueue n k q).length + n = q.length ∧
      ∀ e ∈ mergeQueue n k q, e.tree.full := by
  induction n generalizing k q with
  | zero => cases q <;> exact ⟨.refl _, rfl, hf⟩
  | succ n ih =>
    match q, hn with
    | [e], h => simp at h
    | e1 :: e2 :: q, h =>
      let m : QueueEntry := { freq := e1.freq + e2.freq, order := k, tree := .node e1.tree e2.tree }
      have hp := queueInsert_perm m q
      have hl : (queueInsert m q).length = q.length + 1 := by simpa using hp.length_eq
      obtain ⟨h1, h2, h3⟩ := ih (k + 1) (queueInsert m q) (by simp at h; omega) (fun e he => by
        rcases List.mem_cons.mp (hp.mem_iff.mp he) with rfl | he
        · exact ⟨hf e1 (by simp), hf e2 (by simp)⟩
        · exact hf e (by simp [he]))
      refine ⟨h1.trans ((hp.flatMap_right _).trans ?_), by
        show (mergeQueue n (k + 1) (queueInsert m q)).length + (n + 1) = q.length + 2
        omega, h3⟩
      simp [queueSymbols, m]

/-- What HBUILD's tree is: the leaves are the present symbols, and it is either full or the single-symbol tree (R232,
R233). -/
theorem buildTree_spec {leaves : List (Nat × Nat)} {t : HuffTree} (h : buildTree leaves = some t) :
    t.symbols.Perm (leaves.map (·.1)) ∧
      ((2 ≤ leaves.length ∧ t.full) ∨ ∃ k f, leaves = [(k, f)] ∧ t = .single (.leaf k)) := by
  match leaves, h with
  | [(k, f)], h => cases h; exact ⟨by simp, .inr ⟨k, f, rfl, rfl⟩⟩
  | l1 :: l2 :: ls, h =>
    let leaves := l1 :: l2 :: ls
    let q := (leafEntries 0 leaves).foldr queueInsert []
    have hq : q.Perm (leafEntries 0 leaves) := foldr_queueInsert_perm _
    have hl : q.length = leaves.length := by rw [hq.length_eq, length_leafEntries]
    have hf : ∀ e ∈ q, e.tree.full := fun e he => leafEntries_full 0 leaves e (hq.mem_iff.mp he)
    obtain ⟨h1, h2, h3⟩ := mergeQueue_spec (leaves.length - 1) leaves.length q
      (by rw [hl]; simp [leaves]) hf
    have h' : ((mergeQueue (leaves.length - 1) leaves.length q).head?).map (·.tree) = some t := h
    match hm : mergeQueue (leaves.length - 1) leaves.length q with
    | [] => rw [hm] at h'; cases h'
    | e :: r =>
      rw [hm] at h' h1 h2 h3
      have hr : r = [] := by
        apply List.eq_nil_of_length_eq_zero
        rw [hl] at h2
        simp [leaves] at h2
        omega
      subst hr
      have ht : e.tree = t := by simpa using h'
      subst ht
      refine ⟨?_, .inl ⟨by simp, h3 e (by simp)⟩⟩
      have h4 : (queueSymbols q).Perm (leaves.map (·.1)) := by
        have := hq.flatMap_right (fun e : QueueEntry => e.tree.symbols)
        rw [show (leafEntries 0 leaves).flatMap (fun e => e.tree.symbols) = queueSymbols (leafEntries 0 leaves) from rfl,
          queueSymbols_leafEntries] at this
        exact this
      have h5 := h1.trans h4
      simp only [queueSymbols, List.flatMap_cons, List.flatMap_nil, List.append_nil] at h5
      exact h5

/-- The numbers of HBUILD's tree over n leaves: n of 1..256 leaves gives 2 or 2n-1 nodes, at most 511, and paths of 1 to
255 bits (R10, R235). -/
theorem buildTree_bounds {leaves : List (Nat × Nat)} {t : HuffTree} (h : buildTree leaves = some t)
    (hn : leaves.length ≤ 256) :
    t.size ≤ 511 ∧ ∀ c ∈ t.codes, 1 ≤ c.2.length ∧ c.2.length ≤ 255 := by
  obtain ⟨hp, ⟨h2, hf⟩ | ⟨k, f, rfl, rfl⟩⟩ := buildTree_spec h
  · have hl : t.symbols.length = leaves.length := by simpa using hp.length_eq
    have hs := HuffTree.size_full hf
    refine ⟨by omega, fun c hc => ⟨?_, ?_⟩⟩
    · cases t with
      | leaf k => simp [HuffTree.symbols, HuffTree.codes] at hl; omega
      | node t0 t1 =>
        simp only [HuffTree.codes, List.mem_append, List.mem_map] at hc
        rcases hc with ⟨d, -, rfl⟩ | ⟨d, -, rfl⟩ <;> simp
      | single t0 => exact absurd hf id
    · have := HuffTree.path_length_full hf c hc; omega
  · exact ⟨by simp [HuffTree.size], fun c hc => by simp [HuffTree.codes] at hc; subst hc; simp⟩

theorem foldr_max_le {α : Type} (f : α → Nat) (l : List α) (b : Nat) (h : ∀ c ∈ l, f c ≤ b) :
    l.foldr (fun c n => max (f c) n) 0 ≤ b := by
  induction l with
  | nil => simp
  | cons c l ih =>
    have h1 := h c (by simp)
    have h2 := ih (fun d hd => h d (by simp [hd]))
    simp only [List.foldr_cons]
    exact Nat.max_le.mpr ⟨h1, h2⟩

theorem HuffTree.maxLen_le {t : HuffTree} {b : Nat} (h : ∀ c ∈ t.codes, c.2.length ≤ b) : t.maxLen ≤ b :=
  foldr_max_le (fun c : Nat × Bits => c.2.length) t.codes b h

/-! ## Codewords -/

theorem lookup_eq_some_of_mem {l : List (Nat × Bits)} (hn : (l.map (·.1)).Nodup) {k : Nat} {u : Bits}
    (h : (k, u) ∈ l) : l.lookup k = some u := by
  induction l with
  | nil => cases h
  | cons c l ih =>
    obtain ⟨x, v⟩ := c
    simp only [List.map_cons, List.nodup_cons] at hn
    rcases List.mem_cons.mp h with heq | hm
    · cases heq; simp
    · have hne : k ≠ x := by
        rintro rfl
        exact hn.1 (List.mem_map.mpr ⟨(k, u), hm, rfl⟩)
      rw [List.lookup_cons, beq_eq_false_iff_ne.mpr hne]
      exact ih hn.2 hm

theorem mem_of_lookup_eq_some {l : List (Nat × Bits)} {k : Nat} {u : Bits} (h : l.lookup k = some u) :
    (k, u) ∈ l := by
  induction l with
  | nil => cases h
  | cons c l ih =>
    obtain ⟨x, v⟩ := c
    by_cases hx : k = x
    · subst hx; simp at h; subst h; simp
    · rw [List.lookup_cons, beq_eq_false_iff_ne.mpr hx] at h
      exact List.mem_cons_of_mem _ (ih h)

/-- A nonempty codeword is the path of a leaf. -/
theorem HuffTree.codeword_mem {t : HuffTree} {k : Nat} (h : t.codeword k ≠ []) : (k, t.codeword k) ∈ t.codes := by
  unfold HuffTree.codeword at *
  cases hl : t.codes.lookup k with
  | none => rw [hl] at h; exact absurd rfl h
  | some u => exact mem_of_lookup_eq_some hl

/-- Of two paths of a tree, one is a beginning of the other only if they end at the same leaf (R237). -/
theorem HuffTree.codes_prefix {t : HuffTree} {x y : Nat} {u v : Bits} (hu : (x, u) ∈ t.codes)
    (hv : (y, v) ∈ t.codes) (h : u <+: v) : x = y ∧ u = v := by
  induction t generalizing u v with
  | leaf k =>
    simp [HuffTree.codes] at hu hv
    exact ⟨by omega, by rw [hu.2, hv.2]⟩
  | node t0 t1 h0 h1 =>
    simp only [HuffTree.codes, List.mem_append, List.mem_map, Prod.mk.injEq] at hu hv
    rcases hu with ⟨⟨x', u'⟩, hu', rfl, rfl⟩ | ⟨⟨x', u'⟩, hu', rfl, rfl⟩ <;>
      rcases hv with ⟨⟨y', v'⟩, hv', rfl, rfl⟩ | ⟨⟨y', v'⟩, hv', rfl, rfl⟩ <;>
      simp only [List.cons_prefix_cons] at h
    · obtain ⟨rfl, rfl⟩ := h0 hu' hv' h.2; exact ⟨rfl, rfl⟩
    · exact absurd h.1 (by decide)
    · exact absurd h.1 (by decide)
    · obtain ⟨rfl, rfl⟩ := h1 hu' hv' h.2; exact ⟨rfl, rfl⟩
  | single t0 h0 =>
    simp only [HuffTree.codes, List.mem_map, Prod.mk.injEq] at hu hv
    obtain ⟨⟨x', u'⟩, hu', rfl, rfl⟩ := hu
    obtain ⟨⟨y', v'⟩, hv', rfl, rfl⟩ := hv
    simp only [List.cons_prefix_cons] at h
    obtain ⟨rfl, rfl⟩ := h0 hu' hv' h.2; exact ⟨rfl, rfl⟩

/-! ## The arena and the CODE cells -/

@[simp] theorem HuffTree.length_arena (t : HuffTree) (i : Nat) : (t.arena i).length = t.size := by
  induction t generalizing i with
  | leaf k => rfl
  | node t0 t1 h0 h1 => simp [HuffTree.arena, HuffTree.size, h0, h1]; omega
  | single t0 h0 => simp [HuffTree.arena, HuffTree.size, h0]; omega

theorem HuffTree.size_pos (t : HuffTree) : 1 ≤ t.size := by cases t <;> simp only [HuffTree.size] <;> omega

@[simp] theorem HuffTree.length_trieWords (t : HuffTree) : t.trieWords.length = 511 := by
  rw [HuffTree.trieWords, List.length_take, List.length_append, List.length_replicate]
  exact Nat.min_eq_left (by simp only [Config.trieDepth]; omega)

/-- TRIE[i] is node i's word, and zero past the nodes (R234). -/
theorem HuffTree.getElem?_trieWords (t : HuffTree) (i : Nat) (h : i < 511) :
    t.trieWords[i]? = some ((t.arena 0).getD i 0) := by
  unfold HuffTree.trieWords
  rw [List.getElem?_take_of_lt h]
  by_cases hi : i < (t.arena 0).length
  · rw [List.getElem?_append_left hi]
    simp [List.getD_eq_getElem?_getD, List.getElem?_eq_getElem hi]
  · rw [List.getElem?_append_right (by omega), List.getElem?_replicate_of_lt (by simp; omega)]
    simp [List.getD_eq_getElem?_getD, List.getElem?_eq_none (Nat.not_lt.mp hi)]

@[simp] theorem length_codeEntryWords (p : Bits) : (codeEntryWords p).length = 9 := by simp [codeEntryWords]

theorem HuffTree.mem_codeCells {t : HuffTree} {k n : Nat} {c : MemCell} (h : c ∈ t.codeCells k n) :
    codeAddr k ≤ c.1 ∧ c.1 < codeAddr (k + n) ∧ c.1 % 4 = 0 ∧ c.1 % 64 < 0x24 := by
  induction n generalizing k with
  | zero => cases h
  | succ n ih =>
    rcases List.mem_append.mp h with h | h
    · have := mem_cellsAt h
      rw [length_codeEntryWords] at this
      unfold codeAddr at *
      omega
    · have := ih h
      unfold codeAddr at *
      omega

theorem HuffTree.codeCells_sorted (t : HuffTree) (k n : Nat) :
    (t.codeCells k n).Pairwise (fun c d => c.1 < d.1) := by
  induction n generalizing k with
  | zero => exact List.Pairwise.nil
  | succ n ih =>
    refine List.pairwise_append.mpr ⟨cellsAt_sorted _ _, ih (k + 1), fun c hc d hd => ?_⟩
    have h1 := mem_cellsAt hc
    rw [length_codeEntryWords] at h1
    have h2 := mem_codeCells hd
    unfold codeAddr at *
    omega

/-- Word j of the CODE entry of symbol x (R55). -/
theorem HuffTree.lookup_codeCells (t : HuffTree) (k n x j : Nat) (hx : k ≤ x) (hx' : x < k + n) (hj : j < 9) :
    (t.codeCells k n).lookup (codeAddr x + 4 * j) = (codeEntryWords (t.codeword x))[j]? := by
  induction n generalizing k with
  | zero => omega
  | succ n ih =>
    simp only [HuffTree.codeCells, List.lookup_append]
    by_cases h : x = k
    · subst h
      rw [lookup_cellsAt, List.getElem?_eq_getElem (by simpa using hj)]
      rfl
    · rw [lookup_none_of_outside (cellsAt_bounds _ _)
        (by rw [length_codeEntryWords]; unfold codeAddr; omega), ih (k + 1) (by omega) (by omega)]
      rfl

theorem codeCells_bounds (t : HuffTree) :
    ∀ c ∈ t.codeCells 0 256, codeAddr 0 ≤ c.1 ∧ c.1 < codeAddr 256 := fun c hc => by
  have := HuffTree.mem_codeCells hc
  exact ⟨this.1, by simpa using this.2.1⟩

theorem trie_range (t : HuffTree) : trieAddr 0 + 4 * t.trieWords.length = 0x027FC := by
  rw [HuffTree.length_trieWords]; rfl

/-- Word j of CODE entry x after HBUILD's write. -/
theorem Memory.read_writeTable_code (m : Memory) (t : HuffTree) (x j : Nat) (hx : x < 256) (hj : j < 9) :
    (m.writeTable t).read (codeAddr x + 4 * j) = (codeEntryWords (t.codeword x))[j]? := by
  unfold Memory.writeTable
  rw [Memory.read_writeWords_outside _ _ _ _ (by rw [trie_range]; unfold codeAddr; omega),
    Memory.read_replace _ _ _ _ (codeCells_bounds t), if_pos (by simp only [codeAddr]; omega)]
  exact t.lookup_codeCells 0 256 x j (by omega) (by omega) hj

/-- TRIE word i after HBUILD's write. -/
theorem Memory.read_writeTable_trie (m : Memory) (t : HuffTree) (i : Nat) (h : i < 511) :
    (m.writeTable t).read (trieAddr i) = some ((t.arena 0).getD i 0) := by
  unfold Memory.writeTable
  rw [show trieAddr i = trieAddr 0 + 4 * i by unfold trieAddr; omega,
    Memory.read_writeWords_inside _ _ _ _ (by simpa using h), t.getElem?_trieWords i h]

/-- HBUILD's write reads alike on CODE and TRIE whatever memory it was made on. -/
theorem Memory.read_writeTable_table (m m' : Memory) (t : HuffTree) (a : Nat)
    (h : (0x02000 ≤ a ∧ a < 0x027FC) ∨ (0x10000 ≤ a ∧ a < 0x14000)) :
    (m.writeTable t).read a = (m'.writeTable t).read a := by
  have ht := trie_range t
  unfold Memory.writeTable
  rcases h with h | h
  · unfold Memory.writeWords
    rw [Memory.read_replace _ _ _ _ (cellsAt_bounds _ _), Memory.read_replace _ _ _ _ (cellsAt_bounds _ _), ht,
      if_pos (by unfold trieAddr; omega), if_pos (by unfold trieAddr; omega)]
  · rw [Memory.read_writeWords_outside _ _ _ _ (by rw [ht]; omega),
      Memory.read_writeWords_outside _ _ _ _ (by rw [ht]; omega),
      Memory.read_replace _ _ _ _ (codeCells_bounds t), Memory.read_replace _ _ _ _ (codeCells_bounds t),
      if_pos (by simp only [codeAddr]; omega), if_pos (by simp only [codeAddr]; omega)]

/-- HBUILD's write leaves every word outside CODE and TRIE alone. -/
theorem Memory.read_writeTable_outside (m : Memory) (t : HuffTree) (a : Nat)
    (h1 : a < 0x02000 ∨ 0x027FC ≤ a) (h2 : a < 0x10000 ∨ 0x14000 ≤ a) : (m.writeTable t).read a = m.read a := by
  have ht := trie_range t
  unfold Memory.writeTable
  rw [Memory.read_writeWords_outside _ _ _ _ (by rw [ht]; unfold trieAddr; omega),
    Memory.read_replace _ _ _ _ (codeCells_bounds t), if_neg (by simp only [codeAddr]; omega)]

theorem Memory.wf_writeTable {m : Memory} (hm : m.wf) (t : HuffTree) : (m.writeTable t).wf := by
  unfold Memory.writeTable
  refine Memory.wf_writeWords (Memory.wf_replace hm (by unfold codeAddr; omega) (t.codeCells_sorted 0 256)
    (codeCells_bounds t) (fun c hc => ?_)) rfl (fun b h1 h2 h3 => ?_)
  · have := HuffTree.mem_codeCells hc
    refine ⟨this.2.2.1, ?_⟩
    unfold codeAddr at this
    unfold windowAt
    repeat' split
    all_goals first | exact Option.some_ne_none _ | (simp only [Config.nsym] at this; omega)
  · rw [trie_range] at h2
    unfold trieAddr at h1
    unfold windowAt
    repeat' split
    all_goals first | exact Option.some_ne_none _ | omega

end Sys2Proof.Machine
end

