-- ==== Sys2Proof/Laws/Regs.lean ====
section
/-! SUPPORT. The bus address map: registers and windows lie apart, each register is found at its address. -/

namespace Sys2Proof.Machine

theorem regAt_addr (r : Reg) : regAt r.addr = some r := by
  cases r with
  | len b => cases b <;> rfl
  | _ => rfl

theorem mem_allRegs (r : Reg) : r ∈ allRegs := by
  cases r with
  | len b => cases b <;> decide
  | _ => decide

theorem regAt_some {a : Nat} {r : Reg} (h : regAt a = some r) : r.addr = a := by
  have := List.find?_some h
  simpa using this

theorem regAt_none {a : Nat} (h : ∀ r : Reg, r.addr ≠ a) : regAt a = none := by
  unfold regAt
  rw [List.find?_eq_none]
  intro r _
  simpa using h r

theorem Reg.addr_lt (r : Reg) : r.addr < 0x1000 := by
  cases r with
  | len b => cases b <;> decide
  | _ => decide

theorem Reg.addr_aligned (r : Reg) : r.addr % 4 = 0 := by
  cases r with
  | len b => cases b <;> rfl
  | _ => rfl

theorem Reg.addr_injective {r q : Reg} (h : r.addr = q.addr) : r = q := by
  have h1 := regAt_addr r
  rw [h, regAt_addr q] at h1
  exact (Option.some.inj h1).symm

theorem regAt_of_window {a : Nat} {v : Window} (h : windowAt a = some v) : regAt a = none := by
  apply regAt_none
  intro r hr
  have := r.addr_lt
  unfold windowAt at h
  repeat' split at h
  all_goals first | omega | cases h

theorem placeAt_reg (r : Reg) : placeAt r.addr = .reg r := by simp [placeAt, regAt_addr]

theorem placeAt_of_window {a : Nat} {v : Window} (h : windowAt a = some v) : placeAt a = .mem v := by
  simp [placeAt, regAt_of_window h, h]

/-- A bus address names a register at its address, a window word, or nothing: everything `placeAt` can answer. -/
theorem placeAt_cases (a : Nat) :
    (∃ r, placeAt a = .reg r ∧ r.addr = a) ∨ (∃ v, placeAt a = .mem v ∧ windowAt a = some v) ∨
      (placeAt a = .reserved ∧ windowAt a = none ∧ ∀ r : Reg, r.addr ≠ a) := by
  unfold placeAt
  cases hr : regAt a with
  | some r => exact .inl ⟨r, rfl, regAt_some hr⟩
  | none =>
    have hn : ∀ r : Reg, r.addr ≠ a := by
      rintro r rfl
      rw [regAt_addr] at hr
      cases hr
    cases hw : windowAt a with
    | some v => exact .inr (.inl ⟨v, rfl, rfl⟩)
    | none => exact .inr (.inr ⟨rfl, rfl, hn⟩)

theorem windowAt_bufAddr (b : BufId) (m : Nat) (h : m < 512) : windowAt (bufAddr b m) = some .readWrite := by
  have h1 : 0x20000 ≤ bufAddr b m ∧ bufAddr b m < 0x22000 ∧ bufAddr b m % 4 = 0 := by
    unfold bufAddr; cases b <;> simp only [BufId.field] <;> omega
  unfold windowAt
  repeat' split
  all_goals first | rfl | omega

theorem windowAt_readOnly {a : Nat} (h : windowAt a = some .readOnly) :
    (0x02000 ≤ a ∧ a < 0x027FC) ∨ (0x10000 ≤ a ∧ a < 0x14000) := by
  unfold windowAt at h
  repeat' split at h
  all_goals first | omega | cases h

theorem windowAt_readWrite {a : Nat} (h : windowAt a = some .readWrite) :
    ¬ ((0x02000 ≤ a ∧ a < 0x027FC) ∨ (0x10000 ≤ a ∧ a < 0x14000)) := by
  unfold windowAt at h
  repeat' split at h
  all_goals first | omega | cases h

/-! ## Register words, bit by bit -/

/-- STATUS bit by bit (R40). -/
theorem Status.getLsbD_word (st : Status) (i : Nat) : st.word.getLsbD i =
    if i = 0 then st.busy else if i = 1 then st.done else if i = 2 then st.err else if i = 3 then st.ovr
    else if i = 4 then st.tblv else if i < 8 then false else if i < 16 then st.errcode.value.getLsbD (i - 8)
    else if i < 24 then st.lastop.getLsbD (i - 16) else false := by
  change BitVec.getLsbD (w := 8 + 8 + 8 + 3 + 1 + 1 + 1 + 1 + 1) (0#8 ++ st.lastop ++ st.errcode.value ++ 0#3
    ++ BitVec.ofBool st.tblv ++ BitVec.ofBool st.ovr ++ BitVec.ofBool st.err ++ BitVec.ofBool st.done
    ++ BitVec.ofBool st.busy) i = _
  by_cases h : i < 5
  · obtain rfl | rfl | rfl | rfl | rfl : i = 0 ∨ i = 1 ∨ i = 2 ∨ i = 3 ∨ i = 4 := by omega
    all_goals simp only [BitVec.getLsbD_append, BitVec.getLsbD_ofBool]; simp
  · simp only [BitVec.getLsbD_append (m := 1)]
    repeat rw [if_neg (by omega)]
    simp only [BitVec.getLsbD_append, BitVec.getLsbD_zero]
    repeat' split
    all_goals first
      | rfl
      | omega

/-- A concatenation as a number. -/
theorem toNat_append_add {m n : Nat} (x : BitVec m) (y : BitVec n) : (x ++ y).toNat = x.toNat * 2 ^ n + y.toNat := by
  rw [BitVec.toNat_append, ← Nat.shiftLeft_add_eq_or_of_lt y.isLt, Nat.shiftLeft_eq]

/-- STATUS as a number: each field at its place (R40). -/
theorem Status.toNat_word (st : Status) : st.word.toNat =
    st.busy.toNat + 2 * st.done.toNat + 4 * st.err.toNat + 8 * st.ovr.toNat + 16 * st.tblv.toNat
      + 0x100 * st.errcode.value.toNat + 0x10000 * st.lastop.toNat := by
  unfold Status.word
  simp only [toNat_append_add, BitVec.toNat_ofBool, BitVec.toNat_ofNat]
  omega

/-- SEMW bit by bit (R48). -/
theorem ConfigRegs.getLsbD_semwWord (c : ConfigRegs) (i : Nat) : c.semwWord.getLsbD i =
    if i < 5 then c.semWh.getLsbD i else if i < 8 then false else if i < 13 then c.semWr.getLsbD (i - 8)
    else if i < 16 then false else if i < 21 then c.semWt.getLsbD (i - 16) else false := by
  change BitVec.getLsbD (w := 11 + 5 + 3 + 5 + 3 + 5) (0#11 ++ c.semWt ++ 0#3 ++ c.semWr ++ 0#3 ++ c.semWh) i = _
  simp only [BitVec.getLsbD_append, BitVec.getLsbD_zero]
  repeat' split
  all_goals first
    | rfl
    | omega

end Sys2Proof.Machine
end

