-- ==== Sys2Proof/Laws/Invariant.lean ====
section
/-! SUPPORT. Which memory operations keep the canonical form and the code table. -/

namespace Sys2Proof.Machine

theorem State.wf_setBuf {s : State} (h : s.mem.wf) (b : BufId) (v : Bits) : (s.setBuf b v).mem.wf := by
  refine Memory.wf_writeWords h (by unfold bufAddr; cases b <;> simp only [BufId.field])
    (fun a h1 h2 h3 => ?_)
  have : 0x20000 ≤ a ∧ a < 0x22000 := by
    rw [length_packWords] at h2
    unfold bufAddr at h1 h2
    cases b <;> simp only [BufId.field, Config.bufWords] at h1 h2 <;> omega
  unfold windowAt
  repeat' split
  all_goals exact Option.some_ne_none _

/-- SYM words within SYM_DEPTH keep the canonical form. -/
theorem State.wf_writeSym {s : State} (h : s.mem.wf) (b : Nat) (ws : List Word) (hr : b + ws.length ≤ 1024) :
    (s.writeWords (symAddr b) ws).mem.wf := by
  refine Memory.wf_writeWords h (by unfold symAddr; omega) (fun a h1 h2 h3 => ?_)
  unfold symAddr at h1 h2
  unfold windowAt
  repeat' split
  all_goals first | exact Option.some_ne_none _ | omega

/-- A host write of a word of a read-write window keeps the canonical form. -/
theorem State.wf_hostWord {s : State} (h : s.mem.wf) {a : Nat} {v : Window} (h4 : a % 4 = 0)
    (hv : windowAt a = some v) (w : Word) : (s.writeWords a [w]).mem.wf := by
  refine Memory.wf_writeWords h h4 (fun b h1 h2 h3 => ?_)
  have : b = a := by simp at h2; omega
  subst this
  rw [hv]
  exact Option.some_ne_none _

/-- The address lies in the CODE or the TRIE window. -/
def inTable (a : Nat) : Prop := (0x02000 ≤ a ∧ a < 0x027FC) ∨ (0x10000 ≤ a ∧ a < 0x14000)

theorem HoldsTable.congr {m m' : Memory} {freqs : List Word} (h : HoldsTable m freqs)
    (he : ∀ a, inTable a → m'.read a = m.read a) : HoldsTable m' freqs := by
  obtain ⟨hl, t, ht, hc, hr⟩ := h
  refine ⟨hl, t, ht, fun a h1 h2 => ?_, fun a h1 h2 => ?_⟩
  · rw [he a (.inr ⟨by simpa [codeAddr] using h1, by simpa [codeAddr] using h2⟩), hc a h1 h2]
  · rw [he a (.inl ⟨by simpa [trieAddr] using h1, by simpa [trieAddr] using h2⟩), hr a h1 h2]

theorem holdsTable_writeTable (m : Memory) {freqs : List Word} {t : HuffTree} (hl : freqs.length = 256)
    (ht : buildTree (leavesFrom 0 freqs) = some t) : HoldsTable (m.writeTable t) freqs := by
  refine ⟨hl, t, ht, fun a h1 h2 => ?_, fun a h1 h2 => ?_⟩
  · exact Memory.read_writeTable_table _ _ _ _ (.inr ⟨by simpa [codeAddr] using h1, by simpa [codeAddr] using h2⟩)
  · exact Memory.read_writeTable_table _ _ _ _ (.inl ⟨by simpa [trieAddr] using h1, by simpa [trieAddr] using h2⟩)

theorem State.read_setBuf_table (s : State) (b : BufId) (v : Bits) {a : Nat} (h : inTable a) :
    (s.setBuf b v).mem.read a = s.mem.read a := by
  apply s.read_setBuf_outside
  unfold inTable at h
  unfold bufAddr
  cases b <;> simp only [BufId.field] <;> omega

theorem State.read_writeSym_table (s : State) (b : Nat) (ws : List Word) (hr : b + ws.length ≤ 1024) {a : Nat}
    (h : inTable a) : (s.writeWords (symAddr b) ws).mem.read a = s.mem.read a := by
  rw [State.writeWords_mem]
  apply Memory.read_writeWords_outside
  unfold inTable at h
  unfold symAddr
  omega

theorem State.freqWords_length {s : State} {ws : List Word} (h : s.freqWords = .ok ws) : ws.length = 256 :=
  ((s.readWords_ok_iff _ _ _).mp h).1

/-! ## Walking a valid table -/

/-- The words of the subtree `t`, rooted at node `i`, as they stand in TRIE. -/
def SubtreeAt (s : State) (t : HuffTree) (i : Nat) : Prop :=
  ∀ j w, (t.arena i)[j]? = some w → s.mem.read (trieAddr (i + j)) = some w

theorem SubtreeAt.left {s : State} {t0 t1 : HuffTree} {i : Nat} (h : SubtreeAt s (.node t0 t1) i) :
    SubtreeAt s t0 (i + 1) := by
  intro j w hj
  have hlt : j < (t0.arena (i + 1)).length := (List.getElem?_eq_some_iff.mp hj).1
  have := h (j + 1) w (by simp only [HuffTree.arena, List.getElem?_cons_succ]; rw [List.getElem?_append_left hlt]; exact hj)
  rwa [show i + (j + 1) = i + 1 + j by omega] at this

theorem SubtreeAt.right {s : State} {t0 t1 : HuffTree} {i : Nat} (h : SubtreeAt s (.node t0 t1) i) :
    SubtreeAt s t1 (i + 1 + t0.size) := by
  intro j w hj
  have := h (t0.size + j + 1) w (by
    simp only [HuffTree.arena, List.getElem?_cons_succ]
    rw [List.getElem?_append_right (by simp)]
    simpa using hj)
  rwa [show i + (t0.size + j + 1) = i + 1 + t0.size + j by omega] at this

theorem SubtreeAt.child {s : State} {t0 : HuffTree} {i : Nat} (h : SubtreeAt s (.single t0) i) :
    SubtreeAt s t0 (i + 1) := by
  intro j w hj
  have := h (j + 1) w (by simpa [HuffTree.arena] using hj)
  rwa [show i + (j + 1) = i + 1 + j by omega] at this

/-- The word at a tree's root. -/
def HuffTree.rootWord : HuffTree → Nat → Word
  | .leaf k, _ => leafWord k
  | .node t0 _, i => nodeWord (i + 1) (i + 1 + t0.size)
  | .single _, i => singleWord (i + 1)

theorem SubtreeAt.root {s : State} {t : HuffTree} {i : Nat} (h : SubtreeAt s t i) :
    s.readWord (trieAddr i) = .ok (t.rootWord i) := by
  rw [State.readWord_ok_iff]
  cases t <;> exact h 0 _ rfl

theorem leafWord_leaf (k : Nat) (h : k < 256) :
    (leafWord k).getLsbD 31 = true ∧ wordField (leafWord k) 7 0 = k ∧ ∀ b, (branchOf (leafWord k) b).1 = false := by
  have hn : (leafWord k).toNat = 0x80000000 + k := by
    unfold leafWord; rw [BitVec.toNat_ofNat]; exact Nat.mod_eq_of_lt (by omega)
  have bit : ∀ i, (leafWord k).getLsbD i = decide ((0x80000000 + k) / 2 ^ i % 2 = 1) := fun i => by
    rw [BitVec.getLsbD, hn, Nat.testBit_eq_decide_div_mod_eq]
  refine ⟨by rw [bit, decide_eq_true_eq]; omega, by unfold wordField; rw [hn]; omega, fun b => ?_⟩
  cases b
  · simp only [branchOf, bit]; rw [if_neg (by simp)]; simp only [decide_eq_false_iff_not]; omega
  · simp only [branchOf, bit]; rw [if_pos trivial]; simp only [decide_eq_false_iff_not]; omega

theorem nodeWord_branches (c0 c1 : Nat) (h0 : c0 < 512) (h1 : c1 < 512) :
    (nodeWord c0 c1).getLsbD 31 = false ∧ branchOf (nodeWord c0 c1) false = (true, c0) ∧
      branchOf (nodeWord c0 c1) true = (true, c1) := by
  have hn : (nodeWord c0 c1).toNat = 0x60000000 + c1 * 2 ^ 16 + c0 := by
    unfold nodeWord; rw [BitVec.toNat_ofNat]; exact Nat.mod_eq_of_lt (by omega)
  have bit : ∀ i, (nodeWord c0 c1).getLsbD i = decide ((0x60000000 + c1 * 2 ^ 16 + c0) / 2 ^ i % 2 = 1) := fun i => by
    rw [BitVec.getLsbD, hn, Nat.testBit_eq_decide_div_mod_eq]
  refine ⟨by rw [bit, decide_eq_false_iff_not]; omega, ?_, ?_⟩
  · simp only [branchOf, bit, wordField, hn]
    rw [if_neg (by simp)]
    refine Prod.ext (by simp only [decide_eq_true_eq]; omega) (by simp only; omega)
  · simp only [branchOf, bit, wordField, hn]
    rw [if_pos trivial]
    refine Prod.ext (by simp only [decide_eq_true_eq]; omega) (by simp only; omega)

theorem singleWord_branches (c0 : Nat) (h0 : c0 < 512) :
    (singleWord c0).getLsbD 31 = false ∧ branchOf (singleWord c0) false = (true, c0) ∧
      (branchOf (singleWord c0) true).1 = false := by
  have hn : (singleWord c0).toNat = 0x20000000 + c0 := by
    unfold singleWord; rw [BitVec.toNat_ofNat]; exact Nat.mod_eq_of_lt (by omega)
  have bit : ∀ i, (singleWord c0).getLsbD i = decide ((0x20000000 + c0) / 2 ^ i % 2 = 1) := fun i => by
    rw [BitVec.getLsbD, hn, Nat.testBit_eq_decide_div_mod_eq]
  refine ⟨by rw [bit, decide_eq_false_iff_not]; omega, ?_, ?_⟩
  · simp only [branchOf, bit, wordField, hn]
    rw [if_neg (by simp)]
    refine Prod.ext (by simp only [decide_eq_true_eq]; omega) (by simp only; omega)
  · simp only [branchOf, bit]
    rw [if_pos trivial]; simp only [decide_eq_false_iff_not]; omega

theorem HuffTree.rootWord_leaf_bit {t : HuffTree} {i : Nat} (hk : ∀ k ∈ t.symbols, k < 256) (hi : i + t.size ≤ 511) :
    (t.rootWord i).getLsbD 31 = true ↔ ∃ k, t = .leaf k := by
  cases t with
  | leaf k => simp [HuffTree.rootWord, (leafWord_leaf k (hk k (by simp))).1]
  | node t0 t1 =>
    simp only [HuffTree.size] at hi
    have := t1.size_pos
    rw [HuffTree.rootWord, (nodeWord_branches (i + 1) (i + 1 + t0.size) (by omega) (by omega)).1]
    exact ⟨nofun, nofun⟩
  | single t0 =>
    simp only [HuffTree.size] at hi
    rw [HuffTree.rootWord, (singleWord_branches (i + 1) (by omega)).1]
    exact ⟨nofun, nofun⟩

/-- The walk along the path of a leaf, from the subtree's root, outputs the leaf's symbol and returns to node 0 (R245).
The subtree is no leaf itself. -/
theorem State.walkBits_path {s : State} {t : HuffTree} {i : Nat} (hs : SubtreeAt s t i) (hi : i + t.size ≤ 511)
    (hk : ∀ k ∈ t.symbols, k < 256) {k : Nat} {p : Bits} (hp : (k, p) ∈ t.codes) (hne : p ≠ []) (rest : Bits)
    (d bad : Nat) (out : List Word) :
    s.walkBits { node := i, depth := d, bad := bad, out := out } (p ++ rest)
      = s.walkBits { node := 0, depth := 0, bad := bad, out := out ++ [BitVec.ofNat 32 k] } rest := by
  induction t generalizing i p d with
  | leaf x => simp [HuffTree.codes] at hp; exact absurd hp.2 hne
  | node t0 t1 h0 h1 =>
    simp only [HuffTree.size] at hi
    have p0 := t0.size_pos
    have p1 := t1.size_pos
    obtain ⟨-, hb0, hb1⟩ := nodeWord_branches (i + 1) (i + 1 + t0.size) (by omega) (by omega)
    have hroot := hs.root
    simp only [HuffTree.rootWord] at hroot
    have hk0 : ∀ k ∈ t0.symbols, k < 256 := fun k h => hk k (by simp [h])
    have hk1 : ∀ k ∈ t1.symbols, k < 256 := fun k h => hk k (by simp [h])
    simp only [HuffTree.codes, List.mem_append, List.mem_map, Prod.mk.injEq] at hp
    rcases hp with ⟨⟨x, q⟩, hq, rfl, rfl⟩ | ⟨⟨x, q⟩, hq, rfl, rfl⟩
    · have hroot0 := hs.left.root
      simp only [List.cons_append, State.walkBits, State.walkBit, hroot, bind_ok_val, hb0, if_true, hroot0, map_ok_val]
      by_cases hleaf : ∃ y, t0 = .leaf y
      · obtain ⟨y, rfl⟩ := hleaf
        simp [HuffTree.codes] at hq
        obtain ⟨rfl, rfl⟩ := hq
        obtain ⟨hl, hf, -⟩ := leafWord_leaf x (hk0 x (by simp))
        simp only [HuffTree.rootWord, hl, hf, if_true, List.nil_append]
      · rw [if_neg (fun h => hleaf ((t0.rootWord_leaf_bit hk0 (by omega)).mp h))]
        have hqne : q ≠ [] := by
          rintro rfl
          cases t0 with
          | leaf y => exact hleaf ⟨y, rfl⟩
          | node a b => simp [HuffTree.codes] at hq
          | single a => simp [HuffTree.codes] at hq
        exact h0 hs.left (by omega) hk0 hq hqne _
    · have hroot1 := hs.right.root
      simp only [List.cons_append, State.walkBits, State.walkBit, hroot, bind_ok_val, hb1, if_true, hroot1, map_ok_val]
      by_cases hleaf : ∃ y, t1 = .leaf y
      · obtain ⟨y, rfl⟩ := hleaf
        simp [HuffTree.codes] at hq
        obtain ⟨rfl, rfl⟩ := hq
        obtain ⟨hl, hf, -⟩ := leafWord_leaf x (hk1 x (by simp))
        simp only [HuffTree.rootWord, hl, hf, if_true, List.nil_append]
      · rw [if_neg (fun h => hleaf ((t1.rootWord_leaf_bit hk1 (by omega)).mp h))]
        have hqne : q ≠ [] := by
          rintro rfl
          cases t1 with
          | leaf y => exact hleaf ⟨y, rfl⟩
          | node a b => simp [HuffTree.codes] at hq
          | single a => simp [HuffTree.codes] at hq
        exact h1 hs.right (by omega) hk1 hq hqne _
  | single t0 h0 =>
    simp only [HuffTree.size] at hi
    have p0 := t0.size_pos
    obtain ⟨-, hb0, -⟩ := singleWord_branches (i + 1) (by omega)
    have hroot := hs.root
    simp only [HuffTree.rootWord] at hroot
    have hk0 : ∀ k ∈ t0.symbols, k < 256 := fun k h => hk k (by simpa using h)
    simp only [HuffTree.codes, List.mem_map, Prod.mk.injEq] at hp
    obtain ⟨⟨x, q⟩, hq, rfl, rfl⟩ := hp
    have hroot0 := hs.child.root
    simp only [List.cons_append, State.walkBits, State.walkBit, hroot, bind_ok_val, hb0, if_true, hroot0, map_ok_val]
    by_cases hleaf : ∃ y, t0 = .leaf y
    · obtain ⟨y, rfl⟩ := hleaf
      simp [HuffTree.codes] at hq
      obtain ⟨rfl, rfl⟩ := hq
      obtain ⟨hl, hf, -⟩ := leafWord_leaf x (hk0 x (by simp))
      simp only [HuffTree.rootWord, hl, hf, if_true, List.nil_append]
    · rw [if_neg (fun h => hleaf ((t0.rootWord_leaf_bit hk0 (by omega)).mp h))]
      have hqne : q ≠ [] := by
        rintro rfl
        cases t0 with
        | leaf y => exact hleaf ⟨y, rfl⟩
        | node a b => simp [HuffTree.codes] at hq
        | single a => simp [HuffTree.codes] at hq
      exact h0 hs.child (by omega) hk0 hq hqne _

/-- A node of the arena that is no leaf. -/
def InnerAt (s : State) (i : Nat) : Prop :=
  ∃ t, SubtreeAt s t i ∧ i + t.size ≤ 511 ∧ (∀ k ∈ t.symbols, k < 256) ∧ ¬ ∃ k, t = .leaf k

/-- One bit at an inner node never meets an unwritten word: it goes to an inner node or back to node 0. -/
theorem State.walkBit_inner {s : State} {w : Walk} (h : InnerAt s w.node) (b : Bool) :
    ∃ w', s.walkBit w b = .ok w' ∧ (w'.node = 0 ∨ InnerAt s w'.node) := by
  obtain ⟨t, hs, hi, hk, hl⟩ := h
  have into : ∀ (t' : HuffTree) (c : Nat), SubtreeAt s t' c → c + t'.size ≤ 511 → (∀ k ∈ t'.symbols, k < 256) →
      ∃ w', ((s.readWord (trieAddr c)).map fun w1 =>
        if w1.getLsbD 31 then
          { w with node := 0, depth := 0, out := w.out ++ [BitVec.ofNat 32 (wordField w1 7 0)] }
        else { w with node := c, depth := w.depth + 1 }) = .ok w' ∧ (w'.node = 0 ∨ InnerAt s w'.node) := by
    intro t' c h1 h2 h3
    rw [h1.root]
    by_cases hleaf : ∃ y, t' = .leaf y
    · simp only [map_ok_val, if_pos ((t'.rootWord_leaf_bit h3 h2).mpr hleaf)]
      exact ⟨_, rfl, .inl rfl⟩
    · simp only [map_ok_val, if_neg (fun h => hleaf ((t'.rootWord_leaf_bit h3 h2).mp h))]
      exact ⟨_, rfl, .inr ⟨t', h1, h2, h3, hleaf⟩⟩
  have hroot := hs.root
  cases t with
  | leaf k => exact absurd ⟨k, rfl⟩ hl
  | node t0 t1 =>
    simp only [HuffTree.size] at hi
    have p0 := t0.size_pos
    have p1 := t1.size_pos
    obtain ⟨-, hb0, hb1⟩ := nodeWord_branches (w.node + 1) (w.node + 1 + t0.size) (by omega) (by omega)
    simp only [HuffTree.rootWord] at hroot
    cases b
    · obtain ⟨w', h1, h2⟩ := into t0 _ hs.left (by omega) (fun k h => hk k (by simp [h]))
      exact ⟨w', by simpa only [State.walkBit, hroot, bind_ok_val, hb0, if_true] using h1, h2⟩
    · obtain ⟨w', h1, h2⟩ := into t1 _ hs.right (by omega) (fun k h => hk k (by simp [h]))
      exact ⟨w', by simpa only [State.walkBit, hroot, bind_ok_val, hb1, if_true] using h1, h2⟩
  | single t0 =>
    simp only [HuffTree.size] at hi
    have p0 := t0.size_pos
    obtain ⟨-, hb0, hb1⟩ := singleWord_branches (w.node + 1) (by omega)
    simp only [HuffTree.rootWord] at hroot
    cases b
    · obtain ⟨w', h1, h2⟩ := into t0 _ hs.child (by omega) (fun k h => hk k (by simpa using h))
      exact ⟨w', by simpa only [State.walkBit, hroot, bind_ok_val, hb0, if_true] using h1, h2⟩
    · refine ⟨{ w with node := 0, depth := 0, bad := w.bad + 1 }, ?_, .inl rfl⟩
      cases hb : branchOf (singleWord (w.node + 1)) true with
      | mk ok c =>
        rw [hb] at hb1
        simp only at hb1
        subst hb1
        simp [State.walkBit, hroot, hb]

/-- From a valid root, no bit vector leads the walk to an unwritten word (R245). -/
theorem State.walkBits_total {s : State} (h0 : InnerAt s 0) (u : Bits) (w : Walk) (hw : w.node = 0 ∨ InnerAt s w.node) :
    ∃ e, s.walkBits w u = .ok e := by
  induction u generalizing w with
  | nil => exact ⟨w, rfl⟩
  | cons b u ih =>
    obtain ⟨w', h1, h2⟩ := State.walkBit_inner (s := s) (w := w)
      (by rcases hw with h | h; exacts [h ▸ h0, h]) b
    obtain ⟨e, he⟩ := ih w' h2
    exact ⟨e, by simp only [State.walkBits, h1, bind_ok_val, he]⟩

end Sys2Proof.Machine
end

