-- ==== Sys2Proof/Laws/Vocabulary.lean ====
section
/-! SUPPORT. How the vocabulary of the statements follows from the shared operations: a completion, a SetBuf, an output
range, an input range, and what a legal width or triple says. -/

namespace Sys2Proof.Machine

theorem completesOk_of {s u : State} (h1 : u.status.err = s.status.err) (h2 : u.status.ovr = s.status.ovr)
    (h3 : u.errinfo = s.errinfo) (h4 : u.cmd = s.cmd) (h5 : u.ie = s.ie) (h6 : u.agenda = s.agenda)
    (h7 : u.rdata = s.rdata) : CompletesOk s u.completeOk :=
  ⟨rfl, rfl, rfl, by show BitVec.ofNat 8 (opcOf u.cmd) = _; rw [h4], by simp [Status.completed, h1], h2, rfl, h3, h4,
    h5, h6, h7⟩

theorem setsBuffer_of {s t : State} {d : BufId} {v : Bits} (hv : v.length ≤ 16384) (hm : t.mem = (s.setBuf d v).mem)
    (hl : t.lens = (s.setBuf d v).lens) : SetsBuffer d v s t := by
  have hlen : ∀ b, t.bufLen b = (s.setBuf d v).bufLen b := fun b => by simp only [State.bufLen, hl]
  refine ⟨?_, ?_, ?_, ?_, ?_⟩
  · rw [State.buf_congr (s.setBuf d v) t d (hlen d) (fun m _ => by rw [hm])]
    exact s.buf_setBuf_same d v hv
  · rw [hlen, s.bufLen_setBuf_same d v hv]
  · intro m h
    rw [hm, s.read_setBuf_inside d v m h, slice, show 32 * m + 32 - 32 * m = 32 by omega]
  · intro b hb; rw [hlen, s.bufLen_setBuf_other v hb]
  · intro a ha; rw [hm, s.read_setBuf_outside d v a ha]

/-- The value of a buffer in a state with SetBuf's memory and lengths. -/
theorem buf_of_setBuf {s t : State} {d : BufId} {v : Bits} (hv : v.length ≤ 16384) (hm : t.mem = (s.setBuf d v).mem)
    (hl : t.lens = (s.setBuf d v).lens) : t.buf d = .ok v := (setsBuffer_of hv hm hl).value

theorem writesSym_of {s t : State} {ws : List Word}
    (hm : t.mem = (s.writeWords (symAddr s.cfg.symOutBase.toNat) ws).mem) (hl : t.lens = s.lens) :
    WritesSym ws s t := by
  refine ⟨fun j hj => ?_, fun a ha => ?_, hl⟩
  · rw [hm, State.writeWords_mem,
      show symAddr (s.cfg.symOutBase.toNat + j) = symAddr s.cfg.symOutBase.toNat + 4 * j by unfold symAddr; omega]
    exact Memory.read_writeWords_inside _ _ _ _ hj
  · rw [hm, State.writeWords_mem]
    apply Memory.read_writeWords_outside
    unfold symAddr at *; omega

theorem inputWords_of {s : State} {xs : List Word} (h : InputIs s xs) :
    s.inputWords = .ok xs ∧ s.inputRangeLegal 1 = true := by
  obtain ⟨h1, h2, h3⟩ := h
  refine ⟨?_, by simp [State.inputRangeLegal, h1, h2]⟩
  unfold State.inputWords
  rw [State.readWords_ok_iff, h1]
  refine ⟨rfl, fun j hj => ?_⟩
  rw [← h3 j hj]; congr 1; unfold symAddr; omega

theorem widthLegal_of {w : Nat} (h1 : 1 ≤ w) (h2 : w ≤ 32) : widthLegal w = true := by simp [widthLegal]; omega

theorem widthLegal_false {w : Nat} (h : w < 1 ∨ w > 32) : widthLegal w = false := by simp [widthLegal]; omega

/-- The value of a slice fits the slice's width. -/
theorem val_slice_lt (v : Bits) (i j : Nat) : val (slice v i j) < 2 ^ (j - i) := by
  refine Nat.lt_of_lt_of_le (val_lt _) (Nat.pow_le_pow_right (by omega) ?_)
  simp [slice]

/-- The next state of a completed command was not stopped at an unwritten word. -/
theorem StopsUnread.not_next {s t : State} : ¬ StopsUnread s (.next t) := by rintro ⟨a, h, -⟩; cases h

/-! ## A code table in memory -/

/-- There are at most 256 leaves. -/
theorem leaves_le {s : State} {ws : List Word} (h : s.freqWords = .ok ws) : (leavesFrom 0 ws).length ≤ 256 := by
  have := leavesFrom_length_le 0 ws
  rw [State.freqWords_length h] at this; exact this

/-- A codeword has at most 255 bits (R235). -/
theorem codeword_len {ws : List Word} {tree : HuffTree} (hl : (leavesFrom 0 ws).length ≤ 256)
   (ht : buildTree (leavesFrom 0 ws) = some tree) (k : Nat) : (tree.codeword k).length ≤ 255 := by
  by_cases h : tree.codeword k = []
  · simp [h]
  · exact ((buildTree_bounds ht hl).2 _ (HuffTree.codeword_mem h)).2

/-- A symbol has a codeword exactly when it is a leaf. -/
theorem codeword_nonempty {ws : List Word} {tree : HuffTree} (hl : (leavesFrom 0 ws).length ≤ 256)
   (ht : buildTree (leavesFrom 0 ws) = some tree) (k : Nat) :
   tree.codeword k ≠ [] ↔ ∃ f, (k, f) ∈ leavesFrom 0 ws := by
  have hp := (buildTree_spec ht).1
  have hb := buildTree_bounds ht hl
  have hmem : k ∈ tree.symbols ↔ ∃ f, (k, f) ∈ leavesFrom 0 ws := by
    rw [hp.mem_iff]; simp
  rw [← hmem]
  constructor
  · intro h; exact List.mem_map.mpr ⟨_, HuffTree.codeword_mem h, rfl⟩
  · intro h
    obtain ⟨⟨x, u⟩, hx, rfl⟩ := List.mem_map.mp h
    have hn : (tree.codes.map (·.1)).Nodup := hp.nodup_iff.mpr (leavesFrom_nodup 0 ws)
    have := lookup_eq_some_of_mem hn hx
    unfold HuffTree.codeword
    rw [this]
    intro he
    have := (hb.2 _ hx).1
    simp at he
    subst he
    simp at this

/-- CODE_LEN of a state holding the table of `tree`. -/
theorem codeLen_table {s : State} {tree : HuffTree} {k n : Nat} {m : Memory} (hs : s.mem.read (codeAddr k) = (m.writeTable tree).read (codeAddr k)) (hk : k < 256) (hc : (tree.codeword k).length ≤ 255) : codeLenIs s k n ↔ n = (tree.codeword k).length := by
  have h0 := Memory.read_writeTable_code m tree k 0 hk (by omega)
  simp only [Nat.mul_zero, Nat.add_zero, codeEntryWords, List.getElem?_cons_zero] at h0
  unfold codeLenIs
  rw [hs, h0]
  have hm : (BitVec.ofNat 32 (tree.codeword k).length).toNat % 256 = (tree.codeword k).length := by
    rw [BitVec.toNat_ofNat]; omega
  constructor
  · rintro ⟨l, hl, rfl⟩; cases hl; exact hm
  · rintro rfl; exact ⟨_, rfl, hm.symm⟩

/-- The codeword of a state holding the table of `tree`. -/
theorem codeword_table {s : State} {tree : HuffTree} {k : Nat} {u : Bits} {m : Memory}
   (hs : ∀ a, 0x10000 ≤ a → a < 0x14000 → s.mem.read a = (m.writeTable tree).read a) (hk : k < 256)
   (hc : (tree.codeword k).length ≤ 255) : codewordIs s k u ↔ u = tree.codeword k := by
  have hcl := fun n => codeLen_table (n := n) (hs (codeAddr k) (by unfold codeAddr; omega) (by unfold codeAddr; omega)) hk hc
  have hr : s.readWords (codeAddr k + 4) (wordsFor (tree.codeword k).length) =
     .ok ((packWords 8 (tree.codeword k)).take (wordsFor (tree.codeword k).length)) := by
    have hw : wordsFor (tree.codeword k).length ≤ 8 := by unfold wordsFor; omega
    rw [State.readWords_ok_iff]
    refine ⟨by simpa using hw, fun j hj => ?_⟩
    rw [hs _ (by unfold codeAddr; omega) (by unfold codeAddr; omega)]
    have := Memory.read_writeTable_code m tree k (j+1) hk (by omega)
    simp only [codeEntryWords, List.getElem?_cons_succ] at this
    rw [List.getElem?_take_of_lt hj, ← this]
    congr 1; unfold codeAddr; omega
  have hv := take_unpackWords_packWords 8 (wordsFor (tree.codeword k).length) (tree.codeword k) (by unfold wordsFor; omega) (by unfold wordsFor; omega)
  unfold codewordIs
  rw [hcl]
  constructor
  · rintro ⟨hl, ws, hws, he⟩
    rw [hl, hr] at hws
    cases hws
    rw [he, hl, hv]
  · rintro rfl
    exact ⟨rfl, _, hr, hv.symm⟩

/-- The bits HENC appends for one symbol, computed. -/
theorem symbolCode_of {s : State} {x : Word} {u : Bits} (h : symbolBitsAre s x u) : s.symbolCode x = .ok u := by
  have hf : ∀ l : Word, wordField l 7 0 = l.toNat % 256 := fun l => by simp [wordField]
  unfold State.symbolCode
  rcases h with ⟨hx, hne, ⟨l, hl, hn⟩, ws, hws, hu⟩ | ⟨hx, hu⟩
  · have hp := List.length_pos_iff.mpr hne
    simp only [Config.nsym]
    rw [if_pos hx, (s.readWord_ok_iff _ _).mpr hl]
    simp only [bind_ok_val]
    rw [hf, ← hn, if_pos hp]
    unfold State.codeBits
    rw [hws]
    simp only [map_ok_val]
    rw [← hu]
  · subst hu
    simp only [Config.nsym]
    split
    · rename_i hlt
      rcases hx with hx | ⟨l, hl, hn⟩
      · omega
      · rw [(s.readWord_ok_iff _ _).mpr hl]
        simp only [bind_ok_val]
        rw [hf, ← hn, if_neg (by omega)]
    · rfl

/-- The bits HENC writes for the input symbols, computed. -/
theorem encodeSymbols_of {s : State} {xs : List Word} {us : List Bits} (h : List.Forall₂ (symbolBitsAre s) xs us) :
    s.encodeSymbols xs = .ok us.flatten := by
  induction h with
  | nil => rfl
  | cons hx _ ih => simp [State.encodeSymbols, symbolCode_of hx, ih]

/-- A walk's depth, discarded bits and symbols together never exceed the bits walked. -/
theorem State.walkBits_counts {s : State} {k e : Walk} {u : Bits} (h : s.walkBits k u = .ok e) :
    e.out.length + e.bad + e.depth ≤ k.out.length + k.bad + k.depth + u.length := by
  induction u generalizing k with
  | nil => cases h; simp
  | cons b u ih =>
    obtain ⟨k', h1, h2⟩ := bind_eq_ok h
    have := ih h2
    have : k'.out.length + k'.bad + k'.depth ≤ k.out.length + k.bad + k.depth + 1 := by
      unfold State.walkBit at h1
      obtain ⟨w, -, h1⟩ := bind_eq_ok h1
      simp only at h1
      split at h1
      · obtain ⟨w', -, h1⟩ := map_eq_ok h1
        subst h1
        split <;> simp <;> omega
      · cases h1; simp; omega
    simp only [List.length_cons]
    omega

/-- In a state that meets the invariant with TBLV = 1, TRIE and CODE are those of one tree (R236). -/
theorem State.Inv.tree {s : State} (h : s.Inv) (ht : s.status.tblv = true) :
    ∃ tree freqs, buildTree (leavesFrom 0 freqs) = some tree ∧ (leavesFrom 0 freqs).length ≤ 256 ∧
      SubtreeAt s tree 0 ∧ tree.size ≤ 511 ∧ (∀ k ∈ tree.symbols, k < 256) ∧ InnerAt s 0 ∧
      ∀ a, 0x10000 ≤ a → a < 0x14000 → s.mem.read a = (Memory.writeTable [] tree).read a := by
  obtain ⟨freqs, hl, tree, hb, hc, hr⟩ := h.table ht
  have hl' : (leavesFrom 0 freqs).length ≤ 256 := by
    have := leavesFrom_length_le 0 freqs
    rw [hl] at this; exact this
  have hbd := buildTree_bounds hb hl'
  have hsym : ∀ k ∈ tree.symbols, k < 256 := by
    intro k hk
    rw [(buildTree_spec hb).1.mem_iff] at hk
    obtain ⟨⟨x, f⟩, hx, rfl⟩ := List.mem_map.mp hk
    obtain ⟨j, w, hj, hw, -⟩ := mem_leavesFrom.mp hx
    have := (List.getElem?_eq_some_iff.mp hw).1
    simp only [Config.nsym] at hl
    omega
  have hsub : SubtreeAt s tree 0 := by
    intro j w hj
    have hlt : j < (tree.arena 0).length := (List.getElem?_eq_some_iff.mp hj).1
    have hlt' : j < 511 := by rw [HuffTree.length_arena] at hlt; omega
    rw [hr _ (by unfold trieAddr; omega) (by unfold trieAddr; simp only [Config.trieDepth]; omega), Nat.zero_add,
      Memory.read_writeTable_trie _ _ _ hlt', List.getD_eq_getElem?_getD, hj]
    rfl
  refine ⟨tree, freqs, hb, hl', hsub, hbd.1, hsym, ⟨tree, hsub, by omega, hsym, ?_⟩, fun a h1 h2 => ?_⟩
  · rintro ⟨k, rfl⟩
    have := (hbd.2 (k, []) (by simp [HuffTree.codes])).1
    simp at this
  · exact hc a (by simpa [codeAddr] using h1) (by simpa [codeAddr] using h2)

/-! ## The tree of R232 -/

theorem before_iff {a b : QueueEntry} : a.before b = true ↔ comesFirst a b := by simp [QueueEntry.before, comesFirst]

theorem comesFirst_trans {a b c : QueueEntry} (h1 : comesFirst a b) (h2 : comesFirst b c) : comesFirst a c := by
  unfold comesFirst at *; omega

theorem comesFirst_of_not {a b : QueueEntry} (h : ¬ comesFirst a b) (ho : a.order ≠ b.order) : comesFirst b a := by
  unfold comesFirst at *; omega

/-- Inserting an entry of a new order number keeps the queue in its order. -/
theorem queueInsert_sorted {e : QueueEntry} {q : List QueueEntry} (hq : q.Pairwise comesFirst)
    (ho : ∀ x ∈ q, e.order ≠ x.order) : (queueInsert e q).Pairwise comesFirst := by
  induction q with
  | nil => simp [queueInsert]
  | cons x q ih =>
    rw [List.pairwise_cons] at hq
    unfold queueInsert
    split
    · rename_i h
      rw [before_iff] at h
      refine List.pairwise_cons.mpr ⟨fun y hy => ?_, List.pairwise_cons.mpr hq⟩
      rcases List.mem_cons.mp hy with rfl | hy
      exacts [h, comesFirst_trans h (hq.1 y hy)]
    · rename_i h
      rw [before_iff] at h
      refine List.pairwise_cons.mpr ⟨fun y hy => ?_, ih hq.2 fun y hy => ho y (by simp [hy])⟩
      rcases List.mem_cons.mp ((queueInsert_perm e q).mem_iff.mp hy) with rfl | hy
      exacts [comesFirst_of_not h (ho x (by simp)), hq.1 y hy]

/-- The list order of the entries does not matter to R232. -/
theorem MergesTo.perm {k : Nat} {q q' : List QueueEntry} {t : HuffTree} (h : MergesTo k q t) (hp : q'.Perm q) :
    MergesTo k q' t := by
  obtain ⟨_, e⟩ | ⟨_, e1, e2, rest, _, _, hq, h1, h2, h⟩ := h
  · rw [List.perm_singleton.mp hp]; exact .done k e
  · exact .merge k e1 e2 rest q' t (hp.trans hq) h1 h2 h

/-- The model's merge loop on a queue in its order does what R232 says. -/
theorem mergeQueue_mergesTo (n k : Nat) (q : List QueueEntry) (hl : q.length = n + 1) (hs : q.Pairwise comesFirst)
    (ho : ∀ e ∈ q, e.order < k) : ∃ e, mergeQueue n k q = [e] ∧ MergesTo k q e.tree := by
  induction n generalizing k q with
  | zero =>
    obtain ⟨e, rfl⟩ := List.length_eq_one_iff.mp hl
    exact ⟨e, rfl, .done k e⟩
  | succ n ih =>
    match q, hl with
    | e1 :: e2 :: q, hl =>
      simp only [List.pairwise_cons] at hs
      obtain ⟨h1, h2, h3⟩ := hs
      have hp := queueInsert_perm { freq := e1.freq + e2.freq, order := k, tree := .node e1.tree e2.tree } q
      obtain ⟨e, he, hm⟩ := ih (k + 1) _ (by rw [hp.length_eq]; simpa using hl)
        (queueInsert_sorted h3 fun x hx => Nat.ne_of_gt (ho x (by simp [hx]))) (fun x hx => by
          rcases List.mem_cons.mp (hp.mem_iff.mp hx) with rfl | hx
          exacts [Nat.lt_succ_self k, Nat.lt_succ_of_lt (ho x (by simp [hx]))])
      exact ⟨e, he, .merge k e1 e2 q _ _ (.refl _) (h1 e2 (by simp)) h2 (hm.perm hp.symm)⟩

theorem leafEntries_order (o : Nat) (ls : List (Nat × Nat)) :
    ∀ e ∈ leafEntries o ls, o ≤ e.order ∧ e.order < o + ls.length := by
  induction ls generalizing o with
  | nil => simp [leafEntries]
  | cons l ls ih =>
    intro e he
    rcases List.mem_cons.mp he with rfl | he
    · simp
    · have := ih _ e he
      simp only [List.length_cons]; omega

/-- The queue before the first merge is in its order. -/
theorem leafEntries_sorted (o : Nat) (ls : List (Nat × Nat)) :
    ((leafEntries o ls).foldr queueInsert []).Pairwise comesFirst := by
  induction ls generalizing o with
  | nil => exact .nil
  | cons l ls ih =>
    refine queueInsert_sorted (ih (o + 1)) fun x hx => ?_
    have := leafEntries_order (o + 1) ls x ((foldr_queueInsert_perm _).mem_iff.mp hx)
    simp only; omega

theorem leafEntries_eq (o : Nat) (ls : List (Nat × Nat)) : leafEntries o ls =
    (ls.zipIdx o).map fun p => { freq := p.1.2, order := p.2, tree := .leaf p.1.1 } := by
  induction ls generalizing o with
  | nil => rfl
  | cons l ls ih => simp [leafEntries, ih]

theorem leavesFrom_eq (k : Nat) (ws : List Word) : leavesFrom k ws =
    ((List.range ws.length).filter fun i => decide (ws.getD i 0 ≠ 0)).map fun i => (k + i, (ws.getD i 0).toNat) := by
  induction ws generalizing k with
  | nil => rfl
  | cons w ws ih =>
    rw [List.length_cons, List.range_succ_eq_map, List.filter_cons, List.filter_map]
    have hw : w.toNat = 0 ↔ w = 0 := by simp [BitVec.toNat_eq]
    unfold leavesFrom
    simp only [hw, ih]
    by_cases h : w = 0
    · subst h; simp [Function.comp_def, Nat.add_comm, Nat.add_left_comm]
    · have h' : ¬ w = 0#32 := h
      simp [h', Function.comp_def, Nat.add_comm, Nat.add_left_comm]

/-- The leaves are the present symbols, ascending, each with its frequency. -/
theorem leaves_eq {ws : List Word} (h : ws.length = 256) :
    leavesFrom 0 ws = (presentSymbols ws).map fun k => (k, (ws.getD k 0).toNat) := by
  rw [leavesFrom_eq, h]; simp [presentSymbols]

theorem leafEntries_leaves {ws : List Word} (h : ws.length = 256) : leafEntries 0 (leavesFrom 0 ws) = firstEntries ws := by
  rw [leaves_eq h, leafEntries_eq, List.zipIdx_map, firstEntries, List.map_map]; rfl

/-- The tree of two or more leaves is the one R232's merging ends in. -/
theorem buildTree_mergesTo {leaves : List (Nat × Nat)} {t : HuffTree} (h : buildTree leaves = some t)
    (h2 : 2 ≤ leaves.length) : MergesTo leaves.length (leafEntries 0 leaves) t := by
  obtain ⟨l1, l2, ls, rfl⟩ : ∃ l1 l2 ls, leaves = l1 :: l2 :: ls := by
    match leaves, h2 with
    | l1 :: l2 :: ls, _ => exact ⟨l1, l2, ls, rfl⟩
  have hp := foldr_queueInsert_perm (leafEntries 0 (l1 :: l2 :: ls))
  obtain ⟨e, he, hm⟩ := mergeQueue_mergesTo ((l1 :: l2 :: ls).length - 1) (l1 :: l2 :: ls).length
    ((leafEntries 0 (l1 :: l2 :: ls)).foldr queueInsert []) (by rw [hp.length_eq, length_leafEntries]; rfl)
    (leafEntries_sorted 0 _) (fun x hx => by have := leafEntries_order 0 _ x (hp.mem_iff.mp hx); omega)
  have ht : ((mergeQueue ((l1 :: l2 :: ls).length - 1) (l1 :: l2 :: ls).length
    ((leafEntries 0 (l1 :: l2 :: ls)).foldr queueInsert [])).head?).map (·.tree) = some t := h
  rw [he] at ht
  cases ht
  exact hm.perm hp.symm

/-- HBUILD's tree is the one R232 and R233 describe. -/
theorem buildTree_treeOfFreqs {ws : List Word} {t : HuffTree} (hl : ws.length = 256)
    (h : buildTree (leavesFrom 0 ws) = some t) : treeOfFreqs ws t := by
  have hn : (presentSymbols ws).length = (leavesFrom 0 ws).length := by rw [leaves_eq hl]; simp
  by_cases h2 : 2 ≤ (leavesFrom 0 ws).length
  · refine .inr ⟨hn ▸ h2, ?_⟩
    rw [hn, ← leafEntries_leaves hl]
    exact buildTree_mergesTo h h2
  · obtain ⟨-, ⟨h2', -⟩ | ⟨k, f, he, rfl⟩⟩ := buildTree_spec h
    · exact absurd h2' h2
    · rw [leaves_eq hl] at he
      obtain ⟨x, hx, hk⟩ := List.map_eq_singleton_iff.mp he
      obtain ⟨rfl, -⟩ := Prod.mk.injEq .. ▸ hk
      exact .inl ⟨x, hx, rfl⟩

theorem mem_presentSymbols {ws : List Word} {k : Nat} : k ∈ presentSymbols ws ↔ k < 256 ∧ ws.getD k 0 ≠ 0 := by
  simp only [presentSymbols, List.mem_filter, List.mem_range, decide_eq_true_eq]

theorem presentSymbols_sorted (ws : List Word) : (presentSymbols ws).Pairwise (· < ·) :=
  List.pairwise_lt_range.filter _

/-- The present symbols are the ascending list of the symbols of nonzero frequency, and no other. -/
theorem presentSymbols_eq {ws : List Word} {l : List Nat} (hs : l.Pairwise (· < ·))
    (h : ∀ k, k ∈ l ↔ k < 256 ∧ ws.getD k 0 ≠ 0) : presentSymbols ws = l := by
  have hp : (presentSymbols ws).Perm l :=
    (List.perm_ext_iff_of_nodup ((presentSymbols_sorted ws).imp Nat.ne_of_lt) (hs.imp Nat.ne_of_lt)).mpr
      fun k => mem_presentSymbols.trans (h k).symm
  exact hp.eq_of_pairwise (fun a b _ _ h1 h2 => absurd h1 (by omega)) (presentSymbols_sorted ws) hs

theorem presentSymbols_ne_nil {ws : List Word} : presentSymbols ws ≠ [] ↔ ∃ k, k < 256 ∧ ws.getD k 0 ≠ 0 := by
  rw [List.ne_nil_iff_exists_cons]
  constructor
  · rintro ⟨k, l, h⟩
    exact ⟨k, mem_presentSymbols.mp (h ▸ List.mem_cons_self)⟩
  · rintro ⟨k, hk⟩
    exact List.exists_cons_of_ne_nil (List.ne_nil_of_mem (mem_presentSymbols.mpr hk))

/-- The tree of two leaves: the least in (frequency, symbol) order is the 0 branch (R232). -/
theorem buildTree_two (x y f g : Nat) : buildTree [(x, f), (y, g)] =
    some (if f ≤ g then .node (.leaf x) (.leaf y) else .node (.leaf y) (.leaf x)) := by
  by_cases h : f ≤ g
  · have hb : QueueEntry.before ⟨f, 0, .leaf x⟩ ⟨g, 1, .leaf y⟩ = true := by rw [before_iff]; unfold comesFirst; simp only; omega
    simp [buildTree, leafEntries, queueInsert, hb, mergeQueue, h]
  · have hb : QueueEntry.before ⟨f, 0, .leaf x⟩ ⟨g, 1, .leaf y⟩ = false := by
      rw [← Bool.not_eq_true, before_iff]; unfold comesFirst; simp only; omega
    simp [buildTree, leafEntries, queueInsert, hb, mergeQueue, h]

end Sys2Proof.Machine
end

