-- ==== Sys2Proof/Laws/Ends.lean ====
section
/-! SUPPORT. Everything a command can end in, once for all commands: the inversion lemma of exec. -/

namespace Sys2Proof.Machine

/-- Everything a command can end in: a read of an unwritten word; an error completion; HBUILD's EMPTY_FREQ, which also
clears TBLV; a success that writes its destination buffer, RESID, the CORR registers or DRAW_IDX; one that writes SYM and
the counts; NOP's; BGET's; HBUILD's. -/
inductive Ends (i : Instr) (s : State) : Host.Outcome State Fault Refusal → Prop where
  | unread (a : Nat) (h : s.mem.read a = none) : Ends i s (.fault (.uninitRead a))
  | raised (c : ErrCode) (n : Nat) (hc : c ∈ codesOf i) (h : i ≠ .hbuild) (hok : c ≠ .ok) :
      Ends i s (.next (s.raiseError c n))
  | empty (h : i = .hbuild) : Ends i s (.next (s.clearTblv.raiseError .emptyFreq 0))
  | buffer (d : BufId) (h : bufferDst i = some d) (v : Bits) (hv : v.length ≤ 16384) (r : ResultRegs) (k : BitVec 32)
      (hk : (∀ e, i ≠ .chan d e) → k = s.drawIdx)
      (hr : r = { s.res with resid := r.resid, corrIdx := r.corrIdx, corrDist := r.corrDist })
      (h1 : (∀ k, i ≠ .rdec d k) → r.resid = s.res.resid)
      (h2 : (∀ k, i ≠ .corr d k) → r.corrIdx = s.res.corrIdx ∧ r.corrDist = s.res.corrDist) :
      Ends i s (.next ({ s.setBuf d v with res := r, drawIdx := k }).completeOk)
  | symbols (k : BufId) (h : i = .hdec k ∨ i = .fdec k ∨ i = .sdec k) (ws : List Word)
      (hw : s.cfg.symOutBase.toNat + ws.length ≤ 1024) (r : ResultRegs)
      (hr : r = { s.res with symOutCnt := r.symOutCnt, resid := r.resid, badbit := r.badbit, drop := r.drop })
      (h1 : i ≠ .hdec k → r.badbit = s.res.badbit) (h2 : i ≠ .sdec k → r.drop = s.res.drop)
      (h3 : ws.length = (if i = .sdec k then 3 else 1) * r.symOutCnt.toNat) :
      Ends i s (.next ({ s.writeWords (symAddr s.cfg.symOutBase.toNat) ws with res := r }).completeOk)
  | nop (h : i = .nop) : Ends i s (.next s.completeOk)
  | bget (k : BufId) (w : Nat) (h : i = .bget k w) (x o : Nat) : Ends i s (.next (s.setUnpacked x o).completeOk)
  | hbuild (h : i = .hbuild) (ws : List Word) (hw : s.freqWords = .ok ws) (t : HuffTree)
      (ht : buildTree (leavesFrom 0 ws) = some t) :
      Ends i s (.next (s.setTable (leavesFrom 0 ws).length t).completeOk)

theorem ends_unread {i : Instr} {s : State} {o : Host.Outcome State Fault Refusal} (h : StopsUnread s o) :
    Ends i s o := by
  obtain ⟨a, rfl, h⟩ := h; exact .unread a h

theorem ends_raises {i : Instr} {s : State} {o : Host.Outcome State Fault Refusal} {l : List ErrCode}
    (h : Raises s l o) (hl : ∀ c ∈ l, c ∈ codesOf i ∧ c ≠ .ok) (hi : i ≠ .hbuild) : Ends i s o := by
  obtain ⟨c, n, hc, rfl⟩ := h; exact .raised c n (hl c hc).1 hi (hl c hc).2

theorem ends_setBuf {i : Instr} {s : State} {d : BufId} {v : Bits} (h : bufferDst i = some d) (hv : v.length ≤ 16384) :
   Ends i s (.next (s.setBuf d v).completeOk) :=
  .buffer d h v hv s.res s.drawIdx (fun _ => rfl) rfl (fun _ => rfl) (fun _ => ⟨rfl, rfl⟩)

/-- A command ends in one of the ways of `Ends`. -/
theorem exec_ends (i : Instr) (s : State) : Ends i s (exec i s) := by
  cases i with
  | nop => exact .nop rfl
  | bclr d => exact ends_setBuf rfl (by simp)
  | bcopy d k =>
    rcases execBcopy_cases d k s with c | ⟨v, -, hv, c⟩
    · exact ends_unread c
    · rw [exec, c]; exact ends_setBuf rfl hv
  | bcat d k =>
    rcases execBcat_cases d k s with c | c | ⟨u, v, -, -, hv, c⟩
    · exact ends_unread c
    · exact ends_raises c (by simp [codesOf]) nofun
    · rw [exec, c]; exact ends_setBuf rfl hv
  | bput d w =>
    rcases execBput_cases d w s with c | c | ⟨v, -, -, hv, c⟩
    · exact ends_unread c
    · exact ends_raises c (by simp [codesOf]) nofun
    · rw [exec, c]; exact ends_setBuf rfl (by simpa using hv)
  | bget k w =>
    rcases execBget_cases k w s with c | c | ⟨v, -, -, -, c⟩
    · exact ends_unread c
    · exact ends_raises c (by simp [codesOf]) nofun
    · rw [exec, c]; exact .bget k w rfl _ _
  | hbuild =>
    rcases execHbuild_cases s with c | ⟨ws, -, -, c⟩ | ⟨ws, tr, hw, ht, c⟩
    · exact ends_unread c
    · rw [exec, c]; exact .empty rfl
    · rw [exec, c]; exact .hbuild rfl ws hw tr ht
  | henc d =>
    rcases execHenc_cases d s with c | c | ⟨xs, v, -, -, hv, c⟩
    · exact ends_unread c
    · exact ends_raises c (by simp [codesOf]) nofun
    · rw [exec, c]; exact ends_setBuf rfl hv
  | hdec k =>
    rcases execHdec_cases k s with c | c | ⟨u, e, -, -, hr, c⟩
    · exact ends_unread c
    · exact ends_raises c (by simp [codesOf]) nofun
    · rw [exec, c]
      refine .symbols k (.inl rfl) e.out hr _ rfl (fun h => absurd rfl h) (fun _ => rfl) ?_
      simp; omega
  | fenc d =>
    rcases execFenc_cases d s with c | c | ⟨xs, -, hv, c⟩
    · exact ends_unread c
    · exact ends_raises c (by simp [codesOf]) nofun
    · rw [exec, c]; exact ends_setBuf rfl hv
  | fdec k =>
    rcases execFdec_cases k s with c | c | ⟨u, -, hr, c⟩
    · exact ends_unread c
    · exact ends_raises c (by simp [codesOf]) nofun
    · rw [exec, c]
      refine .symbols k (.inr (.inl rfl)) _ hr _ rfl (fun _ => rfl) (fun _ => rfl) ?_
      simp; omega
  | senc d =>
    rcases execSenc_cases d s with c | c | ⟨xs, -, hv, c⟩
    · exact ends_unread c
    · exact ends_raises c (by simp [codesOf]) nofun
    · rw [exec, c]; exact ends_setBuf rfl hv
  | sdec k =>
    rcases execSdec_cases k s with c | c | ⟨u, all, kept, -, -, -, hr, c⟩
    · exact ends_unread c
    · exact ends_raises c (by simp [codesOf]) nofun
    · rw [exec, c]
      refine .symbols k (.inr (.inr rfl)) _ (by rw [length_words]; exact hr) _ rfl (fun _ => rfl) (fun h => absurd rfl h) ?_
      rw [length_words]
      simp; omega
  | chan d k =>
    rcases execChan_cases d k s with c | c | ⟨u, -, -, hl, c⟩
    · exact ends_unread c
    · exact ends_raises c (by simp [codesOf]) nofun
    · rw [exec, c]
      exact .buffer d rfl _ (by rw [length_transmit]; exact hl) s.res
        (s.drawIdx + BitVec.ofNat 32 u.length) (fun h => absurd rfl (h k)) rfl (fun _ => rfl) (fun _ => ⟨rfl, rfl⟩)
  | renc d k =>
    rcases execRenc_cases d k s with c | c | ⟨u, -, -, hv, c⟩
    · exact ends_unread c
    · exact ends_raises c (by simp [codesOf]) nofun
    · rw [exec, c]; exact ends_setBuf rfl hv
  | rdec d k =>
    rcases execRdec_cases d k s with c | c | ⟨u, -, -, hv, c⟩
    · exact ends_unread c
    · exact ends_raises c (by simp [codesOf]) nofun
    · rw [exec, c]
      exact .buffer d rfl _ hv { s.res with resid := BitVec.ofNat 16 (u.length % s.cfg.rep.toNat) }
        s.drawIdx (fun _ => rfl) rfl (fun h => absurd rfl (h k)) (fun _ => ⟨rfl, rfl⟩)
  | corr d k =>
    rcases execCorr_cases d k s with c | c | ⟨u, es, n, -, -, -, hv, c⟩
    · exact ends_unread c
    · exact ends_raises c (by simp [codesOf]) nofun
    · rw [exec, c]
      exact .buffer d rfl _ (by omega) { s.res with corrIdx := BitVec.ofNat 10 n.idx, corrDist := BitVec.ofNat 7 n.dist }
        s.drawIdx (fun _ => rfl) rfl (fun _ => rfl) (fun h => absurd rfl (h k))

/-- No command but HBUILD changes CODE, TRIE or TBLV (R236). -/
theorem read_table_of_ends {i : Instr} {s t : State} (h : Ends i s (.next t)) (hi : i ≠ .hbuild) :
   (∀ a, inTable a → t.mem.read a = s.mem.read a) ∧ t.status.tblv = s.status.tblv := by
  cases h with
  | empty h => exact absurd h hi
  | hbuild h => exact absurd h hi
  | buffer d hd v => exact ⟨fun a ha => s.read_setBuf_table d v ha, rfl⟩
  | symbols k hd ws hw => exact ⟨fun a ha => s.read_writeSym_table _ _ hw ha, rfl⟩
  | _ => exact ⟨fun _ _ => rfl, rfl⟩

end Sys2Proof.Machine
end

