-- ==== Sys2Proof/Laws/Step.lean ====
section
/-! SUPPORT. What a step is at each kind of turn, and what an aligned host access does at each kind of place. -/

namespace Sys2Proof.Machine

theorem step_host (s : State) (x : Access) : step (s.atTurn (.host x)) = s.hostTurn x := rfl
theorem step_engine (s : State) : step (s.atTurn .engine) = s.engineTurn := rfl
theorem step_powerOn (s : State) : step (s.atTurn .powerOn) = .next s.powerOn := rfl

theorem step_read (s : State) (a : BusAddr) (h : a.toNat % 4 = 0) :
    step (s.atTurn (.host (.read .word a))) = s.hostRead a.toNat := by
  rw [step_host]
  simp [State.hostTurn, accessSupported, h]

theorem step_write (s : State) (a : BusAddr) (w : Word) (h : a.toNat % 4 = 0) :
    step (s.atTurn (.host (.write .word a w))) = s.hostWrite a.toNat w := by
  rw [step_host]
  simp [State.hostTurn, accessSupported, h]

/-- A register write is performed when idle, and while busy for STATUS, CMD and CTRL with SRST = 0 (R460). -/
theorem step_write_reg (s : State) (a : BusAddr) (r : Reg) (w : Word) (ha : r.addr = a.toNat)
    (h : s.status.busy = false ∨ r = .status ∨ r = .cmd ∨ (r = .ctrl ∧ w.getLsbD 1 = false)) :
    step (s.atTurn (.host (.write .word a w))) = .next (s.writeReg r w) := by
  rw [step_write s a w (ha ▸ r.addr_aligned), ← ha]
  unfold State.hostWrite
  rw [placeAt_reg]
  have : (s.status.busy && !busyWriteAllowed (.reg r) w) = false := by
    rcases h with h | h | h | ⟨h, h'⟩
    · rw [h]; rfl
    all_goals (rw [show busyWriteAllowed (.reg r) w = true by simp [h, busyWriteAllowed]; try exact h']; simp)
  simp [this, State.writePlace]

theorem Reg.toNat_addr (r : Reg) : (BitVec.ofNat 20 r.addr).toNat = r.addr := by
  rw [BitVec.toNat_ofNat]
  apply Nat.mod_eq_of_lt
  have := r.addr_lt
  omega

theorem placeAt_eq_reg {a : Nat} {r : Reg} : placeAt a = .reg r ↔ a = r.addr := by
  constructor
  · intro h
    rcases placeAt_cases a with ⟨q, hp, ha⟩ | ⟨v, hp, -⟩ | ⟨hp, -⟩ <;> rw [h] at hp <;> cases hp
    exact ha.symm
  · rintro rfl; exact placeAt_reg r

end Sys2Proof.Machine
end

