-- ==== Sys2Proof/Laws/HostProgram.lean ====
section
/-! SUPPORT. The bit-length accounting of R365: what the host's reads return, and which commands set and keep it. -/

namespace Sys2Proof.Machine

@[simp] theorem State.accounting_encoded (s : State) : s.accounting.encoded = s.bufLen .b0 := rfl
@[simp] theorem State.accounting_withRedundancy (s : State) : s.accounting.withRedundancy = s.bufLen .b1 := rfl

theorem State.toNat_readReg_len (s : State) (b : BufId) : (s.readReg (.len b)).toNat = s.bufLen b := by
  have := s.bufLen_le b
  simp only [State.readReg, BitVec.toNat_ofNat]
  omega

/-- An idle host read of a register returns it. -/
theorem step_hostRd (s : State) (r : Reg) (h : s.status.busy = false) :
    step (s.atTurn (hostRd r)) = .next { s with rdata := s.readReg r } := by
  rw [hostRd, step_read s _ (by rw [r.toNat_addr]; exact r.addr_aligned), r.toNat_addr]
  simp [State.hostRead, placeAt_reg, h, State.readPlace]

/-- The accounting after a successful command that wrote buffer `d`, for each of the two buffers it reads. -/
theorem accounting_of_setsBuffer {s t : State} {d : BufId} {v : Bits} (h : SetsBuffer d v s t) :
    t.accounting = { encoded := if d = .b0 then v.length else s.bitsUsed
                     withRedundancy := if d = .b1 then v.length else s.bitsUsedWithRedundancy } := by
  simp only [State.accounting, State.bitsUsed, State.bitsUsedWithRedundancy, BitLengths.mk.injEq]
  constructor
  · split
    · rename_i e; exact e ▸ h.length
    · rename_i e; exact h.otherLens _ (Ne.symm e)
  · split
    · rename_i e; exact e ▸ h.length
    · rename_i e; exact h.otherLens _ (Ne.symm e)

/-- RENC leaves the encoding's length in LEN0, and in LEN1 that length times REP (R365, R321). -/
theorem accounting_renc (s : State) (u : Bits) (hr : s.cfg.rep ≠ 0) (hu : s.buf .b0 = .ok u)
    (hl : s.bitsUsed * s.cfg.rep.toNat ≤ 16384) :
    ∃ t, exec (.renc .b1 .b0) s = .next t ∧
      t.accounting = { encoded := s.bitsUsed, withRedundancy := s.bitsUsed * s.cfg.rep.toNat } := by
  have hn : u.length = s.bitsUsed := State.buf_length hu
  have h0 : ¬ s.cfg.rep.toNat < 1 := by
    intro h; exact hr (BitVec.eq_of_toNat_eq (by simp; omega))
  have hv : (repeatBits s.cfg.rep.toNat u).length ≤ 16384 := by rw [length_repeatBits, hn]; exact hl
  refine ⟨(s.setBuf .b1 (repeatBits s.cfg.rep.toNat u)).completeOk, ?_, ?_⟩
  · simp [exec, execRenc, h0, hu, hn, Nat.not_lt.mpr hl]
  · exact (accounting_of_setsBuffer (s := s) (setsBuffer_of hv rfl rfl)).trans (by simp [hn])

/-- No command whose destination is neither B0 nor B1 changes the accounting: CHAN, RDEC, CORR and the decoders of a
pipeline among them, whether they succeed or raise an error (R361, R362, R364). -/
theorem accounting_kept {i : Instr} {s t : State} (h : exec i s = .next t) (h0 : bufferDst i ≠ some .b0)
    (h1 : bufferDst i ≠ some .b1) : t.accounting = s.accounting := by
  have he := exec_ends i s
  rw [h] at he
  cases he with
  | buffer d hd v hv =>
    refine (accounting_of_setsBuffer (s := s) (setsBuffer_of hv rfl rfl)).trans ?_
    rw [if_neg (by rintro rfl; exact h0 hd), if_neg (by rintro rfl; exact h1 hd)]
    rfl
  | _ => rfl

end Sys2Proof.Machine
end

