-- ==== Sys2Proof/Machine/HostRun.lean ====
section
/-! DEFINITION. Host programs that run: turns in sequence, and the semantic strategy over all triples of an item, whose
host uses what it reads from one triple for the next (R362, R363). -/

namespace Sys2Proof.Machine

/-- Run the turns one after another, each as the next turn of the agenda; the first fault ends the run (R420). -/
def State.runTurns (s : State) : List Turn → Host.Outcome State Fault Refusal
  | [] => .next s
  | x :: xs =>
    match step { s with agenda := x :: s.agenda } with
    | .next t => t.runTurns xs
    | .fault e => .fault e
    | .refused e => .refused e

/-- The two words of codebook entry E, low word first (R59, R340). -/
def entryWords (e : Nat) : List Word := [BitVec.ofNat 32 e, BitVec.ofNat 32 (e / 2 ^ 32)]

/-- The value of the codebook entry of a known triple: its bits_TW packing (R362, R275). -/
def Triple.entry (x : Triple) (f : FieldWidths) : Nat := val (x.bits f)

/-- The host's codebook for the semantic strategy: CB_W = WH + WR + WT, one entry per known triple (R362). -/
def hostCodebook (f : FieldWidths) (known : List Triple) : List Turn :=
  [hostWr .cbW (BitVec.ofNat 32 f.total), hostWr .cbN (BitVec.ofNat 32 known.length)]
  ++ (cellsAt (cbAddr 0) (known.flatMap fun x => entryWords (x.entry f))).map fun c => hostWrAt c.1 c.2

/-- The duties of the host before the sequence of R362: CB_W is the sum of the field widths, and the codebook's entries
are the packings of the known triples. The third duty, that RDEC's output has length TW, holds by R325. -/
structure SemanticDuties (s : State) (known : List Triple) : Prop where
  width : s.cfg.cbW.toNat = s.fieldWidths.total
  count : s.cfg.cbN.toNat = known.length
  entries : ∀ j x, known[j]? = some x →
    s.readEntry j = .ok (x.entry s.fieldWidths) ∧ x.entry s.fieldWidths < 2 ^ s.cfg.cbW.toNat

/-- What the host has after the triples of an item: the machine, the SYM word where the next kept triple would go, and
the SYM_OUT_CNT it read after each SDEC, oldest first (R362). -/
structure SemanticRun where
  state : State
  ob : Nat
  counts : List Nat
  deriving DecidableEq, Repr

/-- The turns for triple `i`, and the host's read of SYM_OUT_CNT after the SDEC (R362). -/
def semanticTriple (polls i ob : Nat) : List Turn := semanticTurns polls i ob ++ [hostRd .symOutCnt]

/-- The semantic strategy for `n` triples of the input from triple `i` on. After each SDEC `ob` advances by
3·SYM_OUT_CNT, so kept triples pack together in order, and a dropped triple adds no words (R362). The host reads
SYM_OUT_CNT also after a command that raised an error (assumption 22, DESIGN CHOICE). -/
def State.semanticRun (s : State) (polls i ob : Nat) : Nat → Host.Outcome SemanticRun Fault Refusal
  | 0 => .next { state := s, ob := ob, counts := [] }
  | n + 1 =>
    match s.runTurns (semanticTriple polls i ob) with
    | .next t =>
      match t.semanticRun polls (i + 1) (ob + 3 * t.rdata.toNat) n with
      | .next r => .next { r with counts := t.rdata.toNat :: r.counts }
      | .fault e => .fault e
      | .refused e => .refused e
    | .fault e => .fault e
    | .refused e => .refused e

/-- The words of the reconstructed triples of an item whose output began at SYM word `ob` (R362). -/
def SemanticRun.words (r : SemanticRun) (ob : Nat) : Except Stop (List Word) :=
  r.state.readWords (symAddr ob) (3 * r.counts.sum)

/-- With every triple of the item dropped the host does not invoke the downstream step (R363). -/
def SemanticRun.downstream (r : SemanticRun) : Bool := downstreamInvoked r.counts

end Sys2Proof.Machine
end

