-- ==== Sys2Proof/Laws/HostRun.lean ====
section
/-! SUPPORT. What a run of host turns does: a bare command runs its command, and the semantic strategy packs the kept
triples of an item in order (R362). -/

namespace Sys2Proof.Machine

/-! ## Turns in sequence -/

@[simp] theorem State.runTurns_nil (s : State) : s.runTurns [] = .next s := rfl

theorem State.runTurns_cons {s t : State} {x : Turn} (h : step (s.atTurn x) = .next t) (xs : List Turn) :
    s.runTurns (x :: xs) = t.runTurns xs := by
  simp only [State.atTurn] at h
  simp only [State.runTurns, h]

theorem State.runTurns_append {s t : State} {xs : List Turn} (h : s.runTurns xs = .next t) (ys : List Turn) :
    s.runTurns (xs ++ ys) = t.runTurns ys := by
  induction xs generalizing s with
  | nil => cases h; rfl
  | cons x xs ih =>
    simp only [State.runTurns, List.cons_append] at h ⊢
    split at h
    · exact ih h
    · cases h
    · cases h

/-- A run of two lists of turns goes through the state after the first. -/
theorem State.runTurns_append_next {s t : State} {xs ys : List Turn} (h : s.runTurns (xs ++ ys) = .next t) :
    ∃ u, s.runTurns xs = .next u ∧ u.runTurns ys = .next t := by
  induction xs generalizing s with
  | nil => exact ⟨s, rfl, h⟩
  | cons x xs ih =>
    simp only [State.runTurns, List.cons_append] at h ⊢
    split at h
    · exact ih h
    · cases h
    · cases h

/-- A poll of STATUS returns it, idle or busy. -/
theorem step_poll (s : State) : step (s.atTurn (hostRd .status)) = .next { s with rdata := s.status.word } := by
  rw [hostRd, step_read s _ (by rw [Reg.toNat_addr]; exact Reg.addr_aligned _), Reg.toNat_addr]
  simp [State.hostRead, placeAt_reg, busyReadAllowed, State.readPlace, State.readReg]

/-- A register write of an idle host is performed. -/
theorem step_hostWr (s : State) (r : Reg) (w : Word) (h : s.status.busy = false) :
    step (s.atTurn (hostWr r w)) = .next (s.writeReg r w) :=
  step_write_reg s _ r w r.toNat_addr.symm (.inl h)

/-- A command that completes leaves the VLCE idle. -/
theorem exec_idle {i : Instr} {s t : State} (h : exec i s = .next t) : t.status.busy = false := by
  have he := exec_ends i s
  rw [h] at he
  cases he <;> rfl

/-- The polls that see a command still running return its STATUS and change nothing else. -/
theorem runTurns_polls (polls : Nat) (s : State) :
    ∃ d, s.runTurns (List.replicate polls (hostRd .status)) = .next { s with rdata := d } := by
  induction polls generalizing s with
  | zero => exact ⟨s.rdata, rfl⟩
  | succ n ih =>
    obtain ⟨d, hd⟩ := ih { s with rdata := s.status.word }
    exact ⟨d, by rw [List.replicate_succ, State.runTurns_cons (step_poll s), hd]⟩

/-- A bare command of an idle host: its word is accepted, the polls change only the data the host reads, and the rest is
the command itself (R150, R151, R153). -/
theorem runTurns_hostCommand {s t : State} {i : Instr} {polls : Nat} (hs : s.status.busy = false)
    (hd : decode (encode i) = .ok i) (h : s.runTurns (hostCommand polls i) = .next t) :
    ∃ d u, exec i { s.accept (encode i) with rdata := d } = .next u ∧ t = { u with rdata := u.status.word } := by
  have hw : step (s.atTurn (hostIssue i)) = .next (s.accept (encode i)) := by
    rw [hostIssue, step_hostWr s _ _ hs]; simp [State.writeReg, State.writeCmd, hs]
  rw [hostCommand, State.runTurns_cons hw, hostWait] at h
  obtain ⟨d, hp⟩ := runTurns_polls polls (s.accept (encode i))
  rw [State.runTurns_append hp] at h
  have he : step (State.atTurn { s.accept (encode i) with rdata := d } .engine) =
      exec i { s.accept (encode i) with rdata := d } := by
    rw [step_engine]; simp [State.engineTurn, State.engineStep, State.accept, hd]
  cases hx : exec i { s.accept (encode i) with rdata := d } with
  | next u =>
    rw [hx] at he
    rw [State.runTurns_cons he, State.runTurns_cons (step_poll u)] at h
    cases h
    exact ⟨d, u, hx, rfl⟩
  | fault e =>
    rw [hx] at he; simp only [State.atTurn] at he
    simp only [State.runTurns, he] at h; cases h
  | refused e =>
    rw [hx] at he; simp only [State.atTurn] at he
    simp only [State.runTurns, he] at h; cases h

/-! ## The host's codebook -/

/-- Host writes of consecutive words of a read-write window put them there, and change nothing else. -/
theorem runTurns_hostWrAt {s : State} {a : Nat} {ws : List Word} (hs : s.status.busy = false)
    (hw : ∀ j, j < ws.length → windowAt (a + 4 * j) = some .readWrite ∧ (a + 4 * j) % 4 = 0 ∧ a + 4 * j < 2 ^ 20) :
    ∃ t, s.runTurns ((cellsAt a ws).map fun c => hostWrAt c.1 c.2) = .next t ∧ t = { s with mem := t.mem } ∧
      (∀ j, j < ws.length → t.mem.read (a + 4 * j) = ws[j]?) ∧ ∀ b, b < a → t.mem.read b = s.mem.read b := by
  induction ws generalizing s a with
  | nil => exact ⟨s, rfl, rfl, by simp, fun _ _ => rfl⟩
  | cons w ws ih =>
    obtain ⟨h1, h2, h3⟩ := hw 0 (by simp)
    have ha : (BitVec.ofNat 20 a).toNat = a := by rw [BitVec.toNat_ofNat]; omega
    have hstep : step (s.atTurn (hostWrAt a w)) = .next (s.writeWords a [w]) := by
      rw [hostWrAt, step_write s _ w (by omega), ha]
      simp only [Nat.mul_zero, Nat.add_zero] at h1
      simp [State.hostWrite, placeAt_of_window h1, hs, State.writePlace]
    obtain ⟨t, ht, he, hin, hout⟩ := ih (s := s.writeWords a [w]) (a := a + 4) hs (fun j hj => by
      have := hw (j + 1) (by simpa using hj)
      rwa [show a + 4 * (j + 1) = a + 4 + 4 * j by omega] at this)
    refine ⟨t, ?_, ?_, ?_, ?_⟩
    · rw [cellsAt, List.map_cons, State.runTurns_cons hstep, ht]
    · rw [he]; rfl
    · rintro (_ | j) hj
      · rw [Nat.mul_zero, Nat.add_zero, hout a (by omega)]
        exact Memory.read_writeWords_inside s.mem a 0 [w] (by simp)
      · rw [show a + 4 * (j + 1) = a + 4 + 4 * j by omega, hin j (by simpa using hj)]; rfl
    · intro b hb
      rw [hout b (by omega)]
      exact Memory.read_writeWords_outside _ _ _ _ (.inl hb)

theorem getElem?_entries (es : List Nat) (j : Nat) : (es.flatMap entryWords)[2 * j]? = es[j]?.map (BitVec.ofNat 32) ∧
    (es.flatMap entryWords)[2 * j + 1]? = es[j]?.map fun e => BitVec.ofNat 32 (e / 2 ^ 32) := by
  induction es generalizing j with
  | nil => simp
  | cons e es ih =>
    cases j with
    | zero => exact ⟨rfl, rfl⟩
    | succ j => simpa [entryWords, Nat.mul_add] using ih j

/-- The packing of a triple has TW bits, so it is below 2^TW (R275). -/
theorem Triple.entry_lt (x : Triple) (f : FieldWidths) : x.entry f < 2 ^ f.total := by
  have := val_lt (x.bits f)
  simpa [Triple.entry, Triple.bits, FieldWidths.total, Nat.add_assoc] using this

/-- The host's codebook turns meet the duties of R362, for every field widths of legal size and every list of triples
that fits CB. -/
theorem hostCodebook_duties {s : State} {known : List Triple} (hs : s.status.busy = false)
    (hf : s.fieldWidths.legal = true) (hk : known.length ≤ 1024) :
    ∃ t, s.runTurns (hostCodebook s.fieldWidths known) = .next t ∧ t.status.busy = false ∧
      t.fieldWidths = s.fieldWidths ∧ SemanticDuties t known := by
  set f := s.fieldWidths with hfd
  have h48 : f.total ≤ 48 := by
    simp only [FieldWidths.legal, Config.maxFieldW, decide_eq_true_eq] at hf
    simp only [FieldWidths.total] at hf ⊢; omega
  have hx : (known.flatMap fun x => entryWords (x.entry f)) = (known.map fun x => x.entry f).flatMap entryWords := by
    rw [List.flatMap_map]
  have hl : (known.flatMap fun x => entryWords (x.entry f)).length = 2 * known.length := by
    rw [List.length_flatMap]; simp [entryWords, Nat.mul_comm]
  let s1 := (s.writeReg .cbW (BitVec.ofNat 32 f.total)).writeReg .cbN (BitVec.ofNat 32 known.length)
  have h1 : s.runTurns [hostWr .cbW (BitVec.ofNat 32 f.total), hostWr .cbN (BitVec.ofNat 32 known.length)] = .next s1 := by
    rw [State.runTurns_cons (step_hostWr s _ _ hs),
      State.runTurns_cons (step_hostWr (s.writeReg .cbW (BitVec.ofNat 32 f.total)) _ _ hs)]; rfl
  obtain ⟨t, ht, he, hin, -⟩ := runTurns_hostWrAt (s := s1) (a := cbAddr 0)
    (ws := known.flatMap fun x => entryWords (x.entry f)) hs (fun j hj => by
      rw [hl] at hj
      refine ⟨?_, by unfold cbAddr; omega, by unfold cbAddr; omega⟩
      unfold windowAt cbAddr
      repeat' split
      all_goals first | rfl | omega)
  have hc : t.cfg = s1.cfg := by rw [he]
  refine ⟨t, by rw [hostCodebook, State.runTurns_append h1, ht], by rw [he]; exact hs, ?_, ?_⟩
  · rw [State.fieldWidths, hc]; rfl
  · have hw : t.cfg.cbW.toNat = f.total := by
      rw [hc]; simp [s1, State.writeReg]; omega
    have hft : t.fieldWidths = f := by rw [State.fieldWidths, hc]; rfl
    refine ⟨by rw [hw, hft], by rw [hc]; simp [s1, State.writeReg]; omega, fun j x hj => ?_⟩
    rw [hft, hw]
    refine ⟨?_, x.entry_lt f⟩
    have hjl : j < known.length := by
      by_contra h; rw [List.getElem?_eq_none (by omega)] at hj; cases hj
    have hg := getElem?_entries (known.map fun x => x.entry f) j
    rw [← hx, List.getElem?_map, hj] at hg
    have hlo := (hin (2 * j) (by omega)).trans hg.1
    have hhi := (hin (2 * j + 1) (by omega)).trans hg.2
    rw [show cbAddr 0 + 4 * (2 * j) = cbAddr j by unfold cbAddr; omega] at hlo
    rw [show cbAddr 0 + 4 * (2 * j + 1) = cbAddr j + 4 by unfold cbAddr; omega] at hhi
    have h64 : x.entry f < 2 ^ 64 := lt_of_lt_of_le (x.entry_lt f) (Nat.pow_le_pow_right (by omega) (by omega))
    simp only [State.readEntry, State.readWord, hlo, hhi, Option.map_some]
    have : (x.entry f / 2 ^ 32) % 2 ^ 32 * 2 ^ 32 + x.entry f % 2 ^ 32 = x.entry f := by omega
    simpa [Except.bind, Except.map, BitVec.toNat_ofNat] using this

/-! ## One triple of the semantic strategy -/

/-- A bare command whose destination is a buffer changes no SYM word and no configuration register. -/
theorem hostCommand_buffer {s t : State} {i : Instr} {polls : Nat} {b : BufId} (hs : s.status.busy = false)
    (hd : decode (encode i) = .ok i) (hb : bufferDst i = some b) (h : s.runTurns (hostCommand polls i) = .next t) :
    t.status.busy = false ∧ t.cfg = s.cfg ∧ ∀ a, a < 0x20000 → t.mem.read a = s.mem.read a := by
  obtain ⟨d, u, hx, rfl⟩ := runTurns_hostCommand hs hd h
  have hidle := exec_idle hx
  refine ⟨hidle, ?_⟩
  have he := exec_ends i { s.accept (encode i) with rdata := d }
  rw [hx] at he
  cases he with
  | raised => exact ⟨rfl, fun _ _ => rfl⟩
  | empty hi => rw [hi] at hb; cases hb
  | buffer d' _ v hv => exact ⟨rfl, fun a ha => State.read_setBuf_outside _ d' v a (.inl (by unfold bufAddr; omega))⟩
  | symbols k hi => rcases hi with rfl | rfl | rfl <;> cases hb
  | nop hi => rw [hi] at hb; cases hb
  | bget k w hi => rw [hi] at hb; cases hb
  | hbuild hi => rw [hi] at hb; cases hb

/-- A bare SDEC changes no SYM word below SYM_OUT_BASE. -/
theorem hostCommand_sdec {s t : State} {k : BufId} {polls : Nat} (hs : s.status.busy = false)
    (hd : decode (encode (.sdec k)) = .ok (.sdec k)) (h : s.runTurns (hostCommand polls (.sdec k)) = .next t) :
    t.status.busy = false ∧ ∀ a, a < symAddr s.cfg.symOutBase.toNat → t.mem.read a = s.mem.read a := by
  obtain ⟨d, u, hx, rfl⟩ := runTurns_hostCommand hs hd h
  have hidle := exec_idle hx
  refine ⟨hidle, ?_⟩
  have he := exec_ends (.sdec k) { s.accept (encode (.sdec k)) with rdata := d }
  rw [hx] at he
  cases he with
  | raised => exact fun _ _ => rfl
  | empty hi => cases hi
  | buffer d' hb => cases hb
  | symbols k' hi ws hw r => exact fun a ha => Memory.read_writeWords_outside _ _ _ _ (.inl ha)
  | nop hi => cases hi
  | bget k' w hi => cases hi
  | hbuild hi => cases hi

/-- The pipeline's commands up to the corrector change no SYM word and no configuration register. -/
theorem runTurns_pipelineSemantic {s t : State} {polls : Nat} (hs : s.status.busy = false)
    (h : s.runTurns (pipelineSemantic.flatMap (hostCommand polls)) = .next t) :
    t.status.busy = false ∧ t.cfg = s.cfg ∧ ∀ a, a < 0x20000 → t.mem.read a = s.mem.read a := by
  have key : ∀ (l : List Instr) (s : State), (∀ i ∈ l, decode (encode i) = .ok i ∧ ∃ b, bufferDst i = some b) →
      s.status.busy = false → s.runTurns (l.flatMap (hostCommand polls)) = .next t →
      t.status.busy = false ∧ t.cfg = s.cfg ∧ ∀ a, a < 0x20000 → t.mem.read a = s.mem.read a := by
    intro l
    induction l with
    | nil => intro s _ hs h; cases h; exact ⟨hs, rfl, fun _ _ => rfl⟩
    | cons i l ih =>
      intro s hl hs h
      rw [List.flatMap_cons] at h
      obtain ⟨u, hu, h⟩ := State.runTurns_append_next h
      obtain ⟨hi, b, hb⟩ := hl i (by simp)
      obtain ⟨h1, h2, h3⟩ := hostCommand_buffer hs hi hb hu
      obtain ⟨k1, k2, k3⟩ := ih u (fun j hj => hl j (by simp [hj])) h1 h
      exact ⟨k1, k2.trans h2, fun a ha => (k3 a ha).trans (h3 a ha)⟩
  refine key _ s ?_ hs h
  simp only [pipelineSemantic, List.forall_mem_cons, List.not_mem_nil, false_implies, implies_true, and_true]
  exact ⟨⟨by decide, _, rfl⟩, ⟨by decide, _, rfl⟩, ⟨by decide, _, rfl⟩, ⟨by decide, _, rfl⟩, by decide, _, rfl⟩

/-- One triple's turns leave the VLCE idle, return SYM_OUT_CNT to the host, and change no SYM word below `ob`. -/
theorem runTurns_semanticTriple {s t : State} {polls i ob : Nat} (hs : s.status.busy = false) (ho : ob < 1024)
    (h : s.runTurns (semanticTriple polls i ob) = .next t) :
    t.status.busy = false ∧ t.rdata = t.readReg .symOutCnt ∧ ∀ a, a < symAddr ob → t.mem.read a = s.mem.read a := by
  have ha : symAddr ob ≤ 0x20000 := by unfold symAddr; omega
  rw [semanticTriple, semanticTurns] at h
  obtain ⟨u, hu, h⟩ := State.runTurns_append_next h
  obtain ⟨v, hv, hu⟩ := State.runTurns_append_next hu
  obtain ⟨w, hw, hv⟩ := State.runTurns_append_next hv
  have hin : w = (s.writeReg .symInBase (BitVec.ofNat 32 (3 * i))).writeReg .symInCnt 1 := by
    rw [State.runTurns_cons (step_hostWr s _ _ hs), State.runTurns_cons
      (step_hostWr (s.writeReg .symInBase (BitVec.ofNat 32 (3 * i))) _ _ hs)] at hw
    cases hw; rfl
  obtain ⟨h1, -, h3⟩ := runTurns_pipelineSemantic (s := w) (hin ▸ hs) hv
  rw [State.runTurns_cons (step_hostWr v _ _ h1)] at hu
  obtain ⟨k1, k2⟩ := hostCommand_sdec (s := v.writeReg .symOutBase (BitVec.ofNat 32 ob)) h1 (by decide) hu
  rw [State.runTurns_cons (step_hostRd u _ k1)] at h
  cases h
  have hb : (v.writeReg .symOutBase (BitVec.ofNat 32 ob)).cfg.symOutBase.toNat = ob := by
    simp [State.writeReg]; omega
  refine ⟨k1, rfl, fun a h => ?_⟩
  rw [hb] at k2
  exact (k2 a h).trans ((h3 a (by omega)).trans (by rw [hin]; rfl))

/-! ## The triples of an item -/

/-- A run over one more triple is that triple's turns and the run over the rest, from where its kept words end. -/
theorem State.semanticRun_succ {s : State} {polls i ob n : Nat} {r : SemanticRun}
    (h : s.semanticRun polls i ob (n + 1) = .next r) :
    ∃ t q, s.runTurns (semanticTriple polls i ob) = .next t ∧
      t.semanticRun polls (i + 1) (ob + 3 * t.rdata.toNat) n = .next q ∧
      r = { q with counts := t.rdata.toNat :: q.counts } := by
  rw [State.semanticRun] at h
  split at h
  · rename_i t ht
    split at h
    · rename_i q hq; cases h; exact ⟨t, q, ht, hq, rfl⟩
    · cases h
    · cases h
  · cases h
  · cases h

/-- The host reads one count per triple, and `ob` ends 3 words further for each triple kept (R362). -/
theorem State.semanticRun_ob {s : State} {polls i ob n : Nat} {r : SemanticRun}
    (h : s.semanticRun polls i ob n = .next r) : r.counts.length = n ∧ r.ob = ob + 3 * r.counts.sum := by
  induction n generalizing s i ob r with
  | zero => cases h; exact ⟨rfl, rfl⟩
  | succ n ih =>
    obtain ⟨t, q, -, hq, rfl⟩ := State.semanticRun_succ h
    obtain ⟨h1, h2⟩ := ih hq
    refine ⟨by simp [h1], ?_⟩
    simp only [h2, List.sum_cons]; omega

/-- The run changes no word below its first output word: what earlier triples packed stays (R362). -/
theorem State.semanticRun_keeps_packed {s : State} {polls i ob n : Nat} {r : SemanticRun} (hs : s.status.busy = false)
    (hr : r.ob < 1024) (h : s.semanticRun polls i ob n = .next r) :
    r.state.status.busy = false ∧ ∀ a, a < symAddr ob → r.state.mem.read a = s.mem.read a := by
  induction n generalizing s i ob r with
  | zero => cases h; exact ⟨hs, fun _ _ => rfl⟩
  | succ n ih =>
    have ho := (State.semanticRun_ob h).2
    obtain ⟨t, q, ht, hq, rfl⟩ := State.semanticRun_succ h
    obtain ⟨h1, -, h3⟩ := runTurns_semanticTriple hs (by simp only at ho hr; omega) ht
    obtain ⟨k1, k2⟩ := ih (r := q) h1 hr hq
    exact ⟨k1, fun a ha => (k2 a (by unfold symAddr at ha ⊢; omega)).trans (h3 a ha)⟩

/-- Packing: the words a triple's SDEC left below the next output word are in SYM at the end of the item (R362). -/
theorem State.semanticRun_packs {s : State} {polls i ob n : Nat} {r : SemanticRun} (hs : s.status.busy = false)
    (hr : r.ob < 1024) (h : s.semanticRun polls i ob (n + 1) = .next r) :
    ∃ t c cs, s.runTurns (semanticTriple polls i ob) = .next t ∧ c = (t.readReg .symOutCnt).toNat ∧
      r.counts = c :: cs ∧ ∀ a, a < symAddr (ob + 3 * c) → r.state.mem.read a = t.mem.read a := by
  have ho := (State.semanticRun_ob h).2
  obtain ⟨t, q, ht, hq, rfl⟩ := State.semanticRun_succ h
  obtain ⟨h1, h2, -⟩ := runTurns_semanticTriple hs (by simp only at ho hr; omega) ht
  exact ⟨t, t.rdata.toNat, q.counts, ht, by rw [h2], rfl, (State.semanticRun_keeps_packed (r := q) h1 hr hq).2⟩

/-- The downstream step is invoked exactly when some word was reconstructed (R363). -/
theorem SemanticRun.downstream_iff {s : State} {polls i ob n : Nat} {r : SemanticRun}
    (h : s.semanticRun polls i ob n = .next r) : r.downstream = true ↔ r.ob ≠ ob := by
  have := (State.semanticRun_ob h).2
  simp only [SemanticRun.downstream, downstreamInvoked, decide_eq_true_eq]; omega

end Sys2Proof.Machine
end

