-- ==== Sys2Proof/Laws/PerInstr.lean ====
section
/-! SUPPORT. The family MaskMatch: each command's encoding matches its row of the opcode table. -/

namespace Sys2Proof.Laws.MaskMatch

/-- The encoding of a well-formed command carries the command's OPC and a zero RSV, and bits 15:6, which no command
uses, are 0 (R140, R142, R146, R149). -/
def Statement (i : Instr) : Prop :=
  i.wellFormed = true → opcOf (encode i) = i.opcode ∧ rsvOf (encode i) = 0 ∧
    wordField (encode i) 15 6 = 0

theorem of_fields {opc dst src imm : Nat} (ho : opc < 256) (hd : dst < 4) (hs : src < 4) (hi : imm < 64) :
    opcOf (encWord opc dst src imm) = opc ∧ rsvOf (encWord opc dst src imm) = 0 ∧
      wordField (encWord opc dst src imm) 15 6 = 0 := by
  have h := encWord_fields ho hd hs hi
  refine ⟨h.1, h.2.2.2.1, ?_⟩
  unfold wordField
  rw [toNat_encWord ho hd hs (by omega)]
  omega

theorem nop : Statement .nop := fun _ => of_fields (by omega) (by omega) (by omega) (by omega)
theorem bclr (d : BufId) : Statement (.bclr d) := fun _ => of_fields (by omega) d.field_lt (by omega) (by omega)
theorem bcopy (d k : BufId) : Statement (.bcopy d k) := fun _ => of_fields (by omega) d.field_lt k.field_lt (by omega)
theorem bcat (d k : BufId) : Statement (.bcat d k) := fun _ => of_fields (by omega) d.field_lt k.field_lt (by omega)
theorem bput (d : BufId) (w : Nat) : Statement (.bput d w) := fun h =>
  of_fields (by omega) d.field_lt (by omega) (by simpa [Instr.wellFormed, widthFits] using h)
theorem bget (k : BufId) (w : Nat) : Statement (.bget k w) := fun h =>
  of_fields (by omega) (by omega) k.field_lt (by simpa [Instr.wellFormed, widthFits] using h)
theorem hbuild : Statement .hbuild := fun _ => of_fields (by omega) (by omega) (by omega) (by omega)
theorem henc (d : BufId) : Statement (.henc d) := fun _ => of_fields (by omega) d.field_lt (by omega) (by omega)
theorem hdec (k : BufId) : Statement (.hdec k) := fun _ => of_fields (by omega) (by omega) k.field_lt (by omega)
theorem fenc (d : BufId) : Statement (.fenc d) := fun _ => of_fields (by omega) d.field_lt (by omega) (by omega)
theorem fdec (k : BufId) : Statement (.fdec k) := fun _ => of_fields (by omega) (by omega) k.field_lt (by omega)
theorem senc (d : BufId) : Statement (.senc d) := fun _ => of_fields (by omega) d.field_lt (by omega) (by omega)
theorem sdec (k : BufId) : Statement (.sdec k) := fun _ => of_fields (by omega) (by omega) k.field_lt (by omega)
theorem chan (d k : BufId) : Statement (.chan d k) := fun _ => of_fields (by omega) d.field_lt k.field_lt (by omega)
theorem renc (d k : BufId) : Statement (.renc d k) := fun _ => of_fields (by omega) d.field_lt k.field_lt (by omega)
theorem rdec (d k : BufId) : Statement (.rdec d k) := fun _ => of_fields (by omega) d.field_lt k.field_lt (by omega)
theorem corr (d k : BufId) : Statement (.corr d k) := fun _ => of_fields (by omega) d.field_lt k.field_lt (by omega)

end Sys2Proof.Laws.MaskMatch
end

