-- ==== Sys2Proof/Tests/Slice0.lean ====
section
/-! SUPPORT. Tests with expected values from the spec (30_encoding.md R149, 95_test_vectors.md), and one witness for the
hypotheses of every obligation that has some. -/

namespace Sys2Proof.Tests

-- One theorem at a time: many kernel evaluations at once would need too many threads.
set_option Elab.async false

open Sys2Proof.Machine

/-! ## Well-formedness -/

theorem test_bput_width_64_refused : (Instr.bput .b0 64).wellFormed = false := by decide
theorem test_bget_width_64_refused : (Instr.bget .b3 64).wellFormed = false := by decide
theorem test_widths_0_and_63_fit : (Instr.bput .b0 0).wellFormed = true ∧ (Instr.bget .b0 63).wellFormed = true := by
  decide

/-! ## Decoding: the words of R149, one per command, the first of each family written bit by bit -/

/-- OPC 00000010, DST 10, SRC 00, RSV 0000, IMM 0 (R140, R149). -/
theorem test_decode_bcopy_bits : decode 0b00000010100000000000000000000000 = .ok (.bcopy .b2 .b0) := by decide
/-- OPC 00010010, DST 00, SRC 11 (R140, R149). -/
theorem test_decode_hdec_bits : decode 0b00010010001100000000000000000000 = .ok (.hdec .b3) := by decide
/-- OPC 00011000, DST 01, SRC 00 (R140, R149). -/
theorem test_decode_fenc_bits : decode 0b00011000010000000000000000000000 = .ok (.fenc .b1) := by decide
/-- OPC 00101000, DST 10, SRC 01 (R140, R149). -/
theorem test_decode_chan_bits : decode 0b00101000100100000000000000000000 = .ok (.chan .b2 .b1) := by decide
/-- OPC 00110001, DST 11, SRC 10 (R140, R149). -/
theorem test_decode_rdec_bits : decode 0b00110001111000000000000000000000 = .ok (.rdec .b3 .b2) := by decide
/-- OPC 00111000, DST 11, SRC 11 (R140, R149). -/
theorem test_decode_corr_bits : decode 0b00111000111100000000000000000000 = .ok (.corr .b3 .b3) := by decide

/-- The other commands, from the encodings of 95_test_vectors.md and R149. -/
theorem test_decode_words :
    decode 0x00000000 = .ok .nop ∧ decode 0x01400000 = .ok (.bclr .b1) ∧ decode 0x03100000 = .ok (.bcat .b0 .b1) ∧
    decode 0x04000020 = .ok (.bput .b0 32) ∧ decode 0x05000003 = .ok (.bget .b0 3) ∧ decode 0x10000000 = .ok .hbuild ∧
    decode 0x11000000 = .ok (.henc .b0) ∧ decode 0x19300000 = .ok (.fdec .b3) ∧ decode 0x20000000 = .ok (.senc .b0) ∧
    decode 0x21300000 = .ok (.sdec .b3) ∧ decode 0x30400000 = .ok (.renc .b1 .b0) := by decide

/-- Unused fields are ignored: V-B3 and V-B15 of 95_test_vectors.md (R142, R143). -/
theorem test_decode_ignores_unused_fields :
    decode 0x01700005 = .ok (.bclr .b1) ∧ decode 0x04000043 = .ok (.bput .b0 3) := by decide

/-- V-E1 and V-E2: an unknown OPC and a nonzero RSV are illegal (R144, R147). -/
theorem test_decode_illegal :
    decode 0x06000000 = .error .unknownOpcode ∧ decode 0xFF000000 = .error .unknownOpcode ∧
      decode 0x00010000 = .error .reservedNonzero ∧ decodeTableWord 32 0x00080000 = none := by decide

/-- R149, R153: the assembler's words. -/
theorem test_assemble :
    (assemble "corr" [.buf .b3, .buf .b3]).map encode = some 0x38F00000 ∧
      (assemble "bget" [.buf .b1, .imm 2]).map encode = some 0x05100002 ∧
      (assemble "bzero" [.buf .b1]).map encode = some 0x01400000 ∧ assemble "bput" [.buf .b1] = none := by decide

/-! ## Helpers for one-step tests -/

/-- The check `p` holds of the state after the command word `w` has run from `s`. -/
def after (s : State) (w : Nat) (p : State → Bool) : Bool :=
  match step (s.withFetchWord 32 w) with
  | .next t => p t
  | .fault _ => false
  | .refused _ => false

/-- The command word `w` fails from `s` with this code and information. -/
def fails (s : State) (w : Nat) (c : ErrCode) (info : Nat) : Bool :=
  after s w fun t => decide (t.status.errcode = c ∧ t.errinfo = BitVec.ofNat 32 info ∧ t.status.err = true)

/-- Buffer `k` holds the `n`-bit vector with value `x`. -/
def holds (t : State) (k : BufId) (n x : Nat) : Bool :=
  match t.buf k with
  | .ok v => v == bitsOf n x
  | .error _ => false

/-- Memory words from `a` up. -/
def wordsAre (t : State) (a : Nat) (xs : List Nat) : Bool :=
  (List.range xs.length).all fun i => t.mem.read (a + 4 * i) == (xs[i]?).map (BitVec.ofNat 32)

/-- `s` with an `n`-bit value in a buffer. -/
def withBuf (s : State) (k : BufId) (n x : Nat) : State := s.setBuf k (bitsOf n x)

/-- `s` with words written from address `a` up. -/
def withWords (s : State) (a : Nat) (xs : List Nat) : State := s.writeWords a (xs.map (BitVec.ofNat 32))

/-- `s` with other configuration registers. -/
def withCfg (s : State) (c : ConfigRegs) : State := { s with cfg := c }

/-- The configuration registers after reset. -/
abbrev cfg0 : ConfigRegs := ConfigRegs.reset

/-! ## The bit-vector datapath -/

/-- V-B1. -/
theorem test_nop : after State.reset 0x00000000 (fun t => t.readReg .status == 0x00000002) = true := by decide +kernel

/-- V-B2, V-B3. -/
theorem test_bclr : after (withBuf State.reset .b1 9 0x1FF) 0x01700005 (fun t =>
    holds t .b1 0 0 && wordsAre t 0x20800 [0] && wordsAre t 0x20FFC [0]) = true := by decide +kernel

/-- V-B4. -/
theorem test_bcopy : after (withBuf State.reset .b0 3 5) 0x02800000 (fun t =>
    holds t .b2 3 5 && wordsAre t 0x21000 [0xA0000000]) = true := by decide +kernel

/-- After V-B5, R104: a copy onto itself zeroes the cells above the length. -/
theorem test_bcopy_in_place : after { withWords State.reset 0x20000 [0xBFFFFFFF] with
    lens := Lens.reset.set .b0 3 } 0x02000000 (fun t => wordsAre t 0x20000 [0xA0000000, 0]) = true := by
  decide +kernel

/-- V-B6. -/
theorem test_bcat : after (withBuf (withBuf State.reset .b0 2 2) .b1 3 7) 0x03100000 (fun t =>
    holds t .b0 5 0x17 && wordsAre t 0x20000 [0xB8000000]) = true := by decide +kernel

/-- V-B7. -/
theorem test_bcat_itself : after (withBuf State.reset .b0 2 2) 0x03000000 (fun t => holds t .b0 4 10) = true := by
  decide +kernel

/-- V-B10, V-B15. -/
theorem test_bput : after (withCfg State.reset { cfg0 with pkData := 5 }) 0x04000043 (fun t =>
    holds t .b0 3 5 && wordsAre t 0x20000 [0xA0000000]) = true := by decide +kernel

/-- V-B13, V-B14. -/
theorem test_bput_param : fails State.reset 0x04000000 .param 0x010 && fails State.reset 0x04000021 .param 0x010
    = true := by decide +kernel

/-- V-B18. -/
theorem test_bget : after (withCfg (withBuf State.reset .b0 5 0x17) { cfg0 with pkOff := 2 }) 0x05000003 (fun t =>
    t.readReg .pkData == 7 && t.readReg .pkOff == 5) = true := by decide +kernel

/-- V-B19. -/
theorem test_bget_range : fails (withCfg (withBuf State.reset .b0 5 0x17) { cfg0 with pkOff := 5 }) 0x05000001
    .range 5 = true := by decide +kernel

/-! ## Huffman -/

/-- The FREQ words of V-H1. -/
def freqH1 : List Word :=
  List.replicate 0x61 0 ++ [5, 2, 1, 1] ++ List.replicate (256 - 0x65) 0

/-- V-H1: the registers and some TRIE and CODE words. -/
theorem test_hbuild : after (State.reset.writeWords 0x01000 freqH1) 0x10000000 (fun t =>
    t.readReg .status == 0x00100012 && t.readReg .hbNleaf == 4 && t.readReg .hbMaxlen == 3 && t.readReg .hbNnode == 7
      && wordsAre t 0x02000 [0x60060001, 0x60030002, 0x80000062, 0x60050004, 0x80000063, 0x80000064, 0x80000061, 0]
      && wordsAre t 0x11840 [1, 0x80000000] && wordsAre t 0x11900 [3, 0x60000000] && wordsAre t 0x13FC0 [0])
    = true := by decide +kernel

/-- V-H2, V-H3, V-H4: the arenas of a four-way tie, of a tie between a leaf and a node, and of one symbol. -/
theorem test_hbuild_trees :
    (buildTree [(0, 1), (1, 1), (2, 1), (3, 1)]).map (·.arena 0) =
      some [0x60040001, 0x60030002, 0x80000000, 0x80000001, 0x60060005, 0x80000002, 0x80000003] ∧
    (buildTree [(0x30, 2), (0x31, 1), (0x32, 1)]).map (·.arena 0) =
      some [0x60020001, 0x80000030, 0x60040003, 0x80000031, 0x80000032] ∧
    (buildTree [(0x41, 7)]).map (·.arena 0) = some [0x20000001, 0x80000041] := by decide +kernel

/-- The CODE words of V-H1 for the symbols 0x61 to 0x65, and TBLV = 1. -/
def codeH1 : State :=
  { withWords (withWords (withWords (withWords (withWords State.reset 0x11840 [1, 0x80000000]) 0x11880 [2, 0])
      0x118C0 [3, 0x40000000]) 0x11900 [3, 0x60000000]) 0x11940 [0, 0] with
    status := { Status.reset with tblv := true } }

/-- The TRIE words of V-H1, and TBLV = 1. -/
def trieH1 : State :=
  { withWords State.reset 0x02000 [0x60060001, 0x60030002, 0x80000062, 0x60050004, 0x80000063, 0x80000064, 0x80000061] with
    status := { Status.reset with tblv := true } }

/-- V-H8: a seen symbol, an unseen one, and one above the alphabet. -/
theorem test_henc : after (withCfg (withWords codeH1 0x04000 [0x61, 0x65, 0x141]) { cfg0 with symInCnt := 3 })
    0x11000000 (fun t => holds t .b0 17 0x16541 && wordsAre t 0x20000 [0xB2A08000]) = true := by decide +kernel

/-- V-H10, V-H11. -/
theorem test_henc_errors : fails State.reset 0x11000000 .noTable 0 &&
    fails (withCfg State.reset { cfg0 with fbw := 0 }) 0x11000000 .param 0x044 = true := by decide +kernel

/-- V-H17: one flipped bit makes the walk drift. -/
theorem test_hdec : after (withBuf trieH1 .b3 9 0x193) 0x12300000 (fun t =>
    wordsAre t 0x04000 [0x61, 0x61, 0x62, 0x61, 0x62, 0x61, 0x61] && t.readReg .symOutCnt == 7 && t.readReg .resid == 0)
    = true := by decide +kernel

/-- V-H18: bits that select the absent branch are discarded. -/
theorem test_hdec_badbit : after (withBuf { withWords State.reset 0x02000 [0x20000001, 0x80000041] with
    status := { Status.reset with tblv := true } } .b3 4 6) 0x12300000 (fun t =>
      wordsAre t 0x04000 [0x41, 0x41] && t.readReg .badbit == 2 && t.readReg .resid == 0) = true := by decide +kernel

/-! ## The fixed-width and semantic codecs -/

/-- V-F1. -/
theorem test_fenc : after (withCfg (withWords State.reset 0x04000 [0x48, 0x69]) { cfg0 with symInCnt := 2 }) 0x18000000
    (fun t => holds t .b0 14 0x2469 && wordsAre t 0x20000 [0x91A40000]) = true := by decide +kernel

/-- V-F8. -/
theorem test_fenc_range : fails (withCfg State.reset { cfg0 with symInBase := 1020, symInCnt := 5 }) 0x18000000 .range
    0x070 = true := by decide +kernel

/-- V-F3. -/
theorem test_fdec : after (withCfg (withBuf State.reset .b3 17 0x1234D) { cfg0 with symOutBase := 0x10 }) 0x19300000
    (fun t => wordsAre t 0x04040 [0x48, 0x69] && t.readReg .symOutCnt == 2 && t.readReg .resid == 3) = true := by
  decide +kernel

/-- V-F9. -/
theorem test_fdec_capacity : fails (withCfg (withBuf State.reset .b3 35 0) { cfg0 with symOutBase := 1020 }) 0x19300000
    .capacity 5 = true := by decide +kernel

/-- SEMW = 0x00020102, and the counts of V-S8. -/
abbrev cfgS : ConfigRegs :=
  { cfg0 with semWh := 2, semWr := 1, semWt := 2, semNh := 4, semNr := 2, semNt := 4, symInCnt := 1 }

/-- V-S1. -/
theorem test_senc : after (withCfg (withWords State.reset 0x04000 [2, 1, 3]) cfgS) 0x20000000 (fun t =>
    holds t .b0 5 0x17 && wordsAre t 0x20000 [0xB8000000]) = true := by decide +kernel

/-- The codebook entry of V-S1's triple is its packing (R362, R275). -/
theorem test_codebook_entry : Triple.entry { h := 2, r := 1, t := 3 } { wh := 2, wr := 1, wt := 2 } = 0x17 := by decide

/-- Triple 1 begins with `wr SYM_IN_BASE, 3` and ends with the host's read of SYM_OUT_CNT (R362). -/
theorem test_semantic_triple : (semanticTriple 0 1 5).head? = some (.host (.write .word 0x070 3)) ∧
    (semanticTriple 0 1 5).getLast? = some (.host (.read .word 0x07C)) := by decide

/-- V-S2. -/
theorem test_senc_width : fails (withCfg (withWords State.reset 0x04000 [2, 1, 3, 4, 0, 0]) { cfgS with symInCnt := 2 })
    0x20000000 .width 1 = true := by decide +kernel

/-- V-S10. -/
theorem test_sdec : after (withCfg (withBuf State.reset .b3 12 0xB87) { cfgS with semNt := 3 }) 0x21300000 (fun t =>
    wordsAre t 0x04000 [0, 0, 1] && t.readReg .symOutCnt == 1 && t.readReg .drop == 1 && t.readReg .resid == 2)
    = true := by decide +kernel

/-- V-S12. -/
theorem test_sdec_capacity : fails (withCfg (withBuf State.reset .b3 5 0x17) { cfgS with symOutBase := 1023 })
    0x21300000 .capacity 1 = true := by decide +kernel

/-! ## Channel, repetition, corrector -/

/-- V-C4: PROB = 65537. -/
theorem test_chan_param : fails (withCfg State.reset { cfg0 with prob := 65537 }) 0x28900000 .param 0x04C = true := by
  decide +kernel

/-- V-C8: DRAWCNT wraps. -/
theorem test_chan_wrap : after { withBuf State.reset .b1 4 12 with drawIdx := 0xFFFFFFFE } 0x28900000 (fun t =>
    t.readReg .drawcnt == 2) = true := by decide +kernel

/-- V-R1. -/
theorem test_renc : after (withCfg (withBuf State.reset .b0 9 0x113) { cfg0 with rep := 3 }) 0x30400000 (fun t =>
    t.readReg (.len .b1) == 27 && wordsAre t 0x20800 [0xE00E07E0]) = true := by decide +kernel

/-- The accounting of the end-to-end example of 95_test_vectors.md: 9 bits, and 27 with the redundancy (R365). -/
theorem test_accounting : after (withCfg (withBuf State.reset .b0 9 0x113) { cfg0 with rep := 3 }) 0x30400000 (fun t =>
    t.accounting == { encoded := 9, withRedundancy := 27 }) = true := by decide +kernel

/-- V-R9. -/
theorem test_renc_param : fails (withCfg State.reset { cfg0 with rep := 0 }) 0x30400000 .param 0x048 = true := by
  decide +kernel

/-- V-R6. -/
theorem test_rdec : after (withCfg (withBuf State.reset .b2 10 0x2D3) { cfg0 with rep := 3 }) 0x31E00000 (fun t =>
    holds t .b3 3 6 && wordsAre t 0x21800 [0xC0000000] && t.readReg .resid == 1) = true := by decide +kernel

/-- V-R4: a tie gives 1. -/
theorem test_rdec_tie : after (withCfg (withBuf State.reset .b2 4 12) { cfg0 with rep := 4 }) 0x31E00000 (fun t =>
    holds t .b3 1 1) = true := by decide +kernel

/-- V-K1: a tie goes to the lower index. -/
theorem test_corr : after (withCfg (withBuf (withWords State.reset 0x08000 [0x17, 0, 0x01, 0, 0x0E, 0]) .b3 5 8)
    { cfg0 with cbW := 5, cbN := 3 }) 0x38F00000 (fun t =>
      holds t .b3 5 1 && wordsAre t 0x21800 [0x08000000] && t.readReg .corrIdx == 1 && t.readReg .corrDist == 2)
    = true := by decide +kernel

/-- V-K5: an entry wider than CB_W. -/
theorem test_corr_width : fails (withCfg (withBuf (withWords State.reset 0x08000 [0x17, 0, 0x20, 0, 0x0E, 0]) .b0 5 8)
    { cfg0 with cbW := 5, cbN := 3 }) 0x38400000 .width 0x10001 = true := by decide +kernel

/-! ## The lifecycle and the host bus -/

/-- V-E1. -/
theorem test_illegal : after State.reset 0x06000000 (fun t =>
    t.readReg .status == 0x00060106 && t.readReg .errinfo == 0x06000000) = true := by decide +kernel

/-- V-E7, V-E12, V-E8: host turns on registers. -/
theorem test_host_turns :
    (match Host.Core.run Sys2Proof.core 2 { State.reset with agenda := [hostWr (.len .b0) 20000, hostRd (.len .b0)] } with
      | .next t => t.rdata == 16384
      | _ => false) = true ∧
    (match step (State.reset.atTurn (hostRd .id)) with
      | .next t => t.rdata == 0x564C4345
      | _ => false) = true ∧
    (match step (State.reset.atTurn (hostRdAt 0x0FC)) with
      | .next t => t.rdata == 0
      | _ => false) = true := by decide +kernel

/-- R153, R360: the host's pseudo-instructions run a command to its completion. -/
theorem test_hostCommand : (match Host.Core.run Sys2Proof.core 5 { State.reset with agenda := hostCommand 2 .nop } with
    | .next t => t.rdata == 0x00000002 && t.agenda == []
    | _ => false) = true := by decide +kernel


/-! ## Witnesses: for every obligation with hypotheses, states and operands that meet them, one part per clause, at the
ends of its range -/

/-! ### States -/

theorem readable (s : State) (k : BufId) (v : Bits) (h : v.length ≤ 16384) : (s.setBuf k v).buf k = .ok v :=
  s.buf_setBuf_same k v h

/-- A buffer of `n` zeros. -/
abbrev zerosIn (s : State) (k : BufId) (n : Nat) : State := s.setBuf k (zeros n)

theorem readable_zeros (s : State) (k : BufId) (n : Nat) (h : n ≤ 16384) :
    (zerosIn s k n).buf k = .ok (zeros n) := readable s k _ (by simpa using h)

theorem bufLen_zeros (s : State) (k : BufId) (n : Nat) (h : n ≤ 16384) : (zerosIn s k n).bufLen k = n := by
  rw [s.bufLen_setBuf_same k _ (by simpa using h)]; simp

theorem withCfg_mem (s : State) (c : ConfigRegs) : (withCfg s c).mem = s.mem := rfl

/-- Other configuration registers do not matter to a buffer. -/
theorem buf_withCfg (s : State) (c : ConfigRegs) (k : BufId) : (withCfg s c).buf k = s.buf k :=
  State.buf_congr s (withCfg s c) k rfl (fun _ _ => rfl)

/-- SYM from word `b` up holds `xs`, and the input registers name it. -/
def withInput (s : State) (b : Nat) (xs : List Word) : State :=
  { s.writeWords (symAddr b) xs with
    cfg := { s.cfg with symInBase := BitVec.ofNat 10 b, symInCnt := BitVec.ofNat 11 xs.length } }

theorem inputIs_withInput (s : State) (b : Nat) (xs : List Word) (h : b + xs.length ≤ 1024) (hb : b < 1024) :
    InputIs (withInput s b xs) xs := by
  have h1 : (BitVec.ofNat 10 b).toNat = b := by rw [BitVec.toNat_ofNat]; exact Nat.mod_eq_of_lt (by omega)
  have h2 : (BitVec.ofNat 11 xs.length).toNat = xs.length := by
    rw [BitVec.toNat_ofNat]; exact Nat.mod_eq_of_lt (by omega)
  refine ⟨h2, ?_, fun i hi => ?_⟩
  · show (BitVec.ofNat 10 b).toNat + _ ≤ _
    rw [h1]; exact h
  · show Memory.read (s.mem.writeWords (symAddr b) xs) (symAddr ((BitVec.ofNat 10 b).toNat + i)) = _
    rw [h1, show symAddr (b + i) = symAddr b + 4 * i by unfold symAddr; omega]
    exact Memory.read_writeWords_inside _ _ _ _ hi

/-- The tree of V-H1. -/
def treeH1 : HuffTree := .node (.node (.leaf 0x62) (.node (.leaf 0x63) (.leaf 0x64))) (.leaf 0x61)

/-- The state HBUILD leaves for V-H1, up to its completion. -/
def builtH1 : State := State.reset.setTable 4 treeH1

theorem length_freqH1 : freqH1.length = 256 := by decide +kernel
theorem leaves_freqH1 : leavesFrom 0 freqH1 = [(0x61, 5), (0x62, 2), (0x63, 1), (0x64, 1)] := by decide +kernel
theorem tree_freqH1 : buildTree (leavesFrom 0 freqH1) = some treeH1 := by rw [leaves_freqH1]; decide +kernel

theorem inv_reset : State.reset.Inv := ⟨⟨List.Pairwise.nil, nofun⟩, rfl, nofun, nofun⟩
theorem inv_builtH1 : builtH1.Inv :=
  ⟨Memory.wf_writeTable inv_reset.memWf treeH1, rfl, nofun,
    fun _ => ⟨freqH1, holdsTable_writeTable _ length_freqH1 tree_freqH1⟩⟩

/-- `s` with V-H1's table keeps it when a buffer is written. -/
theorem inv_builtBuf (k : BufId) (v : Bits) : (builtH1.setBuf k v).Inv :=
  ⟨State.wf_setBuf inv_builtH1.memWf k v, rfl, nofun, fun _ =>
    ⟨freqH1, (holdsTable_writeTable _ length_freqH1 tree_freqH1).congr (fun _ h => builtH1.read_setBuf_table k v h)⟩⟩

/-- FREQ holds the words of V-H1. -/
def freqState : State := State.reset.writeWords 0x01000 freqH1

theorem freqState_words : freqState.readWords 0x01000 256 = .ok freqH1 := by
  rw [State.readWords_ok_iff]
  refine ⟨length_freqH1, fun j hj => ?_⟩
  exact Memory.read_writeWords_inside _ _ _ _ (by rw [length_freqH1]; exact hj)

theorem freqState_hbuild : exec .hbuild freqState = .next (freqState.setTable 4 treeH1).completeOk := by
  have h : freqState.freqWords = .ok freqH1 := freqState_words
  have hb := tree_freqH1
  rw [leaves_freqH1] at hb
  simp only [exec, execHbuild, h, leaves_freqH1, hb, State.settle_ok, List.length_cons, List.length_nil]

theorem codeword_H1 {s : State} {m : Memory} (k : Nat) (hk : k < 256)
    (hs : ∀ a, 0x10000 ≤ a → a < 0x14000 → s.mem.read a = (m.writeTable treeH1).read a) :
    codewordIs s k (treeH1.codeword k) := by
  refine (codeword_table hs hk (codeword_len (ws := freqH1) ?_ tree_freqH1 k)).mpr rfl
  rw [leaves_freqH1]; decide

/-! ### Decoding and the step -/

/-- `s` with a command pending. -/
abbrev issued (w : Word) (s : State) : State := s.accept w

theorem witness_PendingStepRunsDecodedCommand :
    (issued 0x02800000 State.reset).pending = true ∧
      decode (issued 0x02800000 State.reset).cmd = .ok (.bcopy .b2 .b0) ∧
      (issued 0x02800000 State.reset).agenda = [] := by decide

theorem witness_IllegalWordCompletesWithIllegal :
    (issued 0x00010000 State.reset).pending = true ∧ rsvOf (issued 0x00010000 State.reset).cmd ≠ 0 ∧
      (issued 0xFF000000 State.reset).pending = true ∧
      opcOf (issued 0xFF000000 State.reset).cmd ∉
        [0x00, 0x01, 0x02, 0x03, 0x04, 0x05, 0x10, 0x11, 0x12, 0x18, 0x19, 0x20, 0x21, 0x28, 0x30, 0x31, 0x38] := by
  decide

theorem witness_DecodeOfEncodeIsIdentity :
    (Instr.corr .b3 .b3).wellFormed = true ∧ (Instr.bput .b3 63).wellFormed = true := by decide

theorem witness_StepKeepsInvariant :
    (builtH1.setBuf .b0 [true]).Inv ∧ ∃ t, step (builtH1.setBuf .b0 [true]) = .next t :=
  ⟨inv_builtBuf _ _, _, rfl⟩

/-! ### The bit-vector datapath -/

theorem witness_BcopyCopiesTheValue : (zerosIn State.reset .b0 16384).buf .b0 = .ok (zeros 16384) :=
  readable_zeros _ _ _ (by omega)

/-- Both clauses at the capacity: 16384 + 0 and 16384 + 1 bits. -/
theorem witness_BcatConcatenates :
    (∃ (s : State) (u v : Bits), s.buf .b0 = .ok u ∧ s.buf .b1 = .ok v ∧ u.length + v.length = 16384) ∧
    (∃ (s : State) (u v : Bits), s.buf .b0 = .ok u ∧ s.buf .b1 = .ok v ∧ u.length + v.length = 16385) := by
  have h : ∀ n, n ≤ 16384 → ∃ (s : State) (u v : Bits), s.buf .b0 = .ok u ∧ s.buf .b1 = .ok v ∧ u.length + v.length = 16384 + n :=
    fun n hn => ⟨zerosIn (zerosIn State.reset .b0 16384) .b1 n, zeros 16384, zeros n,
      (State.buf_setBuf_other _ _ (by decide)).trans (readable_zeros _ _ _ (by omega)), readable_zeros _ _ _ hn,
      by simp⟩
  exact ⟨h 0 (by omega), h 1 (by omega)⟩

/-- Widths 0 and 33; width 1 on an empty and 32 on a full buffer, and the sums 16384 and 16385. -/
theorem witness_BputAppendsTheField :
    (0 < 1 ∨ 0 > 32) ∧ (33 < 1 ∨ 33 > 32) ∧
    (∃ (s : State) (u : Bits), s.buf .b0 = .ok u ∧ u.length + 32 = 16384) ∧
    (∃ (s : State) (u : Bits), s.buf .b0 = .ok u ∧ u.length + 1 = 16385) :=
  ⟨by omega, by omega, ⟨_, _, readable_zeros State.reset .b0 16352 (by omega), by simp⟩,
    ⟨_, _, readable_zeros State.reset .b0 16384 (by omega), by simp⟩⟩

/-- The field ends exactly at the length, and one past it. -/
theorem witness_BgetExtractsTheField :
    ∃ s : State, s.buf .b0 = .ok (zeros 5) ∧ s.cfg.pkOff.toNat + 3 ≤ s.bufLen .b0 ∧
      s.cfg.pkOff.toNat + 4 > s.bufLen .b0 := by
  refine ⟨withCfg (zerosIn State.reset .b0 5) { cfg0 with pkOff := 2 }, ?_, ?_, ?_⟩
  · rw [buf_withCfg]; exact readable_zeros _ _ _ (by omega)
  all_goals
    have : (withCfg (zerosIn State.reset .b0 5) { cfg0 with pkOff := 2 }).bufLen .b0 = 5 :=
      bufLen_zeros State.reset .b0 5 (by omega)
    rw [this]; decide

/-! ### Huffman -/

/-- FREQ holds these words. -/
theorem readable_freq (s : State) {ws : List Word} (h : ws.length = 256) :
    (s.writeWords 0x01000 ws).readWords 0x01000 256 = .ok ws := by
  rw [State.readWords_ok_iff]
  exact ⟨h, fun j hj => Memory.read_writeWords_inside _ _ _ _ (by rw [h]; exact hj)⟩

/-- One present symbol. -/
def freqOne : List Word := List.replicate 0x41 0 ++ [7] ++ List.replicate (256 - 0x42) 0
/-- Two present symbols of these frequencies, the first and the last symbol. -/
def freqTwo (f g : Word) : List Word := f :: List.replicate 254 0 ++ [g]

/-- Four present symbols, and one. -/
theorem witness_HbuildWritesTheTable :
    (freqState.readWords 0x01000 256 = .ok freqH1 ∧ presentSymbols freqH1 = [0x61, 0x62, 0x63, 0x64]) ∧
    ((State.reset.writeWords 0x01000 freqOne).readWords 0x01000 256 = .ok freqOne ∧ presentSymbols freqOne = [0x41]) :=
  ⟨⟨freqState_words, by decide +kernel⟩, readable_freq _ (by decide +kernel), by decide +kernel⟩

theorem witness_HbuildOfNoSymbolsIsEmptyFreq :
    ∀ k, k < 256 → (State.reset.writeWords 0x01000 (List.replicate 256 0)).mem.read (0x01000 + 4 * k) = some 0 := by
  intro k hk
  have := Memory.read_writeWords_inside [] 0x01000 k (List.replicate 256 0) (by rw [List.length_replicate]; exact hk)
  rw [List.getElem?_replicate, if_pos hk] at this
  exact this

/-- Four present symbols; one; two of equal frequency; two of which the higher symbol has the lower frequency. -/
theorem witness_HbuildCodesExactlyThePresentSymbols :
    (freqState.readWords 0x01000 256 = .ok freqH1 ∧ ∃ k, k < 256 ∧ freqH1.getD k 0 ≠ 0) ∧
    ((State.reset.writeWords 0x01000 freqOne).readWords 0x01000 256 = .ok freqOne ∧
      ∀ k, k < 256 → (freqOne.getD k 0 ≠ 0 ↔ k = 0x41)) ∧
    ((State.reset.writeWords 0x01000 (freqTwo 3 3)).readWords 0x01000 256 = .ok (freqTwo 3 3) ∧
      (∀ k, k < 256 → ((freqTwo 3 3).getD k 0 ≠ 0 ↔ k = 0 ∨ k = 255)) ∧
      (freqTwo 3 3).getD 0 0 = (freqTwo 3 3).getD 255 0 ∧ 0 < 255) ∧
    ((State.reset.writeWords 0x01000 (freqTwo 4 3)).readWords 0x01000 256 = .ok (freqTwo 4 3) ∧
      (∀ k, k < 256 → ((freqTwo 4 3).getD k 0 ≠ 0 ↔ k = 255 ∨ k = 0)) ∧
      ((freqTwo 4 3).getD 255 0).toNat < ((freqTwo 4 3).getD 0 0).toNat) :=
  ⟨⟨freqState_words, 0x61, by decide, by decide +kernel⟩,
    ⟨readable_freq _ (by decide +kernel), by decide +kernel⟩,
    ⟨readable_freq _ (by decide +kernel), by decide +kernel, by decide +kernel, by decide⟩,
    ⟨readable_freq _ (by decide +kernel), by decide +kernel, by decide +kernel⟩⟩

theorem witness_BuiltCodeIsFreeOfPrefixes :
    ∃ t, exec .hbuild freqState = .next t ∧ t.status.errcode = .ok ∧ codewordIs t 0x61 [true] ∧
      codewordIs t 0x64 [false, true, true] ∧ [true] ≠ ([] : Bits) ∧ [false, true, true] ≠ ([] : Bits) := by
  refine ⟨_, freqState_hbuild, rfl, ?_, ?_, by decide, by decide⟩
  · exact codeword_H1 (m := freqState.mem) 0x61 (by omega) (fun _ _ _ => rfl)
  · exact codeword_H1 (m := freqState.mem) 0x64 (by omega) (fun _ _ _ => rfl)

/-- Two states with V-H1's FREQ that differ elsewhere. -/
theorem witness_HbuildIsAFunctionOfFreq :
    ∃ t t' : State, exec .hbuild freqState = .next t ∧ exec .hbuild (withCfg freqState { cfg0 with rep := 3 }) = .next t' ∧
      t.status.errcode = .ok ∧ t'.status.errcode = .ok ∧
      ∀ k, k < 256 → freqState.mem.read (0x01000 + 4 * k) =
        (withCfg freqState { cfg0 with rep := 3 }).mem.read (0x01000 + 4 * k) := by
  have h : (withCfg freqState { cfg0 with rep := 3 }).freqWords = .ok freqH1 :=
    (State.readWords_congr freqState _ _ _ (fun _ _ => by rw [withCfg_mem])).trans freqState_words
  refine ⟨_, ((withCfg freqState { cfg0 with rep := 3 }).setTable 4 treeH1).completeOk, freqState_hbuild, ?_, rfl, rfl,
    fun _ _ => by rw [withCfg_mem]⟩
  have hb := tree_freqH1
  rw [leaves_freqH1] at hb
  simp only [exec, execHbuild, h, leaves_freqH1, hb, State.settle_ok, List.length_cons, List.length_nil]

/-- A state with TBLV = 1 and the fallback width 32. -/
def fallback32 : State :=
  { State.reset with status := { Status.reset with tblv := true }, cfg := { cfg0 with fbw := 32 } }

theorem fallback_codes (s : State) (n : Nat) (h : s.cfg.fbw = 32) :
    List.Forall₂ (symbolBitsAre s) (List.replicate n 0x1000) (List.replicate n (bitsOf 32 0x1000)) := by
  induction n with
  | zero => exact .nil
  | succ n ih =>
    refine .cons (.inr ⟨.inl (by decide), ?_⟩) ih
    rw [h]; rfl

theorem flatten_fallback (n : Nat) : (List.replicate n (bitsOf 32 0x1000)).flatten.length = n * 32 := by
  rw [length_flatten_of_pieces 32 _ (fun p hp => by rw [List.eq_of_mem_replicate hp]; simp)]; simp

/-- 512 unseen symbols of 32 bits fill the buffer exactly, 513 pass it; a seen symbol stands in HuffmanRoundTrip's
witness. -/
theorem witness_HencConcatenatesCodewords :
    ∀ n, n = 512 ∨ n = 513 → ∃ (s : State) (xs : List Word) (us : List Bits), 1 ≤ s.cfg.fbw.toNat ∧
      s.cfg.fbw.toNat ≤ 32 ∧ s.status.tblv = true ∧ InputIs s xs ∧ List.Forall₂ (symbolBitsAre s) xs us ∧
      us.flatten.length = n * 32 := by
  intro n hn
  exact ⟨withInput fallback32 0 (List.replicate n 0x1000), _, _, (Nat.le_of_ble_eq_true rfl), (Nat.le_of_ble_eq_true rfl), rfl,
    inputIs_withInput _ _ _ (by rw [List.length_replicate]; omega) (by omega), fallback_codes _ n rfl, flatten_fallback n⟩

theorem witness_HuffmanCodecErrorsInOrder :
    (withCfg State.reset { cfg0 with fbw := 0 }).cfg.fbw.toNat < 1 ∧
    (withCfg State.reset { cfg0 with fbw := 33 }).cfg.fbw.toNat > 32 ∧
    (1 ≤ State.reset.cfg.fbw.toNat ∧ State.reset.cfg.fbw.toNat ≤ 32 ∧ State.reset.status.tblv = false) ∧
    (let s := withCfg fallback32 { cfg0 with symInBase := 1023, symInCnt := 2 }
     1 ≤ s.cfg.fbw.toNat ∧ s.cfg.fbw.toNat ≤ 32 ∧ s.status.tblv = true ∧
      s.cfg.symInBase.toNat + s.cfg.symInCnt.toNat > 1024) := by decide

/-- The three ends of a step: the absent 1 branch of a single-symbol root, a leaf, an inner node. -/
theorem witness_HdecWritesTheWalksSymbols_steps :
    walkStepIs (withWords State.reset 0x02000 [0x20000001, 0x80000041]) { node := 0, depth := 0, bad := 2, out := [9] } true
      { node := 0, depth := 0, bad := 3, out := [9] } ∧
    walkStepIs trieH1 { node := 0, depth := 0, bad := 0, out := [9] } true
      { node := 0, depth := 0, bad := 0, out := [9, 0x61] } ∧
    walkStepIs trieH1 { node := 0, depth := 0, bad := 0, out := [9] } false
      { node := 1, depth := 1, bad := 0, out := [9] } :=
  ⟨⟨0x20000001, by decide +kernel, .inl (by decide)⟩,
    ⟨0x60060001, by decide +kernel, .inr ⟨by decide, 6, 0x80000061, by decide, by decide +kernel, .inl (by decide)⟩⟩,
    ⟨0x60060001, by decide +kernel, .inr ⟨by decide, 1, 0x60030002, by decide, by decide +kernel, .inr (by decide)⟩⟩⟩

/-- One symbol into the last SYM word fits, two do not. -/
theorem witness_HdecWritesTheWalksSymbols :
    ∀ n, n = 1 ∨ n = 2 → ∃ (s : State) (u : Bits) (e : Walk), s.status.tblv = true ∧ s.buf .b3 = .ok u ∧
      s.walkBits Walk.start u = .ok e ∧ s.cfg.symOutBase.toNat + e.out.length = 1023 + n := by
  intro n hn
  have h : ∀ v : Bits, v.length ≤ 16384 →
      ((withCfg trieH1 { cfg0 with symOutBase := 1023 }).setBuf .b3 v).buf .b3 = .ok v := fun v h => readable _ _ _ h
  rcases hn with rfl | rfl
  · exact ⟨_, [true], { node := 0, depth := 0, bad := 0, out := [0x61] }, rfl, h _ (by decide), by decide +kernel, rfl⟩
  · exact ⟨_, [true, true], { node := 0, depth := 0, bad := 0, out := [0x61, 0x61] }, rfl, h _ (by decide),
      by decide +kernel, rfl⟩

theorem witness_HdecCompletesOnAValidTable :
    (builtH1.setBuf .b3 [true, false]).Inv ∧ (builtH1.setBuf .b3 [true, false]).status.tblv = true ∧
      (builtH1.setBuf .b3 [true, false]).buf .b3 = .ok [true, false] ∧
      (builtH1.setBuf .b3 [true, false]).cfg.symOutBase.toNat + [true, false].length ≤ 1024 :=
  ⟨inv_builtBuf _ _, rfl, readable _ _ _ (by decide), by decide⟩

/-- The words of V-H6, encoded with V-H1's table. -/
theorem witness_HuffmanRoundTrip :
    ∃ (s : State) (xs : List Word) (us : List Bits), s.Inv ∧ s.status.tblv = true ∧ 1 ≤ s.cfg.fbw.toNat ∧
      s.cfg.fbw.toNat ≤ 32 ∧ InputIs s xs ∧
      List.Forall₂ (fun x u => x.toNat < 256 ∧ u ≠ [] ∧ codewordIs s x.toNat u) xs us ∧
      us.flatten.length ≤ 16384 ∧ s.cfg.symOutBase.toNat + xs.length ≤ 1024 ∧ xs.length = 4 := by
  have hin := inputIs_withInput builtH1 0 [0x61, 0x62, 0x63, 0x64] (by decide) (by omega)
  have hs : ∀ a, inTable a → (withInput builtH1 0 [0x61, 0x62, 0x63, 0x64]).mem.read a = builtH1.mem.read a :=
    fun a ha => builtH1.read_writeSym_table 0 _ (by decide) ha
  have hc := fun k hk => codeword_H1 (s := withInput builtH1 0 [0x61, 0x62, 0x63, 0x64]) (m := []) k hk
    (fun a h1 h2 => hs a (.inr ⟨h1, h2⟩))
  refine ⟨withInput builtH1 0 [0x61, 0x62, 0x63, 0x64], _,
    [[true], [false, false], [false, true, false], [false, true, true]],
    ⟨State.wf_writeSym inv_builtH1.memWf 0 _ (by decide), rfl, nofun, fun _ =>
      ⟨freqH1, (holdsTable_writeTable _ length_freqH1 tree_freqH1).congr hs⟩⟩,
    rfl, by decide, by decide, hin, ?_, by decide, by decide, rfl⟩
  exact .cons ⟨by decide, by decide, hc 0x61 (by omega)⟩ (.cons ⟨by decide, by decide, hc 0x62 (by omega)⟩
    (.cons ⟨by decide, by decide, hc 0x63 (by omega)⟩ (.cons ⟨by decide, by decide, hc 0x64 (by omega)⟩ .nil)))

/-! ### The fixed-width and semantic codecs -/

/-- FIXW = 0 and 33, the range one past SYM, and 512 or 513 characters of 32 bits. -/
theorem witness_FencPacksMaskedCharacters :
    (withCfg State.reset { cfg0 with fixw := 0 }).cfg.fixw.toNat < 1 ∧
    (withCfg State.reset { cfg0 with fixw := 33 }).cfg.fixw.toNat > 32 ∧
    (let s := withCfg State.reset { cfg0 with symInBase := 1023, symInCnt := 2 }
     1 ≤ s.cfg.fixw.toNat ∧ s.cfg.fixw.toNat ≤ 32 ∧ s.cfg.symInBase.toNat + s.cfg.symInCnt.toNat > 1024) ∧
    ∀ n, n = 512 ∨ n = 513 → ∃ (s : State) (xs : List Word), 1 ≤ s.cfg.fixw.toNat ∧ s.cfg.fixw.toNat ≤ 32 ∧
      InputIs s xs ∧ xs.length * s.cfg.fixw.toNat = n * 32 := by
  refine ⟨by decide, by decide, by decide, fun n hn => ?_⟩
  refine ⟨withInput (withCfg State.reset { cfg0 with fixw := 32 }) 0 (List.replicate n 0), _, (Nat.le_of_ble_eq_true rfl), (Nat.le_of_ble_eq_true rfl),
    inputIs_withInput _ _ _ (by rw [List.length_replicate]; omega) (by omega), ?_⟩
  rw [List.length_replicate]; rfl

/-- FIXW = 0 and 33; one character of 7 bits into the last SYM word, and two. -/
theorem witness_FdecUnpacksWholeChunks :
    (withCfg State.reset { cfg0 with fixw := 0 }).cfg.fixw.toNat < 1 ∧
    (withCfg State.reset { cfg0 with fixw := 33 }).cfg.fixw.toNat > 32 ∧
    ∀ n, n = 1 ∨ n = 2 → ∃ (s : State) (u : Bits), 1 ≤ s.cfg.fixw.toNat ∧ s.cfg.fixw.toNat ≤ 32 ∧ s.buf .b3 = .ok u ∧
      s.cfg.symOutBase.toNat + u.length / s.cfg.fixw.toNat = 1023 + n := by
  refine ⟨by decide, by decide, fun n hn => ?_⟩
  refine ⟨zerosIn (withCfg State.reset { cfg0 with symOutBase := 1023 }) .b3 (7 * n), _, (Nat.le_of_ble_eq_true rfl), (Nat.le_of_ble_eq_true rfl),
    readable_zeros _ _ _ (by omega), ?_⟩
  show 1023 + (zeros (7 * n)).length / 7 = _
  rw [length_zeros]; omega

theorem witness_FixedWidthRoundTrip :
    ∃ (s : State) (xs : List Word), 1 ≤ s.cfg.fixw.toNat ∧ s.cfg.fixw.toNat ≤ 32 ∧ InputIs s xs ∧
      (∀ x ∈ xs, x.toNat < 2 ^ s.cfg.fixw.toNat) ∧ xs.length * s.cfg.fixw.toNat ≤ 16384 ∧
      s.cfg.symOutBase.toNat + xs.length ≤ 1024 ∧ xs ≠ [] :=
  ⟨withInput State.reset 0 [0x48, 0x7F], _, by decide, by decide, inputIs_withInput _ _ _ (by decide) (by omega),
    List.forall_mem_cons.mpr ⟨by decide, List.forall_mem_cons.mpr ⟨by decide, nofun⟩⟩, by decide, by decide, by decide⟩

/-- SEMW = 0x00020102, the counts of V-S8, and `n` input triples. -/
def semantic (n : Nat) (ws : List Nat) : State :=
  withCfg (withWords State.reset 0x04000 ws) { cfgS with symInCnt := BitVec.ofNat 11 n }

theorem triples_semantic : TriplesAre (semantic 2 [2, 1, 3, 4, 0, 0]) [⟨2, 1, 3⟩, ⟨4, 0, 0⟩] := by
  refine ⟨by decide, by decide, fun i x h => ?_⟩
  match i, h with
  | 0, h => cases h; exact ⟨2, 1, 3, by decide, by decide, by decide, rfl⟩
  | 1, h => cases h; exact ⟨4, 0, 0, by decide, by decide, by decide, rfl⟩
  | i + 2, h => simp at h

theorem triples_semantic_one : TriplesAre (semantic 1 [3, 1, 3]) [⟨3, 1, 3⟩] := by
  refine ⟨by decide, by decide, fun i x h => ?_⟩
  match i, h with
  | 0, h => cases h; exact ⟨3, 1, 3, by decide, by decide, by decide, rfl⟩
  | i + 1, h => simp at h

/-- A width of 17 and a total of 0; the range one triple past SYM; fitting triples; a second triple that does not fit. -/
theorem witness_SencPacksFittingTriples :
    (withCfg State.reset { cfg0 with semWh := 17 }).fieldWidths.wh > 16 ∧
    (State.reset.fieldWidths.wh + State.reset.fieldWidths.wr + State.reset.fieldWidths.wt = 0) ∧
    (let s := withCfg State.reset { cfgS with symInBase := 1022, symInCnt := 1 }
     s.fieldWidths.wh + s.fieldWidths.wr + s.fieldWidths.wt ≥ 1 ∧
      s.cfg.symInBase.toNat + 3 * s.cfg.symInCnt.toNat > 1024) ∧
    (TriplesAre (semantic 1 [3, 1, 3]) [⟨3, 1, 3⟩] ∧
      ∀ x ∈ [(⟨3, 1, 3⟩ : Triple)], x.h < 2 ^ 2 ∧ x.r < 2 ^ 1 ∧ x.t < 2 ^ 2) ∧
    (TriplesAre (semantic 2 [2, 1, 3, 4, 0, 0]) [⟨2, 1, 3⟩, ⟨4, 0, 0⟩] ∧ ¬ 4 < 2 ^ 2 ∧
      (2 < 2 ^ 2 ∧ 1 < 2 ^ 1 ∧ 3 < 2 ^ 2)) :=
  ⟨by decide, by decide, by decide, ⟨triples_semantic_one, by decide⟩, ⟨triples_semantic, by decide, by decide⟩⟩

/-- The vector of V-S8 with SYM_OUT_BASE = 1021 and 1022: three words fit, then do not. Before it, the two illegal
field widths. -/
theorem witness_SdecKeepsKnownTriples :
    (withCfg State.reset { cfg0 with semWh := 17 }).fieldWidths.wh > 16 ∧
    (State.reset.fieldWidths.wh + State.reset.fieldWidths.wr + State.reset.fieldWidths.wt = 0) ∧
    ∀ b, b = 1021 ∨ b = 1022 → ∃ (s : State) (u : Bits) (all kept : List Triple), s.buf .b3 = .ok u ∧
      s.fieldWidths.wh ≤ 16 ∧ s.fieldWidths.wr ≤ 16 ∧ s.fieldWidths.wt ≤ 16 ∧
      s.fieldWidths.wh + s.fieldWidths.wr + s.fieldWidths.wt = 5 ∧ all.length = u.length / 5 ∧
      (∀ j x, all[j]? = some x → ∃ c, c = slice u (j * 5) ((j + 1) * 5) ∧ x.h = val (slice c 0 2) ∧
        x.r = val (slice c 2 3) ∧ x.t = val (slice c 3 5)) ∧
      kept = all.filter (fun x => decide
        (x.h < s.cfg.semNh.toNat ∧ x.r < s.cfg.semNr.toNat ∧ x.t < s.cfg.semNt.toNat)) ∧
      s.cfg.symOutBase.toNat + 3 * kept.length = b + 3 := by
  refine ⟨by decide, by decide, ?_⟩
  intro b hb
  have hbase : (BitVec.ofNat 10 b).toNat = b := by rw [BitVec.toNat_ofNat]; exact Nat.mod_eq_of_lt (by omega)
  refine ⟨(withCfg State.reset { cfgS with symOutBase := BitVec.ofNat 10 b }).setBuf .b3 (bitsOf 5 0x17), bitsOf 5 0x17,
    [⟨2, 1, 3⟩], [⟨2, 1, 3⟩], readable _ _ _ (by decide), (Nat.le_of_ble_eq_true rfl), (Nat.le_of_ble_eq_true rfl),
    (Nat.le_of_ble_eq_true rfl), rfl, rfl, ?_, rfl, ?_⟩
  · intro j x h
    match j, h with
    | 0, h => cases h; exact ⟨_, rfl, by decide, by decide, by decide⟩
    | j + 1, h => simp at h
  · show (BitVec.ofNat 10 b).toNat + 3 * 1 = b + 3
    rw [hbase]

theorem witness_SemanticRoundTrip :
    (semantic 1 [3, 1, 3]).fieldWidths.legal = true ∧ TriplesAre (semantic 1 [3, 1, 3]) [⟨3, 1, 3⟩] ∧
      (∀ x ∈ [(⟨3, 1, 3⟩ : Triple)], x.fits (semantic 1 [3, 1, 3]).fieldWidths = true ∧
        (semantic 1 [3, 1, 3]).knows x = true) ∧
      (semantic 1 [3, 1, 3]).cfg.symOutBase.toNat + 3 * [(⟨3, 1, 3⟩ : Triple)].length ≤ 1024 :=
  ⟨by decide, triples_semantic_one, by decide, by decide⟩

/-! ### The channel -/

/-- B1 = 1100 and a PROB. -/
def channelAt (p : Nat) : State := withCfg (withBuf State.reset .b1 4 12) { cfg0 with prob := BitVec.ofNat 17 p }

theorem channelAt_buf (p : Nat) : (channelAt p).buf .b1 = .ok (bitsOf 4 12) := by
  unfold channelAt
  rw [buf_withCfg]
  exact readable _ _ _ (by decide)

theorem witness_ChanFlipsBitsByTheirDraws :
    (channelAt 65537).cfg.prob.toNat > 65536 ∧ (channelAt 65536).cfg.prob.toNat ≤ 65536 ∧
      (channelAt 65536).buf .b1 = .ok (bitsOf 4 12) := ⟨by decide, by decide, channelAt_buf _⟩

theorem witness_ChannelEndpointsIgnoreDraws :
    (channelAt 0).buf .b1 = .ok (bitsOf 4 12) ∧ (channelAt 0).cfg.prob = 0 ∧
      (channelAt 65536).buf .b1 = .ok (bitsOf 4 12) ∧ (channelAt 65536).cfg.prob.toNat = 65536 :=
  ⟨channelAt_buf _, by decide, channelAt_buf _, by decide⟩

theorem chan_runs {s : State} {k : BufId} {u : Bits} (d : BufId) (hu : s.buf k = .ok u)
    (hp : s.cfg.prob.toNat ≤ 65536) :
    ∃ t, exec (.chan d k) s = .next t ∧ t.status.errcode = .ok ∧ ∃ v, t.buf d = .ok v := by
  have hl : (transmit s.cfg.seed s.cfg.prob.toNat s.drawIdx u).length ≤ 16384 := by
    rw [length_transmit, State.buf_length hu]; exact s.bufLen_le k
  refine ⟨((s.setBuf d (transmit s.cfg.seed s.cfg.prob.toNat s.drawIdx u)).advanceDraws u.length).completeOk, ?_, rfl,
    _, buf_of_setBuf (s := s) hl rfl rfl⟩
  simp only [exec, execChan, Config.probOne, hu, map_ok_val]
  rw [if_neg (by omega), State.settle_ok]

theorem chan_next (p : Nat) (d : BufId) (h : (channelAt p).cfg.prob.toNat ≤ 65536) :
    ∃ t, exec (.chan d .b1) (channelAt p) = .next t ∧ t.status.errcode = .ok ∧ ∃ v, t.buf d = .ok v :=
  chan_runs d (channelAt_buf p) h

/-- The same source and generator, to two destinations. -/
theorem witness_ChannelIsDeterministic :
    (∃ t, exec (.chan .b2 .b1) (channelAt 0x8000) = .next t ∧ t.status.errcode = .ok) ∧
      ∃ t', exec (.chan .b3 .b1) (channelAt 0x8000) = .next t' := by
  obtain ⟨t, h, hc, -⟩ := chan_next 0x8000 .b2 (by decide)
  obtain ⟨t', h', -⟩ := chan_next 0x8000 .b3 (by decide)
  exact ⟨⟨t, h, hc⟩, t', h'⟩

theorem witness_RaisingProbOnlyAddsFlips :
    (channelAt 0x4000).buf .b1 = .ok (bitsOf 4 12) ∧ (channelAt 65536).buf .b1 = .ok (bitsOf 4 12) ∧
      (channelAt 0x4000).cfg.seed = (channelAt 65536).cfg.seed ∧ (channelAt 0x4000).drawIdx = (channelAt 65536).drawIdx ∧
      (channelAt 0x4000).cfg.prob.toNat ≤ (channelAt 65536).cfg.prob.toNat ∧ (channelAt 65536).cfg.prob.toNat ≤ 65536 ∧
      (∃ t v, exec (.chan .b2 .b1) (channelAt 0x4000) = .next t ∧ t.buf .b2 = .ok v) ∧
      ∃ t v, exec (.chan .b2 .b1) (channelAt 65536) = .next t ∧ t.buf .b2 = .ok v := by
  obtain ⟨t, h, -, v, hv⟩ := chan_next 0x4000 .b2 (by decide)
  obtain ⟨t', h', -, v', hv'⟩ := chan_next 65536 .b2 (by decide)
  exact ⟨channelAt_buf _, channelAt_buf _, rfl, rfl, by decide, by decide, ⟨t, v, h, hv⟩, t', v', h', hv'⟩

/-! ### The repetition code -/

/-- `n` zeros in B0 and a repetition factor. -/
def repetition (n r : Nat) : State := withCfg (zerosIn State.reset .b0 n) { cfg0 with rep := BitVec.ofNat 8 r }

theorem repetition_buf (n r : Nat) (h : n ≤ 16384) : (repetition n r).buf .b0 = .ok (zeros n) := by
  unfold repetition
  rw [buf_withCfg]
  exact readable_zeros _ _ _ h

/-- REP = 0; 4096·4 = 16384 bits; 3277·5 = 16385 bits. -/
theorem witness_RencRepeatsEachBit :
    (repetition 0 0).cfg.rep = 0 ∧
    ((repetition 4096 4).cfg.rep ≠ 0 ∧ (repetition 4096 4).buf .b0 = .ok (zeros 4096) ∧
      4096 * (repetition 4096 4).cfg.rep.toNat = 16384) ∧
    ((repetition 3277 5).cfg.rep ≠ 0 ∧ (repetition 3277 5).buf .b0 = .ok (zeros 3277) ∧
      3277 * (repetition 3277 5).cfg.rep.toNat = 16385) := by
  have e : ∀ n r, (repetition n r).cfg.rep = BitVec.ofNat 8 r := fun _ _ => rfl
  exact ⟨rfl, ⟨by rw [e]; decide, repetition_buf _ _ (by omega), by rw [e]; decide⟩,
    ⟨by rw [e]; decide, repetition_buf _ _ (by omega), by rw [e]; decide⟩⟩

theorem witness_RdecVotesOnWholeBlocks :
    (repetition 0 0).cfg.rep = 0 ∧ (repetition 10 3).cfg.rep ≠ 0 ∧ (repetition 10 3).buf .b0 = .ok (zeros 10) :=
  ⟨rfl, by rw [show (repetition 10 3).cfg.rep = 3 from rfl]; decide, repetition_buf _ _ (by omega)⟩

theorem witness_RepetitionRoundTrip :
    (repetition 5 255).cfg.rep ≠ 0 ∧ (repetition 5 255).buf .b0 = .ok (zeros 5) ∧
      (zeros 5).length * (repetition 5 255).cfg.rep.toNat ≤ 16384 := by
  rw [show (repetition 5 255).cfg.rep = 255 from rfl]
  exact ⟨by decide, repetition_buf _ _ (by omega), by decide⟩

theorem witness_MajorityCorrectsFewFlips :
    (repetition 10 3).cfg.rep.toNat % 2 = 1 ∧ (repetition 10 3).buf .b0 = .ok (zeros 10) := by
  rw [show (repetition 10 3).cfg.rep = 3 from rfl]
  exact ⟨by decide, repetition_buf _ _ (by omega)⟩

/-! ### The corrector -/

/-- The codebook 0x17, 0x01, 0x17 of width 5 with an input in B0. -/
def codebook (v : Bits) : State :=
  withCfg ((withWords State.reset 0x08000 [0x17, 0, 0x01, 0, 0x17, 0]).setBuf .b0 v) { cfg0 with cbW := 5, cbN := 3 }

theorem codebook_buf (v : Bits) (h : v.length ≤ 16384) : (codebook v).buf .b0 = .ok v := by
  unfold codebook
  rw [buf_withCfg]
  exact readable _ _ _ h

/-- The values of the codebook's entries. -/
def entryValue (j : Nat) : Nat := if j = 1 then 0x01 else 0x17

theorem codebook_entry (v : Bits) (j : Nat) (h : j < 3) : entryIs (codebook v) j (entryValue j) := by
  have hr : ∀ a, a < 0x20000 →
      (codebook v).mem.read a = (withWords State.reset 0x08000 [0x17, 0, 0x01, 0, 0x17, 0]).mem.read a := by
    intro a ha
    exact State.read_setBuf_outside _ .b0 v a (.inl (by unfold bufAddr; simp only [BufId.field]; omega))
  have h1 : ∀ j, j < 3 → ∃ lo hi : Word,
      (withWords State.reset 0x08000 [0x17, 0, 0x01, 0, 0x17, 0]).mem.read (cbAddr j) = some lo ∧
      (withWords State.reset 0x08000 [0x17, 0, 0x01, 0, 0x17, 0]).mem.read (cbAddr j + 4) = some hi ∧
      entryValue j = hi.toNat * 2 ^ 32 + lo.toNat := by
    intro j hj
    match j, hj with
    | 0, _ => exact ⟨0x17, 0, by decide, by decide, by decide⟩
    | 1, _ => exact ⟨0x01, 0, by decide, by decide, by decide⟩
    | 2, _ => exact ⟨0x17, 0, by decide, by decide, by decide⟩
  obtain ⟨lo, hi, a, b, c⟩ := h1 j h
  exact ⟨lo, hi, by rw [hr _ (by unfold cbAddr; omega)]; exact a, by rw [hr _ (by unfold cbAddr; omega)]; exact b, c⟩

theorem witness_CorrReturnsFirstNearestEntry :
    (codebook (bitsOf 5 8)).buf .b0 = .ok (bitsOf 5 8) ∧ (codebook (bitsOf 5 8)).cfg.cbW.toNat = 5 ∧
      (codebook (bitsOf 5 8)).cfg.cbN.toNat = 3 ∧ (bitsOf 5 8).length = 5 ∧
      ∀ j, j < 3 → entryIs (codebook (bitsOf 5 8)) j (entryValue j) ∧ entryValue j < 2 ^ 5 :=
  ⟨codebook_buf _ (by decide), rfl, rfl, rfl, fun j h => ⟨codebook_entry _ j h, by unfold entryValue; split <;> decide⟩⟩

/-- The member 0x17, whose first entry is number 0. -/
theorem witness_CorrFixesCodebookMembers :
    (codebook (bitsOf 5 0x17)).buf .b0 = .ok (bitsOf 5 0x17) ∧ (codebook (bitsOf 5 0x17)).cfg.cbW.toNat = 5 ∧
      (codebook (bitsOf 5 0x17)).cfg.cbN.toNat = 3 ∧
      (∀ i, i < 3 → entryIs (codebook (bitsOf 5 0x17)) i (entryValue i) ∧ entryValue i < 2 ^ 5) ∧
      bitsOf 5 0x17 = bitsOf 5 (entryValue 0) ∧ ∀ i, i < 0 → entryValue i ≠ entryValue 0 :=
  ⟨codebook_buf _ (by decide), rfl, rfl,
    fun j h => ⟨codebook_entry _ j h, by unfold entryValue; split <;> decide⟩, rfl, fun i h => absurd h (by omega)⟩

/-- The codebook with width 4: entry 0 = 0x17 does not fit. -/
theorem witness_CorrErrorsInOrder :
    ((withCfg State.reset { cfg0 with cbW := 0 }).cfg.cbW.toNat < 1 ∧
      (withCfg State.reset { cfg0 with cbW := 65 }).cfg.cbW.toNat > 64) ∧
    (withCfg State.reset { cfg0 with cbW := 64, cbN := 1025 }).cfg.cbN.toNat > 1024 ∧
    (withCfg State.reset { cfg0 with cbW := 1 }).cfg.cbN.toNat = 0 ∧
    ((codebook (bitsOf 4 6)).buf .b0 = .ok (bitsOf 4 6) ∧ (bitsOf 4 6).length ≠ (codebook (bitsOf 4 6)).cfg.cbW.toNat) ∧
    (let s := withCfg (codebook (bitsOf 4 6)) { cfg0 with cbW := 4, cbN := 3 }
     s.buf .b0 = .ok (bitsOf 4 6) ∧ (bitsOf 4 6).length = s.cfg.cbW.toNat ∧ 0 < s.cfg.cbN.toNat ∧
      entryIs s 0 (entryValue 0) ∧ entryValue 0 ≥ 2 ^ s.cfg.cbW.toNat) :=
  ⟨by decide, by decide, by decide, ⟨codebook_buf _ (by decide), by rw [show (codebook _).cfg.cbW = 5 from rfl]; decide⟩,
    by rw [buf_withCfg]; exact codebook_buf _ (by decide), by decide, by decide, codebook_entry _ 0 (by omega), by decide⟩

/-! ### Frames and rules over all commands -/

theorem witness_BufferWritersFrame :
    bufferDst (.bclr .b3) = some .b3 ∧ ∃ t, exec (.bclr .b3) State.reset = .next t := ⟨rfl, _, rfl⟩

/-- All three of HDEC, FDEC and SDEC give a next state; FDEC's is a success. -/
theorem witness_SymbolWritersFrame :
    (∃ t, exec (.hdec .b3) State.reset = .next t) ∧
      (∃ t, exec (.fdec .b3) State.reset = .next t ∧ t.status.errcode = .ok) ∧
      ∃ t, exec (.sdec .b3) (withCfg State.reset cfgS) = .next t ∧ t.status.errcode = .ok :=
  ⟨⟨_, rfl⟩, ⟨_, rfl, rfl⟩, ⟨_, rfl, rfl⟩⟩

theorem witness_NonBufferWritersFrame :
    (∃ t, exec .nop State.reset = .next t) ∧ (∃ t, exec .hbuild freqState = .next t) ∧
      ∃ t, exec (.bget .b0 0) State.reset = .next t := ⟨⟨_, rfl⟩, ⟨_, freqState_hbuild⟩, ⟨_, rfl⟩⟩

/-- A failure and a success. -/
theorem witness_FailedCommandWritesNothing :
    (∃ t, exec (.henc .b0) State.reset = .next t ∧ t.status.errcode ≠ .ok) ∧
      ∃ t, exec (.bclr .b0) State.reset = .next t ∧ t.status.errcode = .ok := ⟨⟨_, rfl, nofun⟩, ⟨_, rfl, rfl⟩⟩

theorem witness_CommandsRaiseTheirCodesOnly : ∃ t, exec (.hdec .b0) State.reset = .next t := ⟨_, rfl⟩

/-- A success and a failure, and an error code. -/
theorem witness_EveryCompletionReports :
    (∃ t, exec .nop State.reset = .next t ∧ t.status.errcode = .ok) ∧
      (∃ t, exec (.bput .b0 0) State.reset = .next t ∧ t.status.errcode ≠ .ok) ∧ ErrCode.capacity ≠ .ok :=
  ⟨⟨_, rfl, rfl⟩, ⟨_, rfl, nofun⟩, nofun⟩

theorem witness_OnlyHbuildChangesTheTable :
    (∃ t, step (issued 0x01400000 builtH1) = .next t) ∧ (issued 0x01400000 builtH1).agenda.head? ≠ some .powerOn ∧
      ¬ (((issued 0x01400000 builtH1).agenda = [] ∨ (issued 0x01400000 builtH1).agenda.head? = some .engine) ∧
        (issued 0x01400000 builtH1).pending = true ∧ decode (issued 0x01400000 builtH1).cmd = .ok .hbuild) := by
  refine ⟨⟨_, rfl⟩, by rw [show (issued 0x01400000 builtH1).agenda = [] from rfl]; decide, ?_⟩
  rintro ⟨-, -, h⟩
  rw [show (issued 0x01400000 builtH1).cmd = 0x01400000 from rfl] at h
  revert h
  decide

/-- The soft reset, and a CTRL write that is none, with TBLV = 1. -/
theorem witness_OnlyHbuildChangesTheTable_ctrl :
    (∃ t, step (builtH1.atTurn (.host (.write .word 0x008 3))) = .next t) ∧ (3 : Word).getLsbD 1 = true ∧
    (∃ t, step (builtH1.atTurn (.host (.write .word 0x008 1))) = .next t) ∧ (1 : Word).getLsbD 1 = false :=
  ⟨⟨_, rfl⟩, by decide, ⟨_, rfl⟩, by decide⟩

/-! ### The host bus -/

/-- An idle and a busy state. -/
theorem witness_CmdWriteIsAcceptedOrDropped :
    State.reset.status.busy = false ∧ (issued 0 State.reset).status.busy = true := by decide

/-- Busy; an allowed and a forbidden read, and an allowed and a forbidden write, of CTRL and of the neighbours. -/
theorem witness_BusyHostAccessesAreHazards :
    (issued 0 State.reset).status.busy = true ∧
    ((0x010 : BusAddr).toNat % 4 = 0 ∧ (0x010 : BusAddr).toNat ∈ [0x000, 0x004, 0x008, 0x00C, 0x010]) ∧
    ((0x014 : BusAddr).toNat % 4 = 0 ∧ (0x014 : BusAddr).toNat ∉ [0x000, 0x004, 0x008, 0x00C, 0x010]) ∧
    ((0x008 : BusAddr).toNat = 0x008 ∧ (1 : Word).getLsbD 1 = false) ∧
    ((0x008 : BusAddr).toNat ∉ [0x00C, 0x010] ∧ (2 : Word).getLsbD 1 = true) := by decide

theorem witness_UnsupportedAccessesStickTheHost : AccessSize.half ≠ .word ∧ (0x021 : BusAddr).toNat % 4 ≠ 0 := by decide

theorem witness_ResetsRestoreTheRegisters : State.reset.status.busy = false ∧ (3 : Word).getLsbD 1 = true := by decide

theorem witness_LenWriteStoresAtMostTheCapacity : State.reset.status.busy = false ∧
    min (0x4000 : Word).toNat 16384 = 16384 ∧ min (0x4001 : Word).toNat 16384 = 16384 := by decide

theorem witness_ConfigWriteStoresListedBits :
    State.reset.status.busy = false ∧ Reg.storedBits .semw = some 0x001F1F1F ∧ Reg.storedBits .seed = some 0xFFFFFFFF := by
  decide

/-- Reserved: 0x0FC and 0x027FC; read-only: ERRINFO, the last TRIE word and the last CODE word. -/
theorem witness_ReservedAndReadOnlyPlacesIgnoreWrites :
    (∀ r : Reg, r.addr ≠ (0x0FC : BusAddr).toNat) ∧ windowAt (0x0FC : BusAddr).toNat = none ∧
    windowAt (0x027FC : BusAddr).toNat = none ∧ (0x014 : BusAddr).toNat = 0x014 ∧
    (0x02000 ≤ (0x027F8 : BusAddr).toNat ∧ (0x027F8 : BusAddr).toNat < 0x027FC) ∧
    (0x10000 ≤ (0x13FE0 : BusAddr).toNat ∧ (0x13FE0 : BusAddr).toNat < 0x14000) := by
  refine ⟨fun r => ?_, by decide, by decide, by decide, by decide, by decide⟩
  cases r with
  | len b => cases b <;> decide
  | _ => decide

/-- STATUS while busy; a register; a written word; an unwritten one. -/
theorem witness_HostReadsHaveNoSideEffects :
    ((issued 0 State.reset).status.busy = true ∧ Reg.addr .status = (0x00C : BusAddr).toNat ∧
      Reg.status ∈ [Reg.id, .version, .ctrl, .status, .cmd]) ∧
    State.reset.status.busy = false ∧ Reg.addr .hbNnode = (0x0A4 : BusAddr).toNat ∧
    (windowAt (0x04FFC : BusAddr).toNat = some .readWrite ∧
      (withWords State.reset 0x04FFC [7]).mem.read (0x04FFC : BusAddr).toNat = some 7) ∧
    (windowAt (0x01000 : BusAddr).toNat = some .readWrite ∧
      State.reset.mem.read (0x01000 : BusAddr).toNat = none) := by decide

/-- The first or last word of each window; the last window word of B3 and the last cell it can hold. -/
theorem witness_WindowWriteSetsCells :
    State.reset.status.busy = false ∧
    (∀ a ∈ [0x01000, 0x013FC, 0x04000, 0x04FFC, 0x08000, 0x09FFC, 0x20000, 0x21FFC], a % 4 = 0 ∧
      (BitVec.ofNat 20 a).toNat = a ∧ ((0x01000 ≤ a ∧ a < 0x01400) ∨ (0x04000 ≤ a ∧ a < 0x05000) ∨
        (0x08000 ≤ a ∧ a < 0x0A000) ∨ (0x20000 ≤ a ∧ a < 0x22000))) ∧
    0x21FFC = 0x20000 + 0x800 * BufId.b3.field + 4 * 511 ∧
    ∃ (t : State) (v : Bits), t.buf .b3 = .ok v ∧ 32 * 511 + 31 < t.bufLen .b3 :=
  ⟨rfl, by decide, by decide, zerosIn State.reset .b3 16384, _, readable_zeros _ _ _ (by omega),
    by rw [bufLen_zeros _ _ _ (by omega)]; omega⟩

/-- A completion, the clearing writes, an acceptance, a power-on reset and a plain CTRL write. -/
theorem witness_IrqRisesAtCompletionAndFalls :
    (∃ t, exec .nop { State.reset with ie := true } = .next t) ∧
    ((2 : Word).getLsbD 1 = true ∧ ∃ t, step (State.reset.atTurn (.host (.write .word 0x00C 2))) = .next t) ∧
    ((0 : Word).getLsbD 0 = false ∧ ∃ t, step (State.reset.atTurn (.host (.write .word 0x008 0))) = .next t) ∧
    ((3 : Word).getLsbD 1 = true ∧ ∃ t, step (State.reset.atTurn (.host (.write .word 0x008 3))) = .next t) ∧
    (State.reset.status.busy = false ∧ ∃ t, step (State.reset.atTurn (.host (.write .word 0x010 0))) = .next t) ∧
    (∃ t, step (State.reset.atTurn .powerOn) = .next t) ∧ (1 : Word).getLsbD 1 = false :=
  ⟨⟨_, rfl⟩, ⟨by decide, _, rfl⟩, ⟨by decide, _, rfl⟩, ⟨by decide, _, rfl⟩, ⟨rfl, _, rfl⟩, ⟨_, rfl⟩, by decide⟩

end Sys2Proof.Tests
end

section
/-! PROOFS. What the commands leave unchanged, STATUS, the register writes and the reset values: the statements of
10_state.md. -/

namespace Sys2Proof.Machine

/-! ## Reset -/

/-- Settles O1: the reset table of R62, register by register. -/
theorem powerOnResetValues : Obligations.PowerOnResetValues := by
  refine ⟨fun r => ?_, Memory.read_nil, rfl⟩
  cases r with
  | len b => cases b <;> rfl
  | _ => rfl

/-- Settles O2: the empty memory is canonical, and STATUS = 0 leaves the other clauses nothing to hold of. -/
theorem resetMeetsInvariant : Obligations.ResetMeetsInvariant where
  memWf := ⟨List.Pairwise.nil, nofun⟩
  busyPending := rfl
  busyNotDone := nofun
  table := nofun

/-! ## Frames of the commands -/

/-- What a completed command ended in. -/
theorem ends_of_exec {i : Instr} {s t : State} (h : exec i s = .next t) : Ends i s (.next t) := h ▸ exec_ends i s

/-- Settles O48: of the ways a command can end, `unread` is the only one that is no completion. -/
theorem commandsStopOnlyAtUnwrittenWords : Obligations.CommandsStopOnlyAtUnwrittenWords := by
  intro i s
  have h := exec_ends i s
  generalize exec i s = o at h ⊢
  cases h with
  | unread a ha => exact .inr ⟨a, rfl, ha⟩
  | _ => exact .inl ⟨_, rfl⟩

/-- HDEC, FDEC and SDEC have no destination buffer. -/
theorem bufferDst_of_symbolWriter {i : Instr} {k : BufId} (h : i = .hdec k ∨ i = .fdec k ∨ i = .sdec k) :
    bufferDst i = none := by
  rcases h with rfl | rfl | rfl <;> rfl

/-- Settles O42: a buffer writer ends in an error completion, which keeps everything, or in `Ends.buffer`, whose only
write to the memories and lengths is SetBuf of its destination. -/
theorem bufferWritersFrame : Obligations.BufferWritersFrame := by
  intro i d s t hd h
  cases ends_of_exec h with
  | raised c n =>
    exact ⟨fun _ _ => rfl, fun _ _ => rfl, rfl, fun _ => rfl, rfl, fun _ => rfl, fun _ => ⟨rfl, rfl⟩, rfl, rfl, rfl, rfl⟩
  | buffer d' hd' v hv r k hk hr h1 h2 =>
    obtain rfl : d' = d := Option.some.inj (hd'.symm.trans hd)
    exact ⟨fun b hb => s.bufLen_setBuf_other v hb, s.read_setBuf_outside d' v, rfl, hk, hr, h1, h2, rfl, rfl, rfl, rfl⟩
  | symbols k hi => rw [bufferDst_of_symbolWriter hi] at hd; cases hd
  | empty hi | nop hi | bget _ _ hi | hbuild hi => subst hi; cases hd

/-- Settles O43: a symbol writer ends in an error completion or in `Ends.symbols`, whose only write to the memories is
the output words from SYM_OUT_BASE, as many as its item count says. -/
theorem symbolWritersFrame : Obligations.SymbolWritersFrame := by
  intro i k s t hi h
  cases ends_of_exec h with
  | raised c n =>
    exact ⟨rfl, rfl, rfl, rfl, rfl, rfl, rfl, fun _ _ => rfl, rfl, fun _ => rfl, fun _ => rfl⟩
  | symbols k' hi' ws hw r hr h1 h2 h3 =>
    obtain rfl : k = k' := by
      rcases hi with rfl | rfl | rfl <;> simpa using hi'.symm
    refine ⟨rfl, rfl, rfl, rfl, rfl, rfl, rfl, fun a ha => ?_, hr, h1, h2⟩
    refine Memory.read_writeWords_outside _ _ _ _ ?_
    simp only [State.completeOk_res, ← h3, symAddr] at ha ⊢
    omega
  | buffer d hd => rw [bufferDst_of_symbolWriter hi] at hd; cases hd
  | empty he | nop he | bget _ _ he | hbuild he => subst he; simp at hi

/-- Settles O44: NOP and BGET store no word, and HBUILD's one write to the memories stays in CODE and TRIE. -/
theorem nonBufferWritersFrame : Obligations.NonBufferWritersFrame := by
  intro i s t h hi
  cases ends_of_exec h with
  | raised | nop =>
    exact ⟨rfl, rfl, rfl, rfl, rfl, fun _ _ _ => rfl, fun _ => ⟨rfl, rfl, rfl⟩, rfl, fun _ => rfl, rfl⟩
  | empty he =>
    exact ⟨rfl, rfl, rfl, rfl, rfl, fun _ _ _ => rfl, fun hn => absurd he hn, rfl, fun _ => rfl, rfl⟩
  | bget k w he x o =>
    exact ⟨rfl, rfl, rfl, rfl, rfl, fun _ _ _ => rfl, fun _ => ⟨rfl, rfl, rfl⟩, rfl, by simp [he], rfl⟩
  | hbuild he ws hw tree ht =>
    exact ⟨rfl, rfl, rfl, rfl, rfl, Memory.read_writeTable_outside s.mem tree, fun hn => absurd he hn, rfl,
      fun _ => rfl, rfl⟩
  | buffer d hd => rcases hi with rfl | rfl | ⟨k, w, rfl⟩ <;> cases hd
  | symbols k hk => rcases hk with rfl | rfl | rfl <;> simp at hi

/-! ## STATUS -/

/-- The write-one-to-clear bits of STATUS are 1, 2 and 3 (R40). -/
theorem getLsbD_clearMask {i : Nat} (h : i < 32) : (0x0000000E : Word).getLsbD i = decide (i = 1 ∨ i = 2 ∨ i = 3) := by
  revert i; decide

/-- The reserved bits of STATUS are 7:5 and 31:24 (R40). -/
theorem getLsbD_reservedMask {i : Nat} (h : i < 32) :
    (0xFF0000E0 : Word).getLsbD i = decide ((5 ≤ i ∧ i < 8) ∨ 24 ≤ i) := by
  revert i; decide

/-- A host write of STATUS clears, of the word read, the bits 3:1 where the written word has 1 (R40). -/
theorem Status.word_hostWrite (st : Status) (w : Word) :
    (st.hostWrite w).word = st.word &&& ~~~(w &&& 0x0000000E) := by
  refine BitVec.eq_of_getLsbD_eq fun i hi => ?_
  rw [BitVec.getLsbD_and, BitVec.getLsbD_not, BitVec.getLsbD_and, getLsbD_clearMask hi, Status.getLsbD_word,
    Status.getLsbD_word]
  by_cases hc : i = 1 ∨ i = 2 ∨ i = 3
  · rcases hc with rfl | rfl | rfl <;> simp
  · have h1 : i ≠ 1 := by omega
    have h2 : i ≠ 2 := by omega
    have h3 : i ≠ 3 := by omega
    simp [h1, h2, h3, hi]

/-- The reserved bits of STATUS read as 0 (R40). -/
theorem Status.word_and_reserved (st : Status) : st.word &&& 0xFF0000E0 = 0 := by
  refine BitVec.eq_of_getLsbD_eq fun i hi => ?_
  rw [BitVec.getLsbD_and, getLsbD_reservedMask hi, Status.getLsbD_word]
  by_cases hr : (5 ≤ i ∧ i < 8) ∨ 24 ≤ i
  · repeat rw [if_neg (by omega)]
    split
    · simp
    · rw [if_neg (by omega), if_neg (by omega)]; simp
  · simp [hr]

/-- Settles O54: STATUS as a sum of its fields, and a write of it as the clearing of the bits 3:1 of the word read. -/
theorem statusBitsClearOnWritingOne : Obligations.StatusBitsClearOnWritingOne := by
  refine ⟨fun s => ?_, fun s w => ⟨s.writeReg .status w, ?_, ?_, ?_, rfl⟩⟩
  · rw [State.readReg, Status.toNat_word, Nat.add_right_comm]
    cases s.status.errcode <;> rfl
  · exact step_write_reg s 0x00C .status w rfl (.inr (.inl rfl))
  · exact s.status.word_hostWrite w
  · exact s.status.word_and_reserved

/-! ## Register writes while idle -/

/-- A write of LENk changes no other register. -/
theorem State.readReg_writeLen_other (s : State) {b : BufId} {r : Reg} (x : Word) (h : r ≠ .len b) :
    (s.writeLen b x).readReg r = s.readReg r := by
  cases r with
  | len c =>
    have hc : c ≠ b := fun hc => h (hc ▸ rfl)
    simp only [State.readReg, State.bufLen, State.writeLen, Lens.get_set_other _ _ hc]
  | _ => rfl

/-- A write of LENk stores min(x, BUF_BITS) (R32). -/
theorem State.bufLen_writeLen_same (s : State) (b : BufId) (x : Word) :
    (s.writeLen b x).bufLen b = min x.toNat 16384 := by
  rw [State.bufLen, State.writeLen, Lens.get_set_same, val_clampLen]

/-- Settles O55: the length stored is the clamped one, and no other register or memory word is touched. -/
theorem lenWriteStoresAtMostTheCapacity : Obligations.LenWriteStoresAtMostTheCapacity := by
  intro s b x h
  refine ⟨s.writeLen b x, step_hostWr s (.len b) x h, s.bufLen_writeLen_same b x, ?_,
    fun r => s.readReg_writeLen_other x, rfl⟩
  rw [State.toNat_readReg_len, State.bufLen_writeLen_same]

/-- A register of `n` stored bits reads the written word restricted to its low `n` bits. -/
theorem setWidth_setWidth_eq_and (x : Word) (n : Nat) :
    (x.setWidth n).setWidth 32 = x &&& (BitVec.allOnes n).setWidth 32 := by
  refine BitVec.eq_of_getLsbD_eq fun i hi => ?_
  simp [hi, Bool.and_comm]

/-- The stored bits of SEMW are 4:0, 12:8 and 20:16 (R48). -/
theorem getLsbD_semwMask {i : Nat} (h : i < 32) : (0x001F1F1F : Word).getLsbD i =
    if i < 5 then true else if i < 8 then false else if i < 13 then true else if i < 16 then false
    else if i < 21 then true else false := by
  revert i; decide

/-- A field cut out of a word holds the word's bits at the field's place. -/
theorem getLsbD_extractLsb'_sub (x : Word) {lo n i : Nat} (h1 : lo ≤ i) (h2 : i < lo + n) :
    (x.extractLsb' lo n).getLsbD (i - lo) = x.getLsbD i := by
  have h3 : i - lo < n := by omega
  simp [h3, Nat.add_sub_cancel' h1]

/-- SEMW reads the written word restricted to its three fields (R48). -/
theorem readReg_writeReg_semw (s : State) (x : Word) :
    (s.writeReg .semw x).readReg .semw = x &&& 0x001F1F1F := by
  refine BitVec.eq_of_getLsbD_eq fun i hi => ?_
  rw [BitVec.getLsbD_and, getLsbD_semwMask hi, State.readReg, ConfigRegs.getLsbD_semwWord, State.writeReg]
  split_ifs with h5 h8 h13 h16 h21
  · rw [Bool.and_true]; exact getLsbD_extractLsb'_sub x (Nat.zero_le i) (by omega)
  · rw [Bool.and_false]
  · rw [Bool.and_true]; exact getLsbD_extractLsb'_sub x (by omega) (by omega)
  · rw [Bool.and_false]
  · rw [Bool.and_true]; exact getLsbD_extractLsb'_sub x (by omega) (by omega)
  · rw [Bool.and_false]

/-- A configuration register reads, after a write of it, the written word restricted to its stored bits (R48). -/
theorem readReg_writeReg_same (s : State) {r : Reg} {mask : Word} (x : Word) (h : r.storedBits = some mask) :
    (s.writeReg r x).readReg r = x &&& mask := by
  cases r with
  | semw => cases h; exact readReg_writeReg_semw s x
  | seed | pkData => cases h; exact BitVec.and_allOnes.symm
  | fixw | fbw | rep | prob | semNh | semNr | semNt | cbW | cbN | symInBase | symInCnt | symOutBase | pkOff =>
    cases h; exact setWidth_setWidth_eq_and x _
  | _ => cases h

/-- A write of a configuration register changes no other register but DRAWCNT (R48, R57). -/
theorem readReg_writeReg_other (s : State) {r q : Reg} {mask : Word} (x : Word) (h : r.storedBits = some mask)
    (hq : q ≠ r) (hd : q ≠ .drawcnt) : (s.writeReg r x).readReg q = s.readReg q := by
  cases r with
  | fixw | fbw | rep | prob | seed | semw | semNh | semNr | semNt | cbW | cbN | symInBase | symInCnt | symOutBase
  | pkData | pkOff => cases q <;> first | exact absurd rfl hq | exact absurd rfl hd | rfl
  | _ => cases h

/-- A write of a configuration register changes the configuration alone, but that SEED's sets DRAW_IDX to 0 (R57,
R107). -/
theorem writeReg_config (s : State) {r : Reg} {mask : Word} (x : Word) (h : r.storedBits = some mask) :
    s.writeReg r x =
      { s with cfg := (s.writeReg r x).cfg, drawIdx := if r = .seed then 0 else s.drawIdx } := by
  cases r with
  | fixw | fbw | rep | prob | seed | semw | semNh | semNr | semNt | cbW | cbN | symInBase | symInCnt | symOutBase
  | pkData | pkOff => rfl
  | _ => cases h

/-- Settles O56: by what a register reads after a write of it, what every other reads, and that the write changes the
configuration and DRAW_IDX only. -/
theorem configWriteStoresListedBits : Obligations.ConfigWriteStoresListedBits := by
  intro s r mask x hb h
  have hw := writeReg_config s x h
  exact ⟨s.writeReg r x, step_hostWr s r x hb, readReg_writeReg_same s x h,
    fun q hq hd => readReg_writeReg_other s x h hq hd, congrArg State.drawIdx hw, (congrArg State.mem hw :)⟩

end Sys2Proof.Machine
end

section
/-! PROOFS. The host bus: unsupported accesses, the places a host write leaves alone, what a host read returns, and what
a window write sets: the statements of 20_memory.md. -/

namespace Sys2Proof.Machine

/-! ## Unsupported accesses -/

/-- A byte, halfword or misaligned access is not supported (R106). -/
theorem accessSupported_eq_false {z : AccessSize} {a : BusAddr} (h : z ≠ .word ∨ a.toNat % 4 ≠ 0) :
    accessSupported z a = false :=
  decide_eq_false (not_and_or.mpr h)

/-- Settles O52: the host's turn checks the access before it looks at the state. -/
theorem unsupportedAccessesStickTheHost : Obligations.UnsupportedAccessesStickTheHost := by
  intro s z a w h
  have hz := accessSupported_eq_false h
  constructor
  · rw [step_host, State.hostTurn, hz]; rfl
  · rw [step_host, State.hostTurn, hz]; rfl

/-! ## Supported accesses -/

/-- An address with no register and no memory word is reserved (R53, R101). -/
theorem placeAt_reserved {a : Nat} (hr : ∀ r : Reg, r.addr ≠ a) (hw : windowAt a = none) : placeAt a = .reserved := by
  rw [placeAt, regAt_none hr, hw]

/-- No read is a hazard while idle, and none of R460's list while BUSY = 1. -/
theorem State.read_noHazard {s : State} {p : Place} (h : s.status.busy = false ∨ busyReadAllowed p = true) :
    (s.status.busy && !busyReadAllowed p) = false := by
  rcases h with h | h <;> simp [h]

/-- An aligned word read that is no hazard returns the data of the place (R107). -/
theorem step_read_some {s : State} {a : BusAddr} {p : Place} {w : Word} (h4 : a.toNat % 4 = 0)
    (hp : placeAt a.toNat = p) (h : s.status.busy = false ∨ busyReadAllowed p = true)
    (hw : s.readPlace a.toNat p = some w) :
    step (s.atTurn (.host (.read .word a))) = .next { s with rdata := w } := by
  rw [step_read s a h4, State.hostRead, hp, State.read_noHazard h, hw]
  rfl

/-- An idle aligned word read of a place without data is UNINIT_READ (R60). -/
theorem step_read_none {s : State} {a : BusAddr} {p : Place} (h4 : a.toNat % 4 = 0) (hp : placeAt a.toNat = p)
    (h : s.status.busy = false) (hw : s.readPlace a.toNat p = none) :
    step (s.atTurn (.host (.read .word a))) = .fault (.uninitRead a.toNat) := by
  rw [step_read s a h4, State.hostRead, hp, State.read_noHazard (.inl h), hw]
  rfl

/-- An idle aligned word write does to the state what a write of the place does (R107). -/
theorem step_write_place (s : State) (a : BusAddr) (w : Word) (h : s.status.busy = false) (h4 : a.toNat % 4 = 0) :
    step (s.atTurn (.host (.write .word a w))) = .next (s.writePlace a.toNat (placeAt a.toNat) w) := by
  rw [step_write s a w h4, State.hostWrite, h]
  rfl

/-! ## Reserved and read-only places -/

/-- The registers a host write does not reach: the two constants, ERRINFO, DRAWCNT and the results (R43, R44, R47, R52,
R57). -/
def readOnlyRegs : List Reg :=
  [.id, .version, .errinfo, .drawcnt, .symOutCnt, .resid, .drop, .badbit, .corrIdx, .corrDist, .hbNleaf, .hbMaxlen,
    .hbNnode]

/-- A read-only register ignores a write (R107). -/
theorem State.writeReg_readOnly (s : State) (w : Word) {r : Reg} (h : r ∈ readOnlyRegs) : s.writeReg r w = s := by
  cases r with
  | id | version | errinfo | drawcnt | symOutCnt | resid | drop | badbit | corrIdx | corrDist | hbNleaf | hbMaxlen
  | hbNnode => rfl
  | _ => simp [readOnlyRegs] at h

/-- A write within the CODE or the TRIE window changes nothing: what lies there is a read-only word or reserved (R101,
R102). -/
theorem State.writePlace_inTable (s : State) (w : Word) {a : Nat} (h : inTable a) :
    s.writePlace a (placeAt a) w = s := by
  rcases placeAt_cases a with ⟨r, -, hr⟩ | ⟨v, hp, hv⟩ | ⟨hp, -⟩
  · have := r.addr_lt
    unfold inTable at h
    omega
  · cases v with
    | readWrite => exact absurd h (windowAt_readWrite hv)
    | readOnly => rw [hp]; rfl
  · rw [hp]; rfl

/-- Settles O57: the address is reserved, one of `readOnlyRegs`, or within a table window. -/
theorem reservedAndReadOnlyPlacesIgnoreWrites : Obligations.ReservedAndReadOnlyPlacesIgnoreWrites := by
  intro s a w hb h4
  have hwrite := step_write_place s a w hb h4
  refine ⟨fun hr hw => ?_, fun h => ?_⟩
  · have hp := placeAt_reserved hr hw
    refine ⟨step_read_some h4 hp (.inl hb) rfl, ?_⟩
    rw [hwrite, hp]
    rfl
  · rw [hwrite]
    congr 1
    rcases h with hreg | htable
    · obtain ⟨r, hr, ha⟩ := List.mem_map.mp (show a.toNat ∈ readOnlyRegs.map Reg.addr from hreg)
      rw [← ha, placeAt_reg]
      exact s.writeReg_readOnly w hr
    · exact s.writePlace_inTable w htable

/-! ## Host reads -/

/-- Settles O58: the place of the address decides what the read returns. -/
theorem hostReadsHaveNoSideEffects : Obligations.HostReadsHaveNoSideEffects := by
  intro s a h4
  refine ⟨fun r hr h => ?_, fun hb => ⟨fun v w hv hw => ?_, fun v hv hw => ?_⟩⟩
  · have hallowed : s.status.busy = false ∨ busyReadAllowed (.reg r) = true :=
      h.imp_right fun hm => by simpa [busyReadAllowed] using hm
    exact step_read_some h4 (placeAt_eq_reg.mpr hr.symm) hallowed rfl
  · exact step_read_some h4 (placeAt_of_window hv) (.inl hb) hw
  · exact step_read_none h4 (placeAt_of_window hv) hb hw

/-! ## Window writes -/

/-- FREQ, SYM, CB and the buffers are the read-write windows (R101). -/
theorem windowAt_of_readWriteRange {a : Nat} (h : (0x01000 ≤ a ∧ a < 0x01400) ∨ (0x04000 ≤ a ∧ a < 0x05000) ∨
    (0x08000 ≤ a ∧ a < 0x0A000) ∨ (0x20000 ≤ a ∧ a < 0x22000)) : windowAt a = some .readWrite := by
  unfold windowAt
  rcases h with hfreq | hsym | hcb | hbuf
  · rw [if_pos hfreq]
  · rw [if_neg (by omega), if_neg (by omega), if_pos hsym]
  · rw [if_neg (by omega), if_neg (by omega), if_neg (by omega), if_pos hcb]
  · rw [if_neg (by omega), if_neg (by omega), if_neg (by omega), if_neg (by omega), if_neg (by omega), if_pos hbuf]

/-- Below its length, cell 32m + i of a readable buffer is bit 31 - i of its window word m (R103). -/
theorem State.getElem?_buf {s : State} {b : BufId} {v : Bits} {m i : Nat} {w : Word} (hv : s.buf b = .ok v)
    (hw : s.mem.read (bufAddr b m) = some w) (hi : i < 32) (hl : 32 * m + i < s.bufLen b) :
    v[32 * m + i]? = some (w.getLsbD (31 - i)) := by
  obtain ⟨ws, hws, rfl⟩ := map_eq_ok hv
  have hm : m < wordsFor (s.bufLen b) := by
    have := le_wordsFor (s.bufLen b)
    omega
  have hread := ((s.readWords_ok_iff _ _ _).mp hws).2 m hm
  rw [← bufAddr_eq, hw] at hread
  rw [List.getElem?_take_of_lt hl]
  exact getElem?_unpackWords ws m i w hread.symm hi

/-- Settles O59: the step is a one-word MemWrite at the address, and a buffer's cells are the bits of its words. -/
theorem windowWriteSetsCells : Obligations.WindowWriteSetsCells := by
  intro s a w hb h4 hrange
  have hstep : step (s.atTurn (.host (.write .word a w))) = .next (s.writeWords a.toNat [w]) := by
    rw [step_write_place s a w hb h4, placeAt_of_window (windowAt_of_readWriteRange hrange)]
    rfl
  have hsame : (s.writeWords a.toNat [w]).mem.read a.toNat = some w :=
    s.mem.read_writeWords_inside a.toNat 0 [w] Nat.one_pos
  refine ⟨_, hstep, hsame, fun b => s.mem.read_writeWords_outside a.toNat b [w], rfl, fun b m _ ha v i hv hi hl => ?_⟩
  exact State.getElem?_buf hv (ha ▸ hsame) hi hl

end Sys2Proof.Machine
end

section
/-! PROOFS. Decoding and encoding, the step of a pending command, completion, and acceptance: the statements of
30_encoding.md. -/

namespace Sys2Proof.Machine

/-! ## Decoding an encoded command -/

/-- An encoded word decodes to what the opcode map answers for the fields it was made of (R140, R141, R146). -/
theorem decode_encWord {opc n : Nat} {d k : BufId} {i : Instr} (ho : opc < 256) (hn : n < 64)
    (h : decodeOpc opc d k n = some i) : decode (encWord opc d.field k.field n) = .ok i := by
  obtain ⟨hopc, hdst, hsrc, hrsv, himm⟩ := encWord_fields ho d.field_lt k.field_lt hn
  refine (decode_ok_iff _ _).mpr ⟨hrsv, ?_⟩
  rwa [hopc, hdst, hsrc, himm, bufOfField_field, bufOfField_field]

/-- Settles O6: an unused field is encoded as 0, which is the field of b0, so each encoding is the word of an opcode,
two buffers and a width, and `decode_encWord` asks the opcode map for them. -/
theorem decodeOfEncodeIsIdentity : Obligations.DecodeOfEncodeIsIdentity := by
  intro i hwf
  cases i with
  | nop | hbuild => exact decode_encWord (d := .b0) (k := .b0) (by decide) (by decide) rfl
  | bclr d | henc d | fenc d | senc d => exact decode_encWord (d := d) (k := .b0) (by decide) (by decide) rfl
  | hdec k | fdec k | sdec k => exact decode_encWord (d := .b0) (k := k) (by decide) (by decide) rfl
  | bcopy d k | bcat d k | chan d k | renc d k | rdec d k | corr d k =>
    exact decode_encWord (d := d) (k := k) (by decide) (by decide) rfl
  | bput d w => exact decode_encWord (d := d) (k := .b0) (by decide) (of_decide_eq_true hwf) rfl
  | bget k w => exact decode_encWord (d := .b0) (k := k) (by decide) (of_decide_eq_true hwf) rfl

/-- Settles O3: the nine legal words are the canonical encodings of their commands (R149), and the other two have an OPC
outside the map and a nonzero RSV (R147). -/
theorem specWordsDecode : Obligations.SpecWordsDecode :=
  ⟨decodeOfEncodeIsIdentity (.bcopy .b2 .b0) rfl, decodeOfEncodeIsIdentity (.bget .b1 2) rfl,
    decodeOfEncodeIsIdentity .hbuild rfl, decodeOfEncodeIsIdentity (.hdec .b3) rfl,
    decodeOfEncodeIsIdentity (.fenc .b1) rfl, decodeOfEncodeIsIdentity (.sdec .b3) rfl,
    decodeOfEncodeIsIdentity (.chan .b2 .b1) rfl, decodeOfEncodeIsIdentity (.rdec .b3 .b2) rfl,
    decodeOfEncodeIsIdentity (.corr .b3 .b3) rfl, rfl, rfl⟩

/-! ## The fields that decide a decoding -/

/-- The buffer a word's DST names has that DST as its field (R141). -/
theorem dstOf_eq_field (w : Word) : dstOf w = (bufOfField (dstOf w)).field :=
  (field_bufOfField (dstOf_lt w)).symm

/-- The buffer a word's SRC names has that SRC as its field (R141). -/
theorem srcOf_eq_field (w : Word) : srcOf w = (bufOfField (srcOf w)).field :=
  (field_bufOfField (srcOf_lt w)).symm

/-- What the opcode map answers for the fields of a word has the word's OPC, and the fields it uses hold its operands. -/
theorem opcode_fieldsUsed_of_decodeOpc {w : Word} {i : Instr}
    (h : decodeOpc (opcOf w) (bufOfField (dstOf w)) (bufOfField (srcOf w)) (immWidthOf w) = some i) :
    opcOf w = i.opcode ∧ fieldsUsed i w := by
  have hd := dstOf_eq_field w
  have hk := srcOf_eq_field w
  have hc := decodeOpc_cases h
  cases i with
  | nop | hbuild => exact ⟨by simpa [Instr.opcode] using hc, trivial⟩
  | bclr d | henc d | fenc d | senc d =>
    obtain ⟨rfl, ho⟩ : d = bufOfField (dstOf w) ∧ _ := by simpa using hc
    exact ⟨ho, hd⟩
  | hdec k | fdec k | sdec k =>
    obtain ⟨rfl, ho⟩ : k = bufOfField (srcOf w) ∧ _ := by simpa using hc
    exact ⟨ho, hk⟩
  | bcopy d k | bcat d k | chan d k | renc d k | rdec d k | corr d k =>
    obtain ⟨⟨rfl, rfl⟩, ho⟩ : (d = bufOfField (dstOf w) ∧ k = bufOfField (srcOf w)) ∧ _ := by simpa using hc
    exact ⟨ho, hd, hk⟩
  | bput d n =>
    obtain ⟨⟨rfl, rfl⟩, ho⟩ : (d = bufOfField (dstOf w) ∧ n = immWidthOf w) ∧ _ := by simpa using hc
    exact ⟨ho, hd, rfl⟩
  | bget k n =>
    obtain ⟨⟨rfl, rfl⟩, ho⟩ : (k = bufOfField (srcOf w) ∧ n = immWidthOf w) ∧ _ := by simpa using hc
    exact ⟨ho, hk, rfl⟩

/-- At a command's opcode the opcode map answers that command, whatever the fields it does not use hold (R143). -/
theorem decodeOpc_of_fieldsUsed {w : Word} {i : Instr} (h : fieldsUsed i w) :
    decodeOpc i.opcode (bufOfField (dstOf w)) (bufOfField (srcOf w)) (immWidthOf w) = some i := by
  cases i with
  | nop | hbuild => rfl
  | bclr d | henc d | fenc d | senc d =>
    have hd : dstOf w = d.field := h
    simp [Instr.opcode, decodeOpc, hd]
  | hdec k | fdec k | sdec k =>
    have hk : srcOf w = k.field := h
    simp [Instr.opcode, decodeOpc, hk]
  | bcopy d k | bcat d k | chan d k | renc d k | rdec d k | corr d k =>
    obtain ⟨hd, hk⟩ := h
    simp [Instr.opcode, decodeOpc, hd, hk]
  | bput d n | bget k n =>
    obtain ⟨hb, hn⟩ := h
    simp [Instr.opcode, decodeOpc, hb, hn]

/-- Settles O7: the decoder answers a command exactly where RSV is 0 and the opcode map has it, and the map looks at the
OPC and at the fields the command uses. -/
theorem decodeReadsUsedFieldsOnly : Obligations.DecodeReadsUsedFieldsOnly := by
  intro w i
  rw [decode_ok_iff]
  refine and_congr_right fun _ => ⟨opcode_fieldsUsed_of_decodeOpc, fun ⟨ho, hf⟩ => ?_⟩
  rw [ho]
  exact decodeOpc_of_fieldsUsed hf

/-! ## The step of a pending command -/

/-- With no turn left the step is the engine's turn (R151, R434). -/
theorem step_agenda_nil {s : State} (h : s.agenda = []) : step s = s.engineTurn := by
  rw [step, h]

/-- While a command is pending the engine's turn runs the latched word (R151). -/
theorem State.engineTurn_pending {s : State} (h : s.pending = true) : s.engineTurn = s.engineStep := if_pos h

/-- A latched word that decodes runs its command (R151). -/
theorem State.engineStep_decoded {s : State} {i : Instr} (h : decode s.cmd = .ok i) : s.engineStep = exec i s := by
  rw [State.engineStep, h]

/-- A latched word that does not decode completes with ILLEGAL (R147). -/
theorem State.engineStep_illegal {s : State} {e : IllegalWord} (h : decode s.cmd = .error e) :
    s.engineStep = .next s.completeIllegal := by
  rw [State.engineStep, h]

/-- Settles O4: on its turn and with no turn left the engine runs the latched word. -/
theorem pendingStepRunsDecodedCommand : Obligations.PendingStepRunsDecodedCommand := by
  intro s i hp hd
  have hturn : s.engineTurn = exec i s := by rw [State.engineTurn_pending hp, State.engineStep_decoded hd]
  exact ⟨(step_engine s).trans hturn, fun hnil => (step_agenda_nil hnil).trans hturn⟩

/-! ## Completion -/

/-- ERRINFO saturates at 2^32 - 1 (R403). -/
theorem toNat_saturate (n : Nat) : (saturate n).toNat = min n (2 ^ 32 - 1) := by
  unfold saturate
  rw [BitVec.toNat_ofNat]
  omega

/-- A word is its own information (R403). -/
theorem saturate_toNat (w : Word) : saturate w.toNat = w := by
  apply BitVec.eq_of_toNat_eq
  rw [toNat_saturate]
  omega

/-- An error completion, field by field (R151, R400). -/
theorem State.raiseError_eq (s : State) {c : ErrCode} (n : Nat) (hc : c ≠ .ok) :
    s.raiseError c n = { s with
      status := { s.status with
        busy := false, done := true, err := true, errcode := c, lastop := BitVec.ofNat 8 (opcOf s.cmd) }
      pending := false
      errinfo := saturate n } := by
  simp [State.raiseError, Status.completed, State.latchedOpc, hc]

/-- What every completion of the command latched in `s` shows in its next state `t` (R151, R400, R401). -/
def ReportsCompletion (s t : State) : Prop :=
  t.status.busy = false ∧ t.pending = false ∧ t.status.done = true ∧
    t.status.lastop = BitVec.ofNat 8 (opcOf s.cmd) ∧
    (t.status.errcode ≠ .ok → t.status.err = true) ∧
    (t.status.errcode = .ok → t.status.err = s.status.err ∧ t.errinfo = s.errinfo)

/-- A successful completion of a state that differs in neither CMD, ERR nor ERRINFO (R401). -/
theorem reportsCompletion_completeOk {s u : State} (hcmd : u.cmd = s.cmd) (herr : u.status.err = s.status.err)
    (hinfo : u.errinfo = s.errinfo) : ReportsCompletion s u.completeOk :=
  ⟨rfl, rfl, rfl, by simp [State.latchedOpc, hcmd], fun h => absurd rfl h, fun _ => ⟨by simp [herr], hinfo⟩⟩

/-- An error completion of a state that does not differ in CMD (R400). -/
theorem reportsCompletion_raiseError {s u : State} {c : ErrCode} (n : Nat) (hcmd : u.cmd = s.cmd) (hc : c ≠ .ok) :
    ReportsCompletion s (u.raiseError c n) :=
  ⟨rfl, rfl, rfl, by simp [State.latchedOpc, hcmd], fun _ => by simp [hc], fun h => absurd h hc⟩

/-- A command that completes ends in an error completion or a successful one, and its own effects leave CMD, ERR and
ERRINFO alone. -/
theorem reportsCompletion_of_exec {i : Instr} {s t : State} (h : exec i s = .next t) : ReportsCompletion s t := by
  cases ends_of_exec h with
  | raised c n _ _ hok => exact reportsCompletion_raiseError n rfl hok
  | empty => exact reportsCompletion_raiseError 0 rfl nofun
  | buffer | symbols | nop | bget | hbuild => exact reportsCompletion_completeOk rfl rfl rfl

/-- Settles O47: what a command ends in, and `raiseError` field by field. -/
theorem everyCompletionReports : Obligations.EveryCompletionReports :=
  ⟨fun _ _ _ h => reportsCompletion_of_exec h,
    fun s _ n hc => ⟨saturate n, toNat_saturate n, s.raiseError_eq n hc⟩⟩

/-! ## Illegal words -/

/-- The OPC values of the opcode map (R146). -/
def mapOpcodes : List Nat :=
  [0x00, 0x01, 0x02, 0x03, 0x04, 0x05, 0x10, 0x11, 0x12, 0x18, 0x19, 0x20, 0x21, 0x28, 0x30, 0x31, 0x38]

/-- Every command's opcode is in the map (R146). -/
theorem opcode_mem_mapOpcodes (i : Instr) : i.opcode ∈ mapOpcodes := by
  cases i <;> simp [mapOpcodes, Instr.opcode]

/-- A word with a nonzero RSV or an OPC outside the map decodes to no command (R144, R147). -/
theorem decode_error_of_illegal {w : Word} (h : rsvOf w ≠ 0 ∨ opcOf w ∉ mapOpcodes) : ∃ e, decode w = .error e := by
  cases hd : decode w with
  | error e => exact ⟨e, rfl⟩
  | ok i =>
    obtain ⟨hrsv, hopc, -⟩ := (decodeReadsUsedFieldsOnly w i).mp hd
    rcases h with h | h
    · exact absurd hrsv h
    · exact absurd (hopc ▸ opcode_mem_mapOpcodes i) h

/-- Settles O5: the word does not decode, so its turn is the error completion of ILLEGAL, and the word in ERRINFO does
not saturate. -/
theorem illegalWordCompletesWithIllegal : Obligations.IllegalWordCompletesWithIllegal := by
  intro s hp h
  obtain ⟨e, he⟩ := decode_error_of_illegal h
  rw [step_engine, State.engineTurn_pending hp, State.engineStep_illegal he, State.completeIllegal,
    State.raiseError_eq s _ (c := .illegal) nofun, saturate_toNat]

/-! ## Acceptance -/

/-- A CMD write is accepted when idle (R150). -/
theorem State.writeCmd_idle {s : State} (c : Word) (h : s.status.busy = false) : s.writeCmd c = s.accept c := by
  rw [State.writeCmd, h]
  rfl

/-- A CMD write is dropped when busy (R152). -/
theorem State.writeCmd_busy {s : State} (c : Word) (h : s.status.busy = true) :
    s.writeCmd c = { s with status := s.status.dropped } :=
  if_pos h

/-- Settles O50: a CMD write is no hazard, busy or not, so the step is `writeCmd`, which looks at BUSY. -/
theorem cmdWriteIsAcceptedOrDropped : Obligations.CmdWriteIsAcceptedOrDropped := by
  intro s c
  have hstep : step (s.atTurn (.host (.write .word 0x010 c))) = .next (s.writeCmd c) :=
    step_write_reg s 0x010 .cmd c rfl (.inr (.inr (.inl rfl)))
  exact ⟨fun hb => hstep.trans (congrArg _ (State.writeCmd_idle c hb)),
    fun hb => hstep.trans (congrArg _ (State.writeCmd_busy c hb))⟩

end Sys2Proof.Machine
end

section
/-! PROOFS. The bit-vector datapath: NOP, BCLR, BCOPY, BCAT, BPUT and BGET, the statements of 40_bitvector.md. -/

namespace Sys2Proof.Machine

/-! ## NOP -/

/-- A successful completion, field by field: ERR is kept (R151, R401). -/
theorem State.completeOk_eq (s : State) :
    s.completeOk = { s with
      status := { s.status with
        busy := false, done := true, errcode := .ok, lastop := BitVec.ofNat 8 (opcOf s.cmd) }
      pending := false } := by
  simp [State.completeOk, Status.completed, State.latchedOpc]

/-- Settles O9: NOP is the successful completion of the state itself. -/
theorem nopOnlyCompletes : Obligations.NopOnlyCompletes := by
  intro s
  have hexec : exec .nop s = .next s.completeOk := rfl
  rw [hexec, State.completeOk_eq]

/-! ## A completed SetBuf -/

/-- SetBuf followed by a successful completion changes the buffer and what a completion reports, and nothing else
(R104, R151). -/
theorem completeOk_setBuf_effect (s : State) (d : BufId) {v : Bits} (hv : v.length ≤ 16384) :
    CompletesOk s (s.setBuf d v).completeOk ∧ SetsBuffer d v s (s.setBuf d v).completeOk ∧
      KeepsSetup s (s.setBuf d v).completeOk ∧ (s.setBuf d v).completeOk.res = s.res :=
  ⟨completesOk_of rfl rfl rfl rfl rfl rfl rfl, setsBuffer_of hv rfl rfl, ⟨rfl, rfl, rfl⟩, rfl⟩

/-! ## BCLR -/

/-- BCLR always completes with SetBuf of the empty vector (R202). -/
theorem exec_bclr (d : BufId) (s : State) : exec (.bclr d) s = .next (s.setBuf d []).completeOk := rfl

/-- Every window word of an empty buffer is zero fill (R104). -/
theorem wordOfBits_slice_nil (i j : Nat) : wordOfBits (slice [] i j) = 0 := by
  simp [slice, wordOfBits, val]

/-- Settles O10: BCLR is SetBuf of the empty vector, whose window words are all zero fill. -/
theorem bclrClearsTheBuffer : Obligations.BclrClearsTheBuffer := by
  intro s d
  obtain ⟨hok, hbuf, hsetup, hres⟩ := completeOk_setBuf_effect s d (v := []) (Nat.zero_le _)
  refine ⟨_, exec_bclr d s, hok, hbuf, fun m hm => ?_, hsetup, hres⟩
  rw [hbuf.words m hm, wordOfBits_slice_nil]

/-! ## BCOPY -/

/-- BCOPY of a readable source (R203). -/
theorem exec_bcopy {s : State} {k : BufId} {v : Bits} (d : BufId) (h : s.buf k = .ok v) :
    exec (.bcopy d k) s = .next (s.setBuf d v).completeOk := by
  rw [exec, execBcopy, h, map_ok_val, State.settle_ok]

/-- Settles O11: the value was read before SetBuf, so d = k is no special case; a readable buffer fits. -/
theorem bcopyCopiesTheValue : Obligations.BcopyCopiesTheValue := by
  intro s d k v h
  have hfits : v.length ≤ 16384 := State.buf_length h ▸ s.bufLen_le k
  exact ⟨_, exec_bcopy d h, completeOk_setBuf_effect s d hfits⟩

/-! ## BCAT -/

/-- BCAT of readable buffers stores their concatenation, or fails where that does not fit (R200, R204). -/
theorem exec_bcat {s : State} {d k : BufId} {u v : Bits} (hd : s.buf d = .ok u) (hk : s.buf k = .ok v) :
    exec (.bcat d k) s = s.settle (s.storeResult d (u ++ v)) := by
  rw [exec, execBcat, hd, hk, bind_ok_val, bind_ok_val]

/-- Settles O12: both values are read from the old state, so d = k is no special case, and the concatenation is stored
or its length reported. -/
theorem bcatConcatenates : Obligations.BcatConcatenates := by
  intro s d k u v hd hk
  rw [← List.length_append, exec_bcat hd hk]
  constructor
  · intro hfits
    rw [s.storeResult_ok d _ hfits, State.settle_ok]
    exact ⟨_, rfl, completeOk_setBuf_effect s d hfits⟩
  · intro hlong
    rw [s.storeResult_capacity d _ hlong, State.settle_raised]

/-! ## BPUT -/

/-- BPUT of an illegal width names CMD's offset (R142, R205). -/
theorem exec_bput_illegal {w : Nat} (d : BufId) (s : State) (h : widthLegal w = false) :
    exec (.bput d w) s = .next (s.raiseError .param 0x010) := by
  rw [exec, execBput, h]
  rfl

/-- BPUT of a legal width on a readable buffer stores it with the field appended, or fails where that does not fit
(R200, R205). -/
theorem exec_bput_legal {s : State} {d : BufId} {w : Nat} {u : Bits} (h : widthLegal w = true) (hd : s.buf d = .ok u) :
    exec (.bput d w) s = s.settle (s.storeResult d (u ++ bitsOf w s.cfg.pkData.toNat)) := by
  rw [exec, execBput, if_pos h, hd, bind_ok_val]

/-- Settles O13: the appended field is bits_W(PK_DATA), of length W and value PK_DATA mod 2^W. -/
theorem bputAppendsTheField : Obligations.BputAppendsTheField := by
  intro s d w u
  refine ⟨fun hw => exec_bput_illegal d s (widthLegal_false hw), fun h1 h2 hd => ?_⟩
  have hlen : (u ++ bitsOf w s.cfg.pkData.toNat).length = u.length + w := by simp
  rw [exec_bput_legal (widthLegal_of h1 h2) hd, ← hlen]
  constructor
  · intro hfits
    obtain ⟨hok, hbuf, hsetup, hres⟩ := completeOk_setBuf_effect s d hfits
    rw [s.storeResult_ok d _ hfits, State.settle_ok]
    exact ⟨_, _, rfl, hok, hbuf, length_bitsOf w _, val_bitsOf w _, hsetup, hres⟩
  · intro hlong
    rw [s.storeResult_capacity d _ hlong, State.settle_raised]

/-! ## BGET -/

/-- BGET of an illegal width names CMD's offset (R142, R206). -/
theorem exec_bget_illegal {w : Nat} (k : BufId) (s : State) (h : widthLegal w = false) :
    exec (.bget k w) s = .next (s.raiseError .param 0x010) := by
  rw [exec, execBget, h]
  rfl

/-- BGET of a field that passes the length names the offset (R206). -/
theorem exec_bget_range {s : State} {k : BufId} {w : Nat} (h : widthLegal w = true)
    (hr : s.cfg.pkOff.toNat + w > s.bufLen k) :
    exec (.bget k w) s = .next (s.raiseError .range s.cfg.pkOff.toNat) := by
  simp only [exec, execBget, if_pos h, if_pos hr, State.settle_raised]

/-- BGET of a field within a readable buffer (R206). -/
theorem exec_bget_legal {s : State} {k : BufId} {w : Nat} {v : Bits} (h : widthLegal w = true)
    (hr : s.cfg.pkOff.toNat + w ≤ s.bufLen k) (hk : s.buf k = .ok v) :
    exec (.bget k w) s = .next (s.setUnpacked (val (slice v s.cfg.pkOff.toNat (s.cfg.pkOff.toNat + w)))
      (s.cfg.pkOff.toNat + w)).completeOk := by
  simp only [exec, execBget, if_pos h, if_neg (Nat.not_lt.mpr hr), hk, map_ok_val, State.settle_ok]

/-- PK_DATA holds every field of at most 32 bits (R206). -/
theorem toNat_pkData_field (v : Bits) (off : Nat) {w : Nat} (hw : w ≤ 32) :
    (BitVec.ofNat 32 (val (slice v off (off + w)))).toNat = val (slice v off (off + w)) := by
  have hfield : val (slice v off (off + w)) < 2 ^ w := by simpa using val_slice_lt v off (off + w)
  rw [BitVec.toNat_ofNat,
    Nat.mod_eq_of_lt (Nat.lt_of_lt_of_le hfield (Nat.pow_le_pow_right (by decide) hw))]

/-- PK_OFF holds every offset within a buffer (R206). -/
theorem toNat_pkOff_offset {s : State} {k : BufId} {off : Nat} (h : off ≤ s.bufLen k) :
    (BitVec.ofNat 15 off).toNat = off := by
  have hcap := s.bufLen_le k
  rw [BitVec.toNat_ofNat, Nat.mod_eq_of_lt (by omega)]

/-- Settles O14: the width is checked, then the range, and the value and the new offset fit PK_DATA and PK_OFF. -/
theorem bgetExtractsTheField : Obligations.BgetExtractsTheField := by
  intro s k w v
  refine ⟨fun hw => exec_bget_illegal k s (widthLegal_false hw),
    fun h1 h2 hr => exec_bget_range (widthLegal_of h1 h2) hr, fun h1 h2 hr hk => ?_⟩
  exact ⟨_, exec_bget_legal (widthLegal_of h1 h2) hr hk, completesOk_of rfl rfl rfl rfl rfl rfl rfl,
    toNat_pkData_field v _ h2, toNat_pkOff_offset hr, rfl, rfl, rfl, rfl, rfl, rfl⟩

end Sys2Proof.Machine
end

section
/-! PROOFS. What a step can do, once for all turns, and what follows for the code table and the invariant: R236 of
41_huffman.md over all steps. -/

namespace Sys2Proof.Machine

/-! ## The step, inverted -/

/-- The state with the turn the step takes off the agenda. -/
def State.consumed (s : State) : State := { s with agenda := s.agenda.tail }

/-- With no turn left there is none to take off. -/
theorem State.consumed_of_nil {s : State} (h : s.agenda = []) : s.consumed = s := by
  cases s
  cases h
  rfl

/-- The turn taken off is the agenda's head. -/
theorem State.consumed_of_cons {s : State} {x : Turn} {rest : List Turn} (h : s.agenda = x :: rest) :
    s.consumed = { s with agenda := rest } := by
  rw [State.consumed, h]
  rfl

/-- It is the engine's move: its turn comes next, or no turn is left (R151, R434). -/
def State.engineMoves (s : State) : Prop := s.agenda = [] ∨ s.agenda.head? = some .engine

/-- Everything a step can answer next: a completed command, the completion of an illegal word, an engine with nothing
to run, a host read, an aligned host write, the RST input. -/
inductive StepEnds (s : State) : State → Prop where
  | command (i : Instr) (t : State) (turn : s.engineMoves) (pending : s.pending = true) (decoded : decode s.cmd = .ok i)
      (run : exec i s.consumed = .next t) : StepEnds s t
  | illegal (turn : s.engineMoves) (pending : s.pending = true) (e : IllegalWord) (undecoded : decode s.cmd = .error e) :
      StepEnds s s.consumed.completeIllegal
  | idle (turn : s.engineMoves) (notPending : s.pending = false) : StepEnds s s.consumed
  | hostRead (z : AccessSize) (a : BusAddr) (turn : s.agenda.head? = some (.host (.read z a))) (data : Word) :
      StepEnds s { s.consumed with rdata := data }
  | hostWrite (a : BusAddr) (w : Word) (turn : s.agenda.head? = some (.host (.write .word a w)))
      (aligned : a.toNat % 4 = 0) : StepEnds s (s.consumed.writePlace a.toNat (placeAt a.toNat) w)
  | powerOn (turn : s.agenda.head? = some .powerOn) : StepEnds s s.consumed.powerOn

/-- The engine's turn runs the pending command, if there is one (R151). -/
theorem stepEnds_of_engineTurn {s t : State} (turn : s.engineMoves) (h : s.consumed.engineTurn = .next t) :
    StepEnds s t := by
  cases hp : s.pending with
  | false =>
    obtain rfl : s.consumed = t := by simpa [State.engineTurn, State.consumed, hp] using h
    exact .idle turn hp
  | true =>
    rw [State.engineTurn_pending (s := s.consumed) hp] at h
    cases hd : decode s.cmd with
    | ok i => exact .command i t turn hp hd (State.engineStep_decoded (s := s.consumed) hd ▸ h)
    | error e =>
      rw [State.engineStep_illegal (s := s.consumed) hd] at h
      cases h
      exact .illegal turn hp e hd

/-- A host read that answers changes only the data returned (R107). -/
theorem State.hostRead_next {s t : State} {a : Nat} (h : s.hostRead a = .next t) :
    ∃ data, t = { s with rdata := data } := by
  dsimp only [State.hostRead] at h
  split at h
  · cases h
  · split at h
    · cases h; exact ⟨_, rfl⟩
    · cases h

/-- A host write that answers is the write of the place (R107). -/
theorem State.hostWrite_next {s t : State} {a : Nat} {w : Word} (h : s.hostWrite a w = .next t) :
    t = s.writePlace a (placeAt a) w := by
  dsimp only [State.hostWrite] at h
  split at h
  · cases h
  · cases h; rfl

/-- A host access that answers is an aligned word access (R106). -/
theorem stepEnds_of_hostTurn {s t : State} {x : Access} (turn : s.agenda.head? = some (.host x))
    (h : s.consumed.hostTurn x = .next t) : StepEnds s t := by
  cases x with
  | read z a =>
    simp only [State.hostTurn] at h
    split at h
    · obtain ⟨data, rfl⟩ := State.hostRead_next h
      exact .hostRead z a turn data
    · cases h
  | write z a w =>
    simp only [State.hostTurn] at h
    split at h
    · next hsup =>
      obtain ⟨rfl, h4⟩ : z = .word ∧ a.toNat % 4 = 0 := of_decide_eq_true hsup
      rw [State.hostWrite_next h]
      exact .hostWrite a w turn h4
    · cases h

/-- A step ends in one of the ways of `StepEnds`. -/
theorem stepEnds_of_step {s t : State} (h : step s = .next t) : StepEnds s t := by
  unfold step at h
  split at h
  · next hnil => exact stepEnds_of_engineTurn (.inl hnil) ((State.consumed_of_nil hnil).symm ▸ h)
  · next rest hcons =>
    rw [← State.consumed_of_cons hcons] at h
    exact stepEnds_of_engineTurn (.inr (by rw [hcons]; rfl)) h
  · next x rest hcons =>
    rw [← State.consumed_of_cons hcons] at h
    exact stepEnds_of_hostTurn (by rw [hcons]; rfl) h
  · next rest hcons =>
    rw [← State.consumed_of_cons hcons] at h
    cases h
    exact .powerOn (by rw [hcons]; rfl)

/-! ## Host writes and the code table -/

/-- No register write reaches a memory (R107). -/
theorem State.writeReg_mem (s : State) (r : Reg) (w : Word) : (s.writeReg r w).mem = s.mem := by
  cases r with
  | ctrl => simp only [State.writeReg, State.writeCtrl]; split <;> rfl
  | cmd => simp only [State.writeReg, State.writeCmd]; split <;> rfl
  | _ => rfl

/-- A register write keeps TBLV, but for a soft reset (R236, R451). -/
theorem State.writeReg_tblv (s : State) (r : Reg) (w : Word) (h : r = .ctrl → w.getLsbD 1 = false) :
    (s.writeReg r w).status.tblv = s.status.tblv := by
  cases r with
  | ctrl => rw [State.writeReg, State.writeCtrl, h rfl]; rfl
  | cmd => simp only [State.writeReg, State.writeCmd]; split <;> rfl
  | _ => rfl

/-- A write of one word of a read-write window leaves CODE and TRIE alone (R101). -/
theorem State.read_hostWord_table (s : State) {a b : Nat} (w : Word) (h4 : a % 4 = 0)
    (ha : windowAt a = some .readWrite) (hb : inTable b) : (s.writeWords a [w]).mem.read b = s.mem.read b := by
  have hna := windowAt_readWrite ha
  refine Memory.read_writeWords_outside _ _ _ _ ?_
  unfold inTable at hb
  simp only [List.length_singleton]
  omega

/-- A host write leaves CODE and TRIE alone (R236). -/
theorem State.read_writePlace_table (s : State) {a b : Nat} (w : Word) (h4 : a % 4 = 0) (hb : inTable b) :
    (s.writePlace a (placeAt a) w).mem.read b = s.mem.read b := by
  rcases placeAt_cases a with ⟨r, hp, -⟩ | ⟨v, hp, hv⟩ | ⟨hp, -⟩
  · rw [hp]; exact congrArg (Memory.read · b) (s.writeReg_mem r w)
  · cases v with
    | readWrite => rw [hp]; exact s.read_hostWord_table w h4 hv hb
    | readOnly => rw [hp]; rfl
  · rw [hp]; rfl

/-- A host write keeps TBLV, but for a soft reset (R236, R451). -/
theorem State.writePlace_tblv (s : State) (a : Nat) (w : Word) (h : a = 0x008 → w.getLsbD 1 = false) :
    (s.writePlace a (placeAt a) w).status.tblv = s.status.tblv := by
  rcases placeAt_cases a with ⟨r, hp, hr⟩ | ⟨v, hp, -⟩ | ⟨hp, -⟩
  · rw [hp]; exact s.writeReg_tblv r w (fun hctrl => h (by rw [← hr, hctrl]; rfl))
  · rw [hp]; cases v <;> rfl
  · rw [hp]; rfl

/-- A CTRL write with SRST = 1 clears TBLV (R451). -/
theorem State.writePlace_softReset_tblv (s : State) {w : Word} (h : w.getLsbD 1 = true) :
    (s.writePlace 0x008 (placeAt 0x008) w).status.tblv = false := by
  show (s.writeCtrl w).status.tblv = false
  rw [State.writeCtrl, if_pos h]
  rfl

/-- Settles O49: of the ways a step can end, only a completed HBUILD and the RST input touch CODE and TRIE, and only a
soft reset besides touches TBLV. -/
theorem onlyHbuildChangesTheTable : Obligations.OnlyHbuildChangesTheTable := by
  intro s t h hrst hhb
  have noHost : s.engineMoves → ∀ w, s.agenda.head? ≠ some (.host (.write .word 0x008 w)) := by
    rintro (hturn | hturn) w <;> rw [hturn] <;> simp
  cases stepEnds_of_step h with
  | command i _ turn pending decoded run =>
    have hi : i ≠ .hbuild := by rintro rfl; exact hhb ⟨turn, pending, decoded⟩
    obtain ⟨htable, htblv⟩ := read_table_of_ends (ends_of_exec run) hi
    exact ⟨htable, fun _ => htblv, fun w hw => absurd hw (noHost turn w)⟩
  | illegal turn | idle turn => exact ⟨fun _ _ => rfl, fun _ => rfl, fun w hw => absurd hw (noHost turn w)⟩
  | hostRead z a turn => exact ⟨fun _ _ => rfl, fun _ => rfl, fun w hw => by rw [turn] at hw; cases hw⟩
  | hostWrite a w turn aligned =>
    refine ⟨fun b hb => s.consumed.read_writePlace_table w aligned hb, fun hctrl => ?_, fun w' hw' hsrst => ?_⟩
    · refine s.consumed.writePlace_tblv a.toNat w fun ha => hctrl w ?_
      rw [turn, show a = 0x008 from BitVec.eq_of_toNat_eq ha]
    · rw [turn] at hw'
      cases hw'
      exact s.consumed.writePlace_softReset_tblv hsrst
  | powerOn turn => exact absurd turn hrst

/-! ## The invariant -/

/-- The invariant speaks of STATUS, the pending condition and the memory only. -/
theorem State.Inv.congr {s t : State} (h : s.Inv) (hstatus : t.status = s.status) (hpending : t.pending = s.pending)
    (hmem : t.mem = s.mem) : t.Inv where
  memWf := hmem ▸ h.memWf
  busyPending := by rw [hstatus, hpending, h.busyPending]
  busyNotDone := hstatus ▸ h.busyNotDone
  table := by rw [hstatus, hmem]; exact h.table

/-- A completion is idle, so it meets the invariant when its memory is canonical and its table valid. -/
theorem State.Inv.of_idle {t : State} (hwf : t.mem.wf) (hbusy : t.status.busy = false) (hpending : t.pending = false)
    (htable : t.status.tblv = true → ∃ freqs, HoldsTable t.mem freqs) : t.Inv :=
  ⟨hwf, hbusy.trans hpending.symm, fun h => absurd (hbusy.symm.trans h) nofun, htable⟩

/-- A valid table stays valid in a state that has the same TBLV, CODE and TRIE. -/
theorem State.Inv.table_congr {s t : State} (h : s.Inv) (htblv : t.status.tblv = s.status.tblv)
    (hread : ∀ a, inTable a → t.mem.read a = s.mem.read a) (ht : t.status.tblv = true) :
    ∃ freqs, HoldsTable t.mem freqs :=
  (h.table (htblv.symm.trans ht)).imp fun _ hfreqs => hfreqs.congr hread

/-- Every command keeps the memory in canonical form (R60, R101). -/
theorem wf_of_ends {i : Instr} {s t : State} (h : Ends i s (.next t)) (hwf : s.mem.wf) : t.mem.wf := by
  cases h with
  | raised | empty | nop | bget => exact hwf
  | buffer d _ v => exact State.wf_setBuf hwf d v
  | symbols k _ ws hw => exact State.wf_writeSym hwf _ ws hw
  | hbuild _ ws _ tree => exact Memory.wf_writeTable hwf tree

/-- After a command that completed, a set TBLV means a valid table: HBUILD has just written one or cleared TBLV, and
every other command kept the table (R236). -/
theorem table_of_ends {i : Instr} {s t : State} (h : Ends i s (.next t)) (hinv : s.Inv) (ht : t.status.tblv = true) :
    ∃ freqs, HoldsTable t.mem freqs := by
  by_cases hi : i = .hbuild
  · cases h with
    | empty => cases ht
    | hbuild _ ws hw tree htree => exact ⟨ws, holdsTable_writeTable s.mem (State.freqWords_length hw) htree⟩
    | raised _ _ _ hne => exact absurd hi hne
    | buffer d hd => subst hi; cases hd
    | symbols k hk => subst hi; simp at hk
    | nop he | bget _ _ he => subst hi; cases he
  · obtain ⟨hread, htblv⟩ := read_table_of_ends h hi
    exact hinv.table_congr htblv hread ht

/-- Every completed command meets the invariant. -/
theorem State.Inv.of_exec {i : Instr} {s t : State} (h : s.Inv) (hexec : exec i s = .next t) : t.Inv := by
  have hends := ends_of_exec hexec
  obtain ⟨hbusy, hpending, -⟩ := reportsCompletion_of_exec hexec
  exact .of_idle (wf_of_ends hends h.memWf) hbusy hpending (table_of_ends hends h)

/-- A register write keeps the invariant: only CTRL, STATUS and CMD reach the fields it speaks of. -/
theorem State.Inv.writeReg {s : State} (h : s.Inv) (r : Reg) (w : Word) : (s.writeReg r w).Inv := by
  cases r with
  | ctrl =>
    simp only [State.writeReg, State.writeCtrl]
    split
    · exact .of_idle h.memWf rfl rfl nofun
    · exact h.congr rfl rfl rfl
  | status => exact ⟨h.memWf, h.busyPending, fun hb => by simp [State.writeReg, h.busyNotDone hb], h.table⟩
  | cmd =>
    simp only [State.writeReg, State.writeCmd]
    split
    · exact ⟨h.memWf, h.busyPending, h.busyNotDone, h.table⟩
    · exact ⟨h.memWf, rfl, fun _ => rfl, h.table⟩
  | _ => exact h.congr rfl rfl rfl

/-- A host write keeps the invariant. -/
theorem State.Inv.writePlace {s : State} (h : s.Inv) {a : Nat} (h4 : a % 4 = 0) (w : Word) :
    (s.writePlace a (placeAt a) w).Inv := by
  rcases placeAt_cases a with ⟨r, hp, -⟩ | ⟨v, hp, hv⟩ | ⟨hp, -⟩
  · rw [hp]; exact h.writeReg r w
  · rw [hp]
    cases v with
    | readWrite =>
      exact ⟨State.wf_hostWord h.memWf h4 hv w, h.busyPending, h.busyNotDone,
        h.table_congr rfl fun _ hb => s.read_hostWord_table w h4 hv hb⟩
    | readOnly => exact h
  · rw [hp]; exact h

/-- Settles O8: each way a step can end keeps the invariant. -/
theorem stepKeepsInvariant : Obligations.StepKeepsInvariant := by
  intro s t h hstep
  have hc : s.consumed.Inv := h.congr rfl rfl rfl
  cases stepEnds_of_step hstep with
  | command i _ _ _ _ run => exact hc.of_exec run
  | illegal => exact .of_idle hc.memWf rfl rfl hc.table
  | idle => exact hc
  | hostRead => exact hc.congr rfl rfl rfl
  | hostWrite a w _ aligned => exact hc.writePlace aligned w
  | powerOn => exact .of_idle resetMeetsInvariant.memWf rfl rfl nofun

end Sys2Proof.Machine
end

section
/-! PROOFS. HBUILD: the table it writes, the symbols it codes, and what its outcome depends on (R230 to R238). -/

namespace Sys2Proof.Machine

/-! ## What HBUILD does -/

/-- There is no leaf exactly where there is no present symbol (R231). -/
theorem leavesFrom_eq_nil_iff {ws : List Word} (hl : ws.length = 256) :
    leavesFrom 0 ws = [] ↔ presentSymbols ws = [] := by
  rw [leaves_eq hl, List.map_eq_nil_iff]

/-- With a symbol present there is a tree (R232, R233). -/
theorem exists_buildTree {ws : List Word} (hl : ws.length = 256) (h : presentSymbols ws ≠ []) :
    ∃ tree, buildTree (leavesFrom 0 ws) = some tree :=
  Option.ne_none_iff_exists'.mp fun hnone => h ((leavesFrom_eq_nil_iff hl).mp ((buildTree_none_iff _).mp hnone))

/-- HBUILD with a tree writes it (R235). -/
theorem exec_hbuild_tree {s : State} {ws : List Word} {tree : HuffTree} (hw : s.freqWords = .ok ws)
    (ht : buildTree (leavesFrom 0 ws) = some tree) :
    exec .hbuild s = .next (s.setTable (leavesFrom 0 ws).length tree).completeOk := by
  simp only [exec, execHbuild, hw, ht, State.settle_ok]

/-- HBUILD without a leaf raises EMPTY_FREQ and clears TBLV (R235). -/
theorem exec_hbuild_empty {s : State} {ws : List Word} (hw : s.freqWords = .ok ws) (h : leavesFrom 0 ws = []) :
    exec .hbuild s = .next (s.clearTblv.raiseError .emptyFreq 0) := by
  simp only [exec, execHbuild, hw, (buildTree_none_iff _).mpr h, State.settle_raised]

/-- An HBUILD that completed read its FREQ words, and ended in one of these two ways. -/
theorem hbuild_next {s t : State} (h : exec .hbuild s = .next t) : ∃ ws, s.freqWords = .ok ws ∧
    (leavesFrom 0 ws = [] ∧ t = s.clearTblv.raiseError .emptyFreq 0 ∨
      ∃ tree, buildTree (leavesFrom 0 ws) = some tree ∧
        t = (s.setTable (leavesFrom 0 ws).length tree).completeOk) := by
  rw [exec] at h
  rcases execHbuild_cases s with hstop | ⟨ws, hw, hnil, hend⟩ | ⟨ws, tree, hw, ht, hend⟩
  · exact absurd (h ▸ hstop) StopsUnread.not_next
  · rw [hend] at h; cases h; exact ⟨ws, hw, .inl ⟨hnil, rfl⟩⟩
  · rw [hend] at h; cases h; exact ⟨ws, hw, .inr ⟨tree, ht, rfl⟩⟩

/-! ## The table in memory -/

/-- A CODE entry HBUILD wrote: CODE_LEN, and CODE_BITS as the codeword padded with zeros (R55, R235). -/
theorem codeEntry_of_writeTable {t : State} {m : Memory} {tree : HuffTree} {k : Nat} (hm : t.mem = m.writeTable tree)
    (hk : k < 256) (hc : (tree.codeword k).length ≤ 255) :
    t.mem.read (codeAddr k) = some (BitVec.ofNat 32 (tree.codeword k).length) ∧
      ∃ bits, t.readWords (codeAddr k + 4) 8 = .ok bits ∧
        unpackWords bits = tree.codeword k ++ zeros (256 - (tree.codeword k).length) := by
  refine ⟨hm ▸ Memory.read_writeTable_code m tree k 0 hk (by omega), packWords 8 (tree.codeword k), ?_,
    unpackWords_packWords 8 _ (by omega)⟩
  refine (t.readWords_ok_iff _ _ _).mpr ⟨length_packWords 8 _, fun j hj => ?_⟩
  rw [hm, show codeAddr k + 4 + 4 * j = codeAddr k + 4 * (j + 1) by omega]
  exact Memory.read_writeTable_code m tree k (j + 1) hk (by omega)

/-- A number below 2^n is stored in n bits as it is. -/
theorem toNat_ofNat_of_lt {n x : Nat} (h : x < 2 ^ n) : (BitVec.ofNat n x).toNat = x := by
  rw [BitVec.toNat_ofNat, Nat.mod_eq_of_lt h]

/-- Settles O15: the tree of the FREQ words is the one of the merging rule, its bounds make the HB_ registers hold its
numbers, and HBUILD's write reads as the table. -/
theorem hbuildWritesTheTable : Obligations.HbuildWritesTheTable := by
  intro s ws hw hpresent
  have hl : ws.length = 256 := State.freqWords_length hw
  obtain ⟨tree, htree⟩ := exists_buildTree hl hpresent
  have hcount : (leavesFrom 0 ws).length = (presentSymbols ws).length := by rw [leaves_eq hl, List.length_map]
  have hle := leaves_le hw
  obtain ⟨hsize, hpaths⟩ := buildTree_bounds htree hle
  have hmaxLen : tree.maxLen ≤ 255 := HuffTree.maxLen_le fun c hc => (hpaths c hc).2
  exact ⟨tree, _, buildTree_treeOfFreqs hl htree, htree, exec_hbuild_tree hw htree,
    completesOk_of rfl rfl rfl rfl rfl rfl rfl, rfl,
    fun k hk => codeEntry_of_writeTable (m := s.mem) rfl hk (codeword_len hle htree k),
    fun i hi => Memory.read_writeTable_trie s.mem tree i hi,
    hcount ▸ toNat_ofNat_of_lt (by omega), toNat_ofNat_of_lt (by omega), toNat_ofNat_of_lt (by omega), rfl,
    Memory.read_writeTable_outside s.mem tree, rfl, rfl, rfl⟩

/-! ## No symbol present -/

/-- Zero words give no leaf (R231). -/
theorem leavesFrom_replicate_zero (k n : Nat) : leavesFrom k (List.replicate n 0) = [] := by
  induction n generalizing k with
  | zero => rfl
  | succ n ih => rw [List.replicate_succ, leavesFrom, if_pos (show BitVec.toNat 0 = 0 from rfl), ih]

/-- Settles O16: 256 zero words give no leaf. -/
theorem hbuildOfNoSymbolsIsEmptyFreq : Obligations.HbuildOfNoSymbolsIsEmptyFreq := by
  intro s h
  have hw : s.freqWords = .ok (List.replicate 256 0) :=
    (s.readWords_ok_iff _ _ _).mpr ⟨List.length_replicate, fun k hk => by
      rw [List.getElem?_replicate_of_lt hk]; exact h k hk⟩
  exact exec_hbuild_empty hw (leavesFrom_replicate_zero 0 256)

/-! ## The symbols coded -/

/-- A symbol has a codeword exactly when it is present (R231, R235). -/
theorem codeword_ne_nil_iff {ws : List Word} {tree : HuffTree} (hl : ws.length = 256)
    (htree : buildTree (leavesFrom 0 ws) = some tree) {k : Nat} (hk : k < 256) :
    tree.codeword k ≠ [] ↔ ws.getD k 0 ≠ 0 := by
  have hle : (leavesFrom 0 ws).length ≤ 256 := hl ▸ leavesFrom_length_le 0 ws
  have hmem : (∃ f, (k, f) ∈ leavesFrom 0 ws) ↔ k ∈ presentSymbols ws := by rw [leaves_eq hl]; simp
  rw [codeword_nonempty hle htree, hmem, mem_presentSymbols]
  exact and_iff_right hk

/-- After HBUILD wrote a tree, CODE holds the tree's codewords. -/
theorem codewordIs_setTable {s : State} {ws : List Word} {tree : HuffTree} {n k : Nat} {u : Bits}
    (hle : (leavesFrom 0 ws).length ≤ 256) (htree : buildTree (leavesFrom 0 ws) = some tree) (hk : k < 256) :
    codewordIs (s.setTable n tree).completeOk k u ↔ u = tree.codeword k :=
  codeword_table (m := s.mem) (fun _ _ _ => rfl) hk (codeword_len hle htree k)

/-- The tree of one present symbol (R233). -/
theorem buildTree_of_one_present {ws : List Word} (hl : ws.length = 256) {x : Nat} (hx : x < 256)
    (h : ∀ k, k < 256 → (ws.getD k 0 ≠ 0 ↔ k = x)) : buildTree (leavesFrom 0 ws) = some (.single (.leaf x)) := by
  have hp : presentSymbols ws = [x] := presentSymbols_eq (List.pairwise_singleton _ _) fun k => by
    rw [List.mem_singleton]
    exact ⟨fun hk => ⟨hk ▸ hx, (h k (hk ▸ hx)).mpr hk⟩, fun ⟨hk, hne⟩ => (h k hk).mp hne⟩
  rw [leaves_eq hl, hp]
  rfl

/-- Two present symbols, in ascending order. -/
theorem presentSymbols_eq_pair {ws : List Word} {x y : Nat} (hlt : x < y) (hy : y < 256)
    (h : ∀ k, k < 256 → (ws.getD k 0 ≠ 0 ↔ k = x ∨ k = y)) : presentSymbols ws = [x, y] :=
  presentSymbols_eq (List.pairwise_pair.mpr hlt) fun k => by
    rw [List.mem_pair]
    refine ⟨fun hk => ?_, fun ⟨hk, hne⟩ => (h k hk).mp hne⟩
    have hk' : k < 256 := by omega
    exact ⟨hk', (h k hk').mpr hk⟩

/-- The tree of two present symbols: the least in (frequency, symbol) order is the 0 branch (R231, R232). -/
theorem buildTree_of_two_present {ws : List Word} (hl : ws.length = 256) {x y : Nat} (hx : x < 256) (hy : y < 256)
    (hne : x ≠ y) (h : ∀ k, k < 256 → (ws.getD k 0 ≠ 0 ↔ k = x ∨ k = y))
    (hfirst : (ws.getD x 0).toNat < (ws.getD y 0).toNat ∨ (ws.getD x 0 = ws.getD y 0 ∧ x < y)) :
    buildTree (leavesFrom 0 ws) = some (.node (.leaf x) (.leaf y)) := by
  rw [leaves_eq hl]
  rcases Nat.lt_or_gt_of_ne hne with hlt | hgt
  · have hle : (ws.getD x 0).toNat ≤ (ws.getD y 0).toNat := by
      rcases hfirst with hf | ⟨hf, -⟩
      · exact Nat.le_of_lt hf
      · exact Nat.le_of_eq (congrArg BitVec.toNat hf)
    rw [presentSymbols_eq_pair hlt hy h, List.map_cons, List.map_cons, List.map_nil, buildTree_two, if_pos hle]
  · have hlt : ¬ (ws.getD y 0).toNat ≤ (ws.getD x 0).toNat := by
      rcases hfirst with hf | ⟨-, hf⟩
      · exact Nat.not_le.mpr hf
      · exact absurd hf (Nat.lt_asymm hgt)
    rw [presentSymbols_eq_pair hgt hx fun k hk => (h k hk).trans or_comm, List.map_cons, List.map_cons, List.map_nil,
      buildTree_two, if_neg hlt]

/-- Settles O17: a codeword is nonempty exactly for a present symbol, and the trees of one and of two symbols give the
codewords named. -/
theorem hbuildCodesExactlyThePresentSymbols : Obligations.HbuildCodesExactlyThePresentSymbols := by
  intro s ws hw hpresent
  have hl : ws.length = 256 := State.freqWords_length hw
  have hle := leaves_le hw
  obtain ⟨tree, htree⟩ := exists_buildTree hl (presentSymbols_ne_nil.mpr hpresent)
  refine ⟨_, exec_hbuild_tree hw htree, rfl, fun k hk => ?_, fun x hx honly => ?_,
    fun x y hx hy hne honly hfirst => ?_⟩
  · have hlen := codeword_len hle htree k
    refine ⟨_, (codeLen_table (m := s.mem) rfl hk hlen).mpr rfl, hlen, ?_⟩
    rw [List.length_pos_iff, codeword_ne_nil_iff hl htree hk]
  · obtain rfl := Option.some.inj (htree.symm.trans (buildTree_of_one_present hl hx honly))
    rw [codewordIs_setTable hle htree hx]
    simp [HuffTree.codeword, HuffTree.codes]
  · obtain rfl := Option.some.inj (htree.symm.trans (buildTree_of_two_present hl hx hy hne honly hfirst))
    rw [codewordIs_setTable hle htree hx, codewordIs_setTable hle htree hy]
    simp [HuffTree.codeword, HuffTree.codes, List.lookup_cons, beq_eq_false_iff_ne.mpr hne.symm]

/-! ## What the table and the outcome have to meet -/

/-- Settles O18: the codewords are paths of one tree, and of two paths one begins the other only at the same leaf. -/
theorem builtCodeIsFreeOfPrefixes : Obligations.BuiltCodeIsFreeOfPrefixes := by
  intro s t hexec hok x y u v hx hy hne hu hv hune hvne hbegins
  obtain ⟨ws, hw, ⟨-, rfl⟩ | ⟨tree, htree, rfl⟩⟩ := hbuild_next hexec
  · cases hok
  · have hle := leaves_le hw
    obtain rfl := (codewordIs_setTable hle htree hx).mp hu
    obtain rfl := (codewordIs_setTable hle htree hy).mp hv
    exact hne (HuffTree.codes_prefix (HuffTree.codeword_mem hune) (HuffTree.codeword_mem hvne) hbegins).1

/-- Settles O19: equal FREQ words give equal leaves, so the two HBUILDs end in the same way with the same tree. -/
theorem hbuildIsAFunctionOfFreq : Obligations.HbuildIsAFunctionOfFreq := by
  intro s s' t t' hfreq hexec hexec'
  obtain ⟨ws, hw, hend⟩ := hbuild_next hexec
  have hw' : s'.freqWords = .ok ws :=
    (State.readWords_congr s s' _ _ fun k hk => (hfreq k hk).symm).trans hw
  rcases hend with ⟨hnil, rfl⟩ | ⟨tree, htree, rfl⟩
  · cases (exec_hbuild_empty hw' hnil).symm.trans hexec'
    exact ⟨rfl, rfl, nofun⟩
  · cases (exec_hbuild_tree hw' htree).symm.trans hexec'
    exact ⟨rfl, rfl, fun _ => ⟨Memory.read_writeTable_table s.mem s'.mem tree, rfl, rfl, rfl⟩⟩

end Sys2Proof.Machine
end

section
/-! PROOFS. HENC and HDEC: their errors, the encoding, the walk, and the round trip (R240 to R247). -/

namespace Sys2Proof.Machine

/-! ## HENC -/

/-- HENC of an illegal FBW names its offset (R240). -/
theorem exec_henc_illegal {s : State} (d : BufId) (h : widthLegal s.cfg.fbw.toNat = false) :
    exec (.henc d) s = .next (s.raiseError .param 0x044) := by
  rw [exec, execHenc, h]
  rfl

/-- HENC without a table (R236, R240). -/
theorem exec_henc_noTable {s : State} (d : BufId) (hfbw : widthLegal s.cfg.fbw.toNat = true)
    (ht : s.status.tblv = false) : exec (.henc d) s = .next (s.raiseError .noTable 0) := by
  rw [exec, execHenc, if_pos hfbw, ht]
  rfl

/-- HENC of an input range past SYM_DEPTH (R51, R240). -/
theorem exec_henc_range {s : State} (d : BufId) (hfbw : widthLegal s.cfg.fbw.toNat = true)
    (ht : s.status.tblv = true) (hr : s.inputRangeLegal 1 = false) :
    exec (.henc d) s = .next (s.raiseError .range 0x070) := by
  rw [exec, execHenc, if_pos hfbw, if_pos ht, hr]
  rfl

/-- HENC of a readable input stores its encoding, or fails where that does not fit (R200, R240). -/
theorem exec_henc_legal {s : State} (d : BufId) {xs : List Word} {us : List Bits}
    (hfbw : widthLegal s.cfg.fbw.toNat = true) (ht : s.status.tblv = true) (hin : InputIs s xs)
    (hus : List.Forall₂ (symbolBitsAre s) xs us) :
    exec (.henc d) s = s.settle (s.storeResult d us.flatten) := by
  obtain ⟨hwords, hrange⟩ := inputWords_of hin
  rw [exec, execHenc, if_pos hfbw, if_pos ht, if_pos hrange, hwords, bind_ok_val, encodeSymbols_of hus, bind_ok_val]

/-- Settles O20: the encoding is the concatenation of the symbols' bits, and is stored or its length reported. -/
theorem hencConcatenatesCodewords : Obligations.HencConcatenatesCodewords := by
  intro s d xs us h1 h2 ht hin hus
  rw [exec_henc_legal d (widthLegal_of h1 h2) ht hin hus]
  constructor
  · intro hfits
    rw [s.storeResult_ok d _ hfits, State.settle_ok]
    exact ⟨_, rfl, completeOk_setBuf_effect s d hfits⟩
  · intro hlong
    rw [s.storeResult_capacity d _ hlong, State.settle_raised]

/-! ## HDEC -/

/-- HDEC without a table (R236, R245). -/
theorem exec_hdec_noTable {s : State} (k : BufId) (ht : s.status.tblv = false) :
    exec (.hdec k) s = .next (s.raiseError .noTable 0) := by
  rw [exec, execHdec, ht]
  rfl

/-- Settles O21: HENC checks FBW, then TBLV, then the input range, and HDEC checks TBLV. -/
theorem huffmanCodecErrorsInOrder : Obligations.HuffmanCodecErrorsInOrder := by
  intro s d k
  refine ⟨fun hfbw => exec_henc_illegal d (widthLegal_false hfbw),
    fun h1 h2 ht => exec_henc_noTable d (widthLegal_of h1 h2) ht,
    fun h1 h2 ht hr => exec_henc_range d (widthLegal_of h1 h2) ht ?_, exec_hdec_noTable k⟩
  exact decide_eq_false (by rw [Nat.mul_one]; exact Nat.not_le.mpr hr)

/-- A field of a word is the bits extracted there (R16). -/
theorem wordField_eq_extractLsb' (w : Word) (hi lo : Nat) :
    wordField w hi lo = (w.extractLsb' lo (hi + 1 - lo)).toNat := by
  rw [wordField, BitVec.extractLsb'_toNat, Nat.shiftRight_eq_div_pow]

/-- The branch a bit selects, by the bits of the node's word (R234, R245). -/
theorem branchOf_eq (n : Word) (b : Bool) : branchOf n b =
    (n.getLsbD (if b then 30 else 29), (n.extractLsb' (if b then 16 else 0) 9).toNat) := by
  cases b <;> simp only [branchOf, wordField_eq_extractLsb'] <;> rfl

/-- The symbol of a leaf's word (R234). -/
theorem ofNat_wordField_symbol (m : Word) : BitVec.ofNat 32 (wordField m 7 0) = (m.extractLsb' 0 8).setWidth 32 := by
  rw [wordField_eq_extractLsb', BitVec.ofNat_toNat]

/-- One step of the walk as R245 says it is the model's. -/
theorem walkBit_of_walkStepIs {s : State} {p q : Walk} {b : Bool} (h : walkStepIs s p b q) :
    s.walkBit p b = .ok q := by
  obtain ⟨n, hn, hbranch⟩ := h
  rw [State.walkBit, (s.readWord_ok_iff (trieAddr p.node) n).mpr hn, bind_ok_val, branchOf_eq]
  rcases hbranch with ⟨habsent, rfl⟩ | ⟨hvalid, c, m, hc, hm, hchild⟩
  · simp only [habsent]
    rfl
  · simp only [hvalid, ← hc, (s.readWord_ok_iff (trieAddr c) m).mpr hm, map_ok_val, if_true]
    rcases hchild with ⟨hleaf, rfl⟩ | ⟨hinner, rfl⟩
    · rw [if_pos hleaf, ofNat_wordField_symbol]
    · rw [hinner]
      rfl

/-- The state HDEC leaves when the walk ended in `e`, up to its completion (R245). -/
def State.decoded (s : State) (e : Walk) : State :=
  (s.writeWords (symAddr s.cfg.symOutBase.toNat) e.out).setDecoded e

/-- HDEC with room for the walk's symbols (R245). -/
theorem exec_hdec_fits {s : State} {k : BufId} {u : Bits} {e : Walk} (ht : s.status.tblv = true) (hk : s.buf k = .ok u)
    (hwalk : s.walkBits Walk.start u = .ok e) (hfits : s.cfg.symOutBase.toNat + e.out.length ≤ 1024) :
    exec (.hdec k) s = .next (s.decoded e).completeOk := by
  rw [exec, execHdec, if_pos ht, hk, bind_ok_val, hwalk, bind_ok_val, s.writeOutput_ok _ _ hfits, map_ok_val,
    State.settle_ok, State.decoded]

/-- HDEC without room for the walk's symbols (R51, R245). -/
theorem exec_hdec_capacity {s : State} {k : BufId} {u : Bits} {e : Walk} (ht : s.status.tblv = true)
    (hk : s.buf k = .ok u) (hwalk : s.walkBits Walk.start u = .ok e)
    (hlong : s.cfg.symOutBase.toNat + e.out.length > 1024) :
    exec (.hdec k) s = .next (s.raiseError .capacity e.out.length) := by
  rw [exec, execHdec, if_pos ht, hk, bind_ok_val, hwalk, bind_ok_val, s.writeOutput_capacity _ _ hlong, map_error_val,
    State.settle_raised]

/-- A successful HDEC is a completion that wrote the walk's symbols (R245). -/
theorem completeOk_decoded_effect (s : State) (e : Walk) :
    CompletesOk s (s.decoded e).completeOk ∧ WritesSym e.out s (s.decoded e).completeOk :=
  ⟨completesOk_of rfl rfl rfl rfl rfl rfl rfl, writesSym_of rfl rfl⟩

/-- Settles O22: a step of R245 is the model's, and the walk's counts, at most one per bit of a buffer, fit their
registers. -/
theorem hdecWritesTheWalksSymbols : Obligations.HdecWritesTheWalksSymbols := by
  refine ⟨rfl, fun _ _ => rfl, fun s p q b v h => ?_, fun s k u e ht hk hwalk => ⟨fun hfits => ?_, fun hlong => ?_⟩⟩
  · rw [State.walkBits, walkBit_of_walkStepIs h, bind_ok_val]
  · have hlen : u.length ≤ 16384 := State.buf_length hk ▸ s.bufLen_le k
    have hcounts := State.walkBits_counts hwalk
    simp only [Walk.start, List.length_nil] at hcounts
    obtain ⟨hok, hsym⟩ := completeOk_decoded_effect s e
    exact ⟨_, exec_hdec_fits ht hk hwalk hfits, hok, hsym, ⟨rfl, rfl, rfl⟩, toNat_ofNat_of_lt (by omega),
      toNat_ofNat_of_lt (by omega), toNat_ofNat_of_lt (by omega), rfl⟩
  · exact exec_hdec_capacity ht hk hwalk hlong

/-- Settles O23: the root of a valid table is an inner node of the arena, from which no bits lead to an unwritten word;
and each symbol takes a bit, so one word per bit is room enough. -/
theorem hdecCompletesOnAValidTable : Obligations.HdecCompletesOnAValidTable := by
  intro s k u hinv ht hk
  obtain ⟨-, -, -, -, -, -, -, hroot, -⟩ := hinv.tree ht
  obtain ⟨e, hwalk⟩ := State.walkBits_total hroot u Walk.start (.inl rfl)
  have hcounts : e.out.length + e.bad + e.depth ≤ u.length := by simpa [Walk.start] using State.walkBits_counts hwalk
  by_cases hfits : s.cfg.symOutBase.toNat + e.out.length ≤ 1024
  · exact ⟨e, _, hwalk, hcounts, exec_hdec_fits ht hk hwalk hfits, fun _ => completeOk_decoded_effect s e⟩
  · exact ⟨e, _, hwalk, hcounts, exec_hdec_capacity ht hk hwalk (Nat.not_le.mp hfits), fun hroom => by omega⟩

/-! ## The round trip -/

/-- A subtree of the arena stays where CODE and TRIE do not change. -/
theorem SubtreeAt.congr {s t : State} {tree : HuffTree} {i : Nat} (h : SubtreeAt s tree i) (hi : i + tree.size ≤ 511)
    (hread : ∀ a, inTable a → t.mem.read a = s.mem.read a) : SubtreeAt t tree i := by
  intro j w hj
  have hlt : j < tree.size := tree.length_arena i ▸ (List.getElem?_eq_some_iff.mp hj).1
  rw [hread _ (.inl (by unfold trieAddr; omega))]
  exact h j w hj

/-- The walk over a concatenation of codewords outputs their symbols and ends at the root (R247). -/
theorem State.walkBits_codewords {s : State} {tree : HuffTree} (hsub : SubtreeAt s tree 0) (hsize : tree.size ≤ 511)
    (hsym : ∀ k ∈ tree.symbols, k < 256) {xs : List Word} {us : List Bits}
    (h : List.Forall₂ (fun x u => (x.toNat, u) ∈ tree.codes ∧ u ≠ []) xs us) (out : List Word) :
    s.walkBits { node := 0, depth := 0, bad := 0, out := out } us.flatten
      = .ok { node := 0, depth := 0, bad := 0, out := out ++ xs } := by
  induction h generalizing out with
  | nil => rw [List.append_nil]; rfl
  | @cons x u xs us hx _ ih =>
    obtain ⟨hmem, hne⟩ := hx
    rw [List.flatten_cons, State.walkBits_path hsub (by omega) hsym hmem hne, ih, BitVec.ofNat_toNat, BitVec.setWidth_eq,
      List.append_assoc, List.singleton_append]

/-- Settles O24: the codewords in CODE are the paths of the tree in TRIE, HENC's write leaves TRIE alone, and the walk
over paths gives their symbols back. -/
theorem huffmanRoundTrip : Obligations.HuffmanRoundTrip := by
  intro s d xs us hinv ht h1 h2 hin hus hfits hroom
  obtain ⟨tree, freqs, htree, hle, hsub, hsize, hsym, -, hcode⟩ := hinv.tree ht
  have hexec : exec (.henc d) s = .next (s.setBuf d us.flatten).completeOk := by
    rw [exec_henc_legal d (widthLegal_of h1 h2) ht hin (hus.imp fun _ _ hu => .inl hu), s.storeResult_ok d _ hfits,
      State.settle_ok]
  obtain ⟨-, hbuf, -⟩ := completeOk_setBuf_effect s d hfits
  have hpaths : List.Forall₂ (fun x u => (x.toNat, u) ∈ tree.codes ∧ u ≠ []) xs us :=
    hus.imp fun x u ⟨hx, hne, hword⟩ => by
      obtain rfl := (codeword_table hcode hx (codeword_len hle htree x.toNat)).mp hword
      exact ⟨HuffTree.codeword_mem hne, hne⟩
  have hsub' : SubtreeAt (s.setBuf d us.flatten).completeOk tree 0 :=
    hsub.congr (by omega) fun a ha => s.read_setBuf_table d us.flatten ha
  have hwalk := State.walkBits_codewords hsub' hsize hsym hpaths []
  rw [List.nil_append] at hwalk
  obtain ⟨-, hwritten⟩ := completeOk_decoded_effect (s.setBuf d us.flatten).completeOk ⟨0, 0, 0, xs⟩
  exact ⟨_, _, hexec, exec_hdec_fits ht hbuf.value hwalk hroom, rfl, hwritten.words,
    toNat_ofNat_of_lt (show xs.length < 2 ^ 11 by omega), rfl, rfl⟩

end Sys2Proof.Machine
end

section
/-! PROOFS. The fixed-width codec: FENC and FDEC, their errors, and the round trip (R270 to R274). -/

namespace Sys2Proof.Machine

/-! ## Pieces of one width -/

section Pieces
variable {α : Type} {f : α → Bits} {w : Nat} (hf : ∀ x, (f x).length = w) (xs : List α)
include hf

/-- A concatenation of pieces of `w` bits has `w` bits per piece. -/
theorem length_flatMap_pieces : (xs.flatMap f).length = xs.length * w := by
  rw [List.flatMap_def, length_flatten_of_pieces w _ (List.forall_mem_map.mpr fun x _ => hf x), List.length_map]

/-- Cutting a concatenation of pieces of `w` bits gives the pieces back. -/
theorem chunks_flatMap_pieces : chunks w xs.length (xs.flatMap f) = xs.map f := by
  have h := chunks_flatten w (xs.map f) (List.forall_mem_map.mpr fun x _ => hf x)
  rwa [List.length_map, ← List.flatMap_def] at h

/-- The whole chunks of a concatenation of pieces of `w` bits are its pieces. -/
theorem wholeChunks_flatMap_pieces (hw : 0 < w) :
    chunks w ((xs.flatMap f).length / w) (xs.flatMap f) = xs.map f := by
  rw [length_flatMap_pieces hf, Nat.mul_div_cancel _ hw, chunks_flatMap_pieces hf]

/-- Piece i lies at the bits i·w to (i+1)·w. -/
theorem slice_flatMap_piece {i : Nat} {x : α} (hx : xs[i]? = some x) :
    slice (xs.flatMap f) (i * w) ((i + 1) * w) = f x := by
  have hi : i < xs.length := (List.getElem?_eq_some_iff.mp hx).1
  have h := getElem?_chunks w xs.length i (xs.flatMap f) hi
  rw [chunks_flatMap_pieces hf, List.getElem?_map, hx] at h
  exact (Option.some.inj h).symm

end Pieces

/-! ## FENC -/

/-- FENC's vector has n·W bits (R271). -/
@[simp] theorem length_packChars (w : Nat) (xs : List Word) : (packChars w xs).length = xs.length * w :=
  length_flatMap_pieces (fun x : Word => length_bitsOf w x.toNat) xs

/-- Group i of FENC's vector is character i, masked (R270). -/
theorem val_slice_packChars (w : Nat) {xs : List Word} {i : Nat} {x : Word} (hx : xs[i]? = some x) :
    val (slice (packChars w xs) (i * w) ((i + 1) * w)) = x.toNat % 2 ^ w := by
  rw [packChars, slice_flatMap_piece (fun x => length_bitsOf w x.toNat) xs hx, val_bitsOf]

/-- FENC of an illegal FIXW names its offset (R271). -/
theorem exec_fenc_illegal {s : State} (d : BufId) (h : widthLegal s.cfg.fixw.toNat = false) :
    exec (.fenc d) s = .next (s.raiseError .param 0x040) := by
  rw [exec, execFenc, h]
  rfl

/-- FENC of an input range past SYM_DEPTH (R51, R271). -/
theorem exec_fenc_range {s : State} (d : BufId) (hw : widthLegal s.cfg.fixw.toNat = true)
    (hr : s.inputRangeLegal 1 = false) : exec (.fenc d) s = .next (s.raiseError .range 0x070) := by
  rw [exec, execFenc, if_pos hw, hr]
  rfl

/-- FENC of a readable input stores its vector, or fails where that does not fit (R200, R271). -/
theorem exec_fenc_legal {s : State} (d : BufId) {xs : List Word} (hw : widthLegal s.cfg.fixw.toNat = true)
    (hin : InputIs s xs) : exec (.fenc d) s = s.settle (s.storeResult d (packChars s.cfg.fixw.toNat xs)) := by
  obtain ⟨hwords, hrange⟩ := inputWords_of hin
  rw [exec, execFenc, if_pos hw, if_pos hrange, hwords, bind_ok_val]

/-- Settles O25: the width is checked, then the range, and the vector is stored or its length n·W reported; its groups
are the pieces it was made of. -/
theorem fencPacksMaskedCharacters : Obligations.FencPacksMaskedCharacters := by
  intro s d xs
  refine ⟨fun hw => exec_fenc_illegal d (widthLegal_false hw),
    fun h1 h2 hr => exec_fenc_range d (widthLegal_of h1 h2) ?_, fun h1 h2 hin => ?_⟩
  · exact decide_eq_false (by rw [Nat.mul_one]; exact Nat.not_le.mpr hr)
  rw [exec_fenc_legal d (widthLegal_of h1 h2) hin, ← length_packChars]
  constructor
  · intro hfits
    obtain ⟨hok, hbuf, hsetup, hres⟩ := completeOk_setBuf_effect s d hfits
    rw [s.storeResult_ok d _ hfits, State.settle_ok]
    exact ⟨_, _, rfl, hok, hbuf, hsetup, hres, rfl, fun i x hx => val_slice_packChars _ hx⟩
  · intro hlong
    rw [s.storeResult_capacity d _ hlong, State.settle_raised]

/-! ## FDEC -/

/-- FDEC gives one character per whole chunk (R273). -/
@[simp] theorem length_unpackChars (w : Nat) (u : Bits) : (unpackChars w u).length = u.length / w := by
  simp [unpackChars]

/-- Character j is the value of chunk j, which a word of 32 bits holds (R273). -/
theorem toNat_unpackChars {w j : Nat} {u : Bits} {x : Word} (hw : w ≤ 32) (hx : (unpackChars w u)[j]? = some x) :
    x.toNat = val (slice u (j * w) ((j + 1) * w)) := by
  have hj : j < u.length / w := length_unpackChars w u ▸ (List.getElem?_eq_some_iff.mp hx).1
  rw [unpackChars, List.getElem?_map, getElem?_chunks w _ j u hj] at hx
  obtain rfl := Option.some.inj hx
  have hval := val_slice_lt u (j * w) ((j + 1) * w)
  rw [← Nat.sub_mul, Nat.add_sub_cancel_left, Nat.one_mul] at hval
  exact toNat_ofNat_of_lt (Nat.lt_of_lt_of_le hval (Nat.pow_le_pow_right (by decide) hw))

/-- The state FDEC leaves of the source `u`, up to its completion (R273). -/
def State.charsDecoded (s : State) (u : Bits) : State :=
  let xs := unpackChars s.cfg.fixw.toNat u
  (s.writeWords (symAddr s.cfg.symOutBase.toNat) xs).setFixedDecoded xs.length (u.length % s.cfg.fixw.toNat)

/-- FDEC of an illegal FIXW names its offset (R273). -/
theorem exec_fdec_illegal {s : State} (k : BufId) (h : widthLegal s.cfg.fixw.toNat = false) :
    exec (.fdec k) s = .next (s.raiseError .param 0x040) := by
  simp only [exec, execFdec, h]
  rfl

/-- FDEC with room for the whole chunks (R273). -/
theorem exec_fdec_fits {s : State} {k : BufId} {u : Bits} (hw : widthLegal s.cfg.fixw.toNat = true)
    (hk : s.buf k = .ok u) (hfits : s.cfg.symOutBase.toNat + (unpackChars s.cfg.fixw.toNat u).length ≤ 1024) :
    exec (.fdec k) s = .next (s.charsDecoded u).completeOk := by
  simp only [exec, execFdec, if_pos hw, hk, bind_ok_val, s.writeOutput_ok _ _ hfits, map_ok_val, State.settle_ok,
    State.charsDecoded]

/-- FDEC without room for the whole chunks (R51, R273). -/
theorem exec_fdec_capacity {s : State} {k : BufId} {u : Bits} (hw : widthLegal s.cfg.fixw.toNat = true)
    (hk : s.buf k = .ok u) (hlong : s.cfg.symOutBase.toNat + (unpackChars s.cfg.fixw.toNat u).length > 1024) :
    exec (.fdec k) s = .next (s.raiseError .capacity (unpackChars s.cfg.fixw.toNat u).length) := by
  simp only [exec, execFdec, if_pos hw, hk, bind_ok_val, s.writeOutput_capacity _ _ hlong, map_error_val,
    State.settle_raised]

/-- A successful FDEC is a completion that wrote the characters (R273). -/
theorem completeOk_charsDecoded_effect (s : State) (u : Bits) :
    CompletesOk s (s.charsDecoded u).completeOk ∧
      WritesSym (unpackChars s.cfg.fixw.toNat u) s (s.charsDecoded u).completeOk :=
  ⟨completesOk_of rfl rfl rfl rfl rfl rfl rfl, writesSym_of rfl rfl⟩

/-- Settles O26: the width is checked, then the room in SYM; the count passes the room check and the bits left over are
fewer than W, so both fit their registers. -/
theorem fdecUnpacksWholeChunks : Obligations.FdecUnpacksWholeChunks := by
  intro s k u
  refine ⟨fun hw => exec_fdec_illegal k (widthLegal_false hw), fun h1 h2 hk => ?_⟩
  have hw := widthLegal_of h1 h2
  rw [← length_unpackChars]
  refine ⟨fun hfits => ?_, exec_fdec_capacity hw hk⟩
  have hrest : u.length % s.cfg.fixw.toNat < s.cfg.fixw.toNat := Nat.mod_lt _ h1
  obtain ⟨hok, hsym⟩ := completeOk_charsDecoded_effect s u
  exact ⟨_, _, exec_fdec_fits hw hk hfits, hok, hsym, ⟨rfl, rfl, rfl⟩, rfl, fun j x hx => toNat_unpackChars h2 hx,
    toNat_ofNat_of_lt (by omega), toNat_ofNat_of_lt (by omega), rfl⟩

/-! ## The fixed-width round trip -/

/-- Characters below 2^W come back from their groups (R274). -/
theorem unpackChars_packChars {w : Nat} {xs : List Word} (hw : 0 < w) (hx : ∀ x ∈ xs, x.toNat < 2 ^ w) :
    unpackChars w (packChars w xs) = xs := by
  rw [unpackChars, packChars, wholeChunks_flatMap_pieces (fun x => length_bitsOf w x.toNat) xs hw, List.map_map]
  refine (List.map_congr_left fun x hmem => ?_).trans (List.map_id xs)
  rw [Function.comp_apply, val_bitsOf, Nat.mod_eq_of_lt (hx x hmem), BitVec.ofNat_toNat, BitVec.setWidth_eq, id]

/-- Settles O27: FENC keeps FIXW and SYM_OUT_BASE, so FDEC cuts the vector where FENC joined it. -/
theorem fixedWidthRoundTrip : Obligations.FixedWidthRoundTrip := by
  intro s d xs h1 h2 hin hx hlen hroom
  have hw := widthLegal_of h1 h2
  have hfits : (packChars s.cfg.fixw.toNat xs).length ≤ 16384 := by rwa [length_packChars]
  have hback := unpackChars_packChars h1 hx
  have hrest : (packChars s.cfg.fixw.toNat xs).length % s.cfg.fixw.toNat = 0 := by
    rw [length_packChars, Nat.mul_mod_left]
  have hexec : exec (.fenc d) s = .next (s.setBuf d (packChars s.cfg.fixw.toNat xs)).completeOk := by
    rw [exec_fenc_legal d hw hin, s.storeResult_ok d _ hfits, State.settle_ok]
  generalize packChars s.cfg.fixw.toNat xs = v at hfits hback hrest hexec
  obtain ⟨-, hbuf, -⟩ := completeOk_setBuf_effect s d hfits
  obtain ⟨-, hsym⟩ := completeOk_charsDecoded_effect (s.setBuf d v).completeOk v
  have hcount : (unpackChars s.cfg.fixw.toNat v).length = xs.length := congrArg List.length hback
  refine ⟨_, _, hexec, exec_fdec_fits hw hbuf.value (by simpa [hback] using hroom), rfl, fun i hi => ?_, ?_, ?_⟩
  · exact (hsym.words i (hcount ▸ hi)).trans (congrArg (·[i]?) hback)
  · exact (toNat_ofNat_of_lt (show (unpackChars s.cfg.fixw.toNat v).length < 2 ^ 11 by omega)).trans hcount
  · exact congrArg (BitVec.ofNat 16) hrest

end Sys2Proof.Machine
end

section
/-! PROOFS. The semantic codec: SENC and SDEC, their errors, and the round trip (R275 to R281). -/

namespace Sys2Proof.Machine

/-! ## SEMW and the triples -/

/-- Legal fields are those R275 names. -/
theorem FieldWidths.legal_of {f : FieldWidths} (hh : f.wh ≤ 16) (hr : f.wr ≤ 16) (ht : f.wt ≤ 16)
    (hpos : f.wh + f.wr + f.wt ≥ 1) : f.legal = true :=
  decide_eq_true ⟨hh, hr, ht, Nat.ne_of_gt hpos⟩

/-- A field above 16 or a total of 0 is illegal (R275). -/
theorem FieldWidths.legal_false {f : FieldWidths}
    (h : f.wh > 16 ∨ f.wr > 16 ∨ f.wt > 16 ∨ f.wh + f.wr + f.wt = 0) : f.legal = false := by
  refine decide_eq_false ?_
  simp only [Config.maxFieldW, FieldWidths.total]
  omega

/-- Legal fields hold at least one bit (R275). -/
theorem FieldWidths.total_pos {f : FieldWidths} (h : f.legal = true) : 0 < f.total := by
  obtain ⟨-, -, -, hne⟩ := of_decide_eq_true h
  exact Nat.pos_of_ne_zero hne

/-- A triple fits where each id is below 2 to its field's width (R275). -/
theorem Triple.fits_iff (x : Triple) (f : FieldWidths) :
    x.fits f = true ↔ x.h < 2 ^ f.wh ∧ x.r < 2 ^ f.wr ∧ x.t < 2 ^ f.wt :=
  decide_eq_true_iff

/-- The middle one of three vectors, cut out by its place (R14). -/
theorem slice_append_middle (u v w : Bits) : slice (u ++ v ++ w) u.length (u.length + v.length) = v := by
  rw [slice, List.append_assoc, List.drop_left, Nat.add_sub_cancel_left, List.take_left]

/-- A triple that fits comes back from its code (R275, R281). -/
theorem tripleOfBits_bits {x : Triple} {f : FieldWidths} (h : x.fits f = true) : tripleOfBits f (x.bits f) = x := by
  obtain ⟨hh, hr, ht⟩ := (x.fits_iff f).mp h
  have hsliceH : slice (x.bits f) 0 f.wh = bitsOf f.wh x.h := by
    simpa [Triple.bits] using slice_append_middle [] (bitsOf f.wh x.h) (bitsOf f.wr x.r ++ bitsOf f.wt x.t)
  have hsliceR : slice (x.bits f) f.wh (f.wh + f.wr) = bitsOf f.wr x.r := by
    simpa [Triple.bits] using slice_append_middle (bitsOf f.wh x.h) (bitsOf f.wr x.r) (bitsOf f.wt x.t)
  have hsliceT : slice (x.bits f) (f.wh + f.wr) f.total = bitsOf f.wt x.t := by
    simpa [Triple.bits, FieldWidths.total] using
      slice_append_middle (bitsOf f.wh x.h ++ bitsOf f.wr x.r) (bitsOf f.wt x.t) []
  rw [tripleOfBits, hsliceH, hsliceR, hsliceT, val_bitsOf, val_bitsOf, val_bitsOf, Nat.mod_eq_of_lt hh,
    Nat.mod_eq_of_lt hr, Nat.mod_eq_of_lt ht]

/-! ## Reading the input triples -/

/-- Triples number i, i+1, ... of the input at SYM word `b` read as `xs` (R276). -/
def State.HoldsTriples (s : State) (b i : Nat) (xs : List Triple) : Prop :=
  ∀ j x, xs[j]? = some x → s.readTriple (b + 3 * (i + j)) = .ok x

/-- The first of some triples, and those after it. -/
theorem State.HoldsTriples.cons {s : State} {b i : Nat} {x : Triple} {xs : List Triple}
    (h : s.HoldsTriples b i (x :: xs)) : s.readTriple (b + 3 * i) = .ok x ∧ s.HoldsTriples b (i + 1) xs := by
  refine ⟨h 0 x rfl, fun j y hy => ?_⟩
  rw [Nat.add_assoc, Nat.add_comm 1 j]
  exact h (j + 1) y hy

/-- The input triples of a statement are those the model reads. -/
theorem holdsTriples_of {s : State} {xs : List Triple} (h : TriplesAre s xs) :
    s.HoldsTriples s.cfg.symInBase.toNat 0 xs := by
  intro j x hx
  obtain ⟨h, r, t, hh, hr, ht, rfl⟩ := h.words j x hx
  rw [Nat.zero_add, State.readTriple, (s.readWord_ok_iff _ h).mpr hh, bind_ok_val, (s.readWord_ok_iff _ r).mpr hr,
    bind_ok_val, (s.readWord_ok_iff _ t).mpr ht, map_ok_val]

/-- Triples that all fit are read (R276). -/
theorem State.readTriples_fitting {s : State} {b i : Nat} {xs : List Triple} (h : s.HoldsTriples b i xs)
    (hfit : ∀ x ∈ xs, x.fits s.fieldWidths = true) : s.readTriples b i xs.length = .ok xs := by
  induction xs generalizing i with
  | nil => rfl
  | cons x xs ih =>
    obtain ⟨hx, hxs⟩ := h.cons
    obtain ⟨hfx, hfxs⟩ := List.forall_mem_cons.mp hfit
    rw [List.length_cons, State.readTriples, hx, bind_ok_val, if_pos hfx, ih hxs hfxs, map_ok_val]

/-- The first triple that does not fit raises WIDTH with its number (R276). -/
theorem State.readTriples_width {s : State} {b i k : Nat} {xs : List Triple} {x : Triple} (h : s.HoldsTriples b i xs)
    (hx : xs[k]? = some x) (hbad : x.fits s.fieldWidths = false)
    (hfirst : ∀ j y, j < k → xs[j]? = some y → y.fits s.fieldWidths = true) :
    s.readTriples b i xs.length = .error (.raised .width (i + k)) := by
  induction xs generalizing i k with
  | nil => cases hx
  | cons y ys ih =>
    obtain ⟨hy, hys⟩ := h.cons
    rw [List.length_cons, State.readTriples, hy, bind_ok_val]
    cases k with
    | zero =>
      obtain rfl : y = x := Option.some.inj hx
      rw [hbad]
      rfl
    | succ k =>
      have hrest := ih hys hx fun j z hj => hfirst (j + 1) z (Nat.succ_lt_succ hj)
      rw [if_pos (hfirst 0 y (Nat.succ_pos k) rfl), hrest, map_error_val, Nat.add_assoc, Nat.add_comm 1 k]

/-! ## SENC -/

/-- SENC of illegal fields names SEMW's offset (R276). -/
theorem exec_senc_illegal {s : State} (d : BufId) (h : s.fieldWidths.legal = false) :
    exec (.senc d) s = .next (s.raiseError .param 0x058) := by
  rw [exec, execSenc, h]
  rfl

/-- SENC of an input range past SYM_DEPTH (R51, R276). -/
theorem exec_senc_range {s : State} (d : BufId) (hf : s.fieldWidths.legal = true) (hr : s.inputRangeLegal 3 = false) :
    exec (.senc d) s = .next (s.raiseError .range 0x070) := by
  rw [exec, execSenc, if_pos hf, hr]
  rfl

/-- The input range of a statement's triples is legal (R51). -/
theorem TriplesAre.rangeLegal {s : State} {xs : List Triple} (h : TriplesAre s xs) : s.inputRangeLegal 3 = true :=
  decide_eq_true (by rw [h.count, Nat.mul_comm]; exact h.range)

/-- SENC of a legal input range stores the code of the triples it reads, or fails where reading them does (R276). -/
theorem exec_senc_legal {s : State} (d : BufId) {xs : List Triple} (hf : s.fieldWidths.legal = true)
    (hin : TriplesAre s xs) :
    exec (.senc d) s = s.settle ((s.readTriples s.cfg.symInBase.toNat 0 xs.length).map fun ys =>
      s.setBuf d (packTriples s.fieldWidths ys)) := by
  rw [exec, execSenc, if_pos hf, if_pos hin.rangeLegal, hin.count]

/-- SENC of triples that fit is SetBuf of their code, which fits the buffer (R276). -/
theorem exec_senc_fitting {s : State} (d : BufId) {xs : List Triple} (hf : s.fieldWidths.legal = true)
    (hin : TriplesAre s xs) (hfit : ∀ x ∈ xs, x.fits s.fieldWidths = true) :
    exec (.senc d) s = .next (s.setBuf d (packTriples s.fieldWidths xs)).completeOk := by
  rw [exec_senc_legal d hf hin, State.readTriples_fitting (holdsTriples_of hin) hfit, map_ok_val, State.settle_ok]

/-- Settles O28: the fields are checked, then the range, then the triples in order; 341 triples of 48 bits fit. -/
theorem sencPacksFittingTriples : Obligations.SencPacksFittingTriples := by
  rintro s d _ xs rfl
  refine ⟨fun hf => exec_senc_illegal d (FieldWidths.legal_false hf), fun hh hr ht hpos => ?_⟩
  have hf := FieldWidths.legal_of hh hr ht hpos
  refine ⟨fun hrange => exec_senc_range d hf ?_, fun hin hfit => ?_, fun i x hin hx hbad hfirst => ?_⟩
  · exact decide_eq_false (by rw [Nat.mul_comm]; exact Nat.not_le.mpr hrange)
  · exact ⟨_, exec_senc_fitting d hf hin fun x hx => (x.fits_iff _).mpr (hfit x hx),
      completeOk_setBuf_effect s d (packTriples_fits hf hin.rangeLegal hin.count.symm)⟩
  · rw [exec_senc_legal d hf hin, State.readTriples_width (holdsTriples_of hin) hx (decide_eq_false hbad)
      fun j y hj hy => (y.fits_iff _).mpr (hfirst j y hj hy), map_error_val, State.settle_raised, Nat.zero_add]

/-! ## SDEC -/

/-- SDEC cuts one triple per whole chunk (R279). -/
@[simp] theorem length_unpackTriples (f : FieldWidths) (u : Bits) :
    (unpackTriples f u).length = u.length / f.total := by
  simp [unpackTriples]

/-- Triple j is the one chunk j holds (R279). -/
theorem getElem?_unpackTriples (f : FieldWidths) (u : Bits) {j : Nat} (hj : j < u.length / f.total) :
    (unpackTriples f u)[j]? = some (tripleOfBits f (slice u (j * f.total) ((j + 1) * f.total))) := by
  rw [unpackTriples, List.getElem?_map, getElem?_chunks _ _ j u hj, Option.map_some]

/-- The triples of the whole chunks are the only list of so many triples whose ids are the values of the chunks' fields
(R279). -/
theorem eq_unpackTriples {f : FieldWidths} {u : Bits} {all : List Triple} (hl : all.length = u.length / f.total)
    (h : ∀ j x, all[j]? = some x → ∃ c, c = slice u (j * f.total) ((j + 1) * f.total) ∧ x.h = val (slice c 0 f.wh) ∧
      x.r = val (slice c f.wh (f.wh + f.wr)) ∧ x.t = val (slice c (f.wh + f.wr) f.total)) :
    all = unpackTriples f u := by
  refine List.ext_getElem? fun j => ?_
  by_cases hj : j < all.length
  · obtain ⟨_, rfl, hh, hr, ht⟩ := h j all[j] (List.getElem?_eq_getElem hj)
    rw [List.getElem?_eq_getElem hj, getElem?_unpackTriples f u (hl ▸ hj), tripleOfBits, ← hh, ← hr, ← ht]
  · rw [List.getElem?_eq_none (by omega), List.getElem?_eq_none (by rw [length_unpackTriples]; omega)]

/-- The triples SDEC keeps of the source `u` (R279). -/
def State.keptTriples (s : State) (u : Bits) : List Triple := (unpackTriples s.fieldWidths u).filter s.knows

/-- The state SDEC leaves of the source `u`, up to its completion (R279). -/
def State.triplesDecoded (s : State) (u : Bits) : State :=
  (s.writeWords (symAddr s.cfg.symOutBase.toNat) ((s.keptTriples u).flatMap Triple.words)).setTriplesDecoded
    (s.keptTriples u).length (u.length % s.fieldWidths.total)
    ((unpackTriples s.fieldWidths u).length - (s.keptTriples u).length)

/-- SDEC of illegal fields names SEMW's offset (R279). -/
theorem exec_sdec_illegal {s : State} (k : BufId) (h : s.fieldWidths.legal = false) :
    exec (.sdec k) s = .next (s.raiseError .param 0x058) := by
  simp only [exec, execSdec, h]
  rfl

/-- SDEC with room for the triples kept (R279). -/
theorem exec_sdec_fits {s : State} {k : BufId} {u : Bits} (hf : s.fieldWidths.legal = true) (hk : s.buf k = .ok u)
    (hfits : s.cfg.symOutBase.toNat + 3 * (s.keptTriples u).length ≤ 1024) :
    exec (.sdec k) s = .next (s.triplesDecoded u).completeOk := by
  have hout := s.writeOutput_ok (s.keptTriples u).length _ (length_words (s.keptTriples u) ▸ hfits)
  simp only [State.keptTriples] at hout
  simp only [exec, execSdec, if_pos hf, hk, bind_ok_val, hout, map_ok_val, State.settle_ok, State.triplesDecoded,
    State.keptTriples]

/-- SDEC without room for the triples kept (R51, R279). -/
theorem exec_sdec_capacity {s : State} {k : BufId} {u : Bits} (hf : s.fieldWidths.legal = true) (hk : s.buf k = .ok u)
    (hlong : s.cfg.symOutBase.toNat + 3 * (s.keptTriples u).length > 1024) :
    exec (.sdec k) s = .next (s.raiseError .capacity (s.keptTriples u).length) := by
  have hout := s.writeOutput_capacity (s.keptTriples u).length _ (length_words (s.keptTriples u) ▸ hlong)
  simp only [State.keptTriples] at hout
  simp only [exec, execSdec, if_pos hf, hk, bind_ok_val, hout, map_error_val, State.settle_raised, State.keptTriples]

/-- A successful SDEC is a completion that wrote the words of the triples kept (R279). -/
theorem completeOk_triplesDecoded_effect (s : State) (u : Bits) :
    CompletesOk s (s.triplesDecoded u).completeOk ∧
      WritesSym ((s.keptTriples u).flatMap Triple.words) s (s.triplesDecoded u).completeOk :=
  ⟨completesOk_of rfl rfl rfl rfl rfl rfl rfl, writesSym_of rfl rfl⟩

/-- Settles O29: the triples named are the ones SDEC cuts and keeps; the fields are checked, then the room in SYM, and
the counts, at most one per bit of a buffer, fit their registers. -/
theorem sdecKeepsKnownTriples : Obligations.SdecKeepsKnownTriples := by
  rintro s k _ u all kept rfl
  refine ⟨fun hf => exec_sdec_illegal k (FieldWidths.legal_false hf), fun hh hr ht hpos hk hall hids hkept => ?_⟩
  have hf := FieldWidths.legal_of hh hr ht hpos
  obtain rfl : all = unpackTriples s.fieldWidths u := eq_unpackTriples hall hids
  obtain rfl : kept = s.keptTriples u := hkept
  refine ⟨fun hfits => ?_, exec_sdec_capacity hf hk⟩
  have hlen : u.length ≤ 16384 := State.buf_length hk ▸ s.bufLen_le k
  have hrest : u.length % s.fieldWidths.total < s.fieldWidths.total := Nat.mod_lt _ (FieldWidths.total_pos hf)
  have htotal := FieldWidths.total_le hf
  have hcut : (unpackTriples s.fieldWidths u).length ≤ u.length := hall ▸ Nat.div_le_self _ _
  obtain ⟨hok, hsym⟩ := completeOk_triplesDecoded_effect s u
  exact ⟨_, exec_sdec_fits hf hk hfits, hok, hsym, ⟨rfl, rfl, rfl⟩, toNat_ofNat_of_lt (by omega),
    toNat_ofNat_of_lt (by omega), toNat_ofNat_of_lt (by omega), rfl⟩

/-! ## The semantic round trip -/

/-- Triples that fit come back from their codes (R281). -/
theorem unpackTriples_packTriples {f : FieldWidths} {xs : List Triple} (hf : f.legal = true)
    (hx : ∀ x ∈ xs, x.fits f = true) : unpackTriples f (packTriples f xs) = xs := by
  rw [unpackTriples, packTriples, wholeChunks_flatMap_pieces (fun x => x.length_bits f) xs (FieldWidths.total_pos hf),
    List.map_map]
  exact (List.map_congr_left fun x hmem => tripleOfBits_bits (hx x hmem)).trans (List.map_id xs)

/-- Settles O30: SENC keeps SEMW and the counts, so SDEC cuts the code where SENC joined it, knows every triple and
drops none. -/
theorem semanticRoundTrip : Obligations.SemanticRoundTrip := by
  intro s d xs hf hin hx hroom
  have hfit : ∀ x ∈ xs, x.fits s.fieldWidths = true := fun x hmem => (hx x hmem).1
  have hfits := packTriples_fits hf hin.rangeLegal hin.count.symm
  have hback := unpackTriples_packTriples hf hfit
  have hrest : (packTriples s.fieldWidths xs).length % s.fieldWidths.total = 0 := by
    rw [length_packTriples, Nat.mul_mod_left]
  have hexec := exec_senc_fitting d hf hin hfit
  generalize packTriples s.fieldWidths xs = v at hfits hback hrest hexec
  have hkept : (s.setBuf d v).completeOk.keptTriples v = xs :=
    (congrArg (List.filter s.knows) hback).trans (List.filter_eq_self.mpr fun x hmem => (hx x hmem).2)
  obtain ⟨-, hbuf, -⟩ := completeOk_setBuf_effect s d hfits
  obtain ⟨-, hsym⟩ := completeOk_triplesDecoded_effect (s.setBuf d v).completeOk v
  rw [hkept] at hsym
  refine ⟨_, _, hexec, exec_sdec_fits hf hbuf.value (hkept ▸ hroom), rfl, hsym, ?_,
    congrArg (BitVec.ofNat 16) hrest, ?_⟩
  · exact (congrArg (fun l => (BitVec.ofNat 11 l.length).toNat) hkept).trans
      (toNat_ofNat_of_lt (show xs.length < 2 ^ 11 by omega))
  · have hnone : (unpackTriples s.fieldWidths v).length - ((s.setBuf d v).completeOk.keptTriples v).length = 0 := by
      rw [hback, hkept, Nat.sub_self]
    exact congrArg (BitVec.ofNat 16) hnone

end Sys2Proof.Machine
end

section
/-! PROOFS. CHAN: the flips by the draws, the endpoints, determinism, and more flips with a larger PROB (R300 to
R303). -/

namespace Sys2Proof.Machine

/-! ## The error bits -/

/-- No draw is below 0 (R302). -/
theorem errorBit_zero (seed k : BitVec 32) : errorBit seed 0 k = false :=
  decide_eq_false (Nat.not_lt_zero _)

/-- Every 16-bit draw is below 65536 (R302). -/
theorem errorBit_probOne (seed k : BitVec 32) : errorBit seed 65536 k = true :=
  decide_eq_true (Config.channelDraw seed k).isLt

/-- A draw below PROB is below every larger PROB (R301, V-L12). -/
theorem errorBit_mono {p q : Nat} {seed k : BitVec 32} (hpq : p ≤ q) (h : errorBit seed p k = true) :
    errorBit seed q k = true :=
  decide_eq_true (Nat.lt_of_lt_of_le (of_decide_eq_true h) hpq)

/-! ## The bits sent -/

/-- Bit i is exclusive-ORed with draw number k + i (R301). -/
theorem getElem?_transmit (seed : BitVec 32) (p : Nat) (k : BitVec 32) (u : Bits) (i : Nat) :
    (transmit seed p k u)[i]? = u[i]?.map (· ^^ errorBit seed p (k + BitVec.ofNat 32 i)) := by
  induction u generalizing k i with
  | nil => rfl
  | cons b u ih =>
    cases i with
    | zero => simp [transmit]
    | succ i =>
      have hdraw : k + 1 + BitVec.ofNat 32 i = k + BitVec.ofNat 32 (i + 1) := by
        rw [BitVec.add_assoc, BitVec.add_comm 1, BitVec.ofNat_add]
        rfl
      rw [transmit, List.getElem?_cons_succ, List.getElem?_cons_succ, ih, hdraw]

/-- Bit i is flipped exactly where the source has a bit i and its draw is below PROB (R301). -/
theorem getElem?_transmit_ne_iff (seed : BitVec 32) (p : Nat) (k : BitVec 32) (u : Bits) (i : Nat) :
    (transmit seed p k u)[i]? ≠ u[i]? ↔ i < u.length ∧ errorBit seed p (k + BitVec.ofNat 32 i) = true := by
  rw [getElem?_transmit]
  by_cases hi : i < u.length
  · cases errorBit seed p (k + BitVec.ofNat 32 i) <;> simp [hi]
  · simp [hi]

/-- PROB = 0 sends every bit unchanged (R302). -/
theorem transmit_zero (seed k : BitVec 32) (u : Bits) : transmit seed 0 k u = u :=
  List.ext_getElem? fun i => by simp [getElem?_transmit, errorBit_zero]

/-- PROB = 65536 flips every bit (R302). -/
theorem transmit_probOne (seed k : BitVec 32) (u : Bits) : transmit seed 65536 k u = u.map not :=
  List.ext_getElem? fun i => by simp [getElem?_transmit, errorBit_probOne]

/-! ## CHAN -/

/-- The vector CHAN writes when its source holds `u` (R301). -/
def State.sent (s : State) (u : Bits) : Bits := transmit s.cfg.seed s.cfg.prob.toNat s.drawIdx u

/-- A vector sent has its source's length (R301). -/
@[simp] theorem State.length_sent (s : State) (u : Bits) : (s.sent u).length = u.length :=
  length_transmit _ _ _ _

/-- What CHAN sends depends on the source, PROB, SEED and DRAW_IDX alone (R303). -/
theorem State.sent_congr {s s' : State} (hp : s.cfg.prob = s'.cfg.prob) (hseed : s.cfg.seed = s'.cfg.seed)
    (hk : s.drawIdx = s'.drawIdx) (u : Bits) : s.sent u = s'.sent u := by
  rw [State.sent, State.sent, hp, hseed, hk]

/-- The state CHAN leaves of the source `u`, up to its completion (R301). -/
def State.transmitted (s : State) (d : BufId) (u : Bits) : State := (s.setBuf d (s.sent u)).advanceDraws u.length

/-- CHAN of an illegal PROB names its offset (R301). -/
theorem exec_chan_illegal {s : State} (d k : BufId) (h : s.cfg.prob.toNat > 65536) :
    exec (.chan d k) s = .next (s.raiseError .param 0x04C) := by
  simp only [exec, execChan, Config.probOne, if_pos h]
  rfl

/-- CHAN of a legal PROB and a readable source (R301). -/
theorem exec_chan_legal {s : State} {k : BufId} {u : Bits} (d : BufId) (hp : s.cfg.prob.toNat ≤ 65536)
    (hk : s.buf k = .ok u) : exec (.chan d k) s = .next (s.transmitted d u).completeOk := by
  simp only [exec, execChan, Config.probOne, if_neg (Nat.not_lt.mpr hp), hk, map_ok_val, State.settle_ok,
    State.transmitted, State.sent]

/-- A CHAN that succeeds had a legal PROB and a readable source. -/
theorem exec_chan_success {s t : State} {d k : BufId} (h : exec (.chan d k) s = .next t)
    (hok : t.status.errcode = .ok) : s.cfg.prob.toNat ≤ 65536 ∧ ∃ u, s.buf k = .ok u := by
  rw [exec] at h
  rcases execChan_cases d k s with hstop | hraise | ⟨u, hk, hp, -, -⟩
  · exact absurd (h ▸ hstop) StopsUnread.not_next
  · obtain ⟨c, n, hc, hraise⟩ := hraise
    obtain rfl : c = .param := List.mem_singleton.mp hc
    cases h.symm.trans hraise
    cases hok
  · exact ⟨hp, u, hk⟩

/-- A successful CHAN is a completion that set the destination to the vector sent: a readable source fits (R301). -/
theorem completeOk_transmitted_effect {s : State} {k : BufId} {u : Bits} (d : BufId) (hk : s.buf k = .ok u) :
    CompletesOk s (s.transmitted d u).completeOk ∧ SetsBuffer d (s.sent u) s (s.transmitted d u).completeOk := by
  have hfits : (s.sent u).length ≤ 16384 := by
    rw [State.length_sent, State.buf_length hk]
    exact s.bufLen_le k
  exact ⟨completesOk_of rfl rfl rfl rfl rfl rfl rfl, setsBuffer_of hfits rfl rfl⟩

/-- What the destination of a successful CHAN holds (R301). -/
theorem buf_completeOk_transmitted {s : State} {k : BufId} {u : Bits} (d : BufId) (hk : s.buf k = .ok u) :
    (s.transmitted d u).completeOk.buf d = .ok (s.sent u) :=
  (completeOk_transmitted_effect d hk).2.value

/-- Settles O31: bit i of the vector sent is the source's exclusive-ORed with draw number DRAW_IDX + i. -/
theorem chanFlipsBitsByTheirDraws : Obligations.ChanFlipsBitsByTheirDraws := by
  intro s d k u
  refine ⟨exec_chan_illegal d k, fun hp hk => ?_⟩
  obtain ⟨hok, hbuf⟩ := completeOk_transmitted_effect d hk
  refine ⟨_, _, exec_chan_legal d hp hk, hok, hbuf, s.length_sent u, fun i b hb => ?_, rfl, rfl, rfl, rfl⟩
  rw [State.sent, getElem?_transmit, hb]
  rfl

/-- Settles O32: at PROB = 0 no error bit is 1, and at PROB = 65536 every one is. -/
theorem channelEndpointsIgnoreDraws : Obligations.ChannelEndpointsIgnoreDraws := by
  intro s d k u hk
  constructor
  · intro hp
    have hsent : s.sent u = u := by rw [State.sent, hp]; exact transmit_zero _ _ u
    have hlegal : s.cfg.prob.toNat ≤ 65536 := by rw [hp]; exact Nat.zero_le _
    exact ⟨_, exec_chan_legal d hlegal hk, rfl,
      (buf_completeOk_transmitted d hk).trans (congrArg Except.ok hsent)⟩
  · intro hp
    have hsent : s.sent u = u.map not := by rw [State.sent, hp]; exact transmit_probOne _ _ u
    exact ⟨_, exec_chan_legal d (Nat.le_of_eq hp) hk, rfl,
      (buf_completeOk_transmitted d hk).trans (congrArg Except.ok hsent)⟩

/-- Settles O33: the first success gives a legal PROB and a readable source, so the second CHAN succeeds too and sends
the same vector. -/
theorem channelIsDeterministic : Obligations.ChannelIsDeterministic := by
  intro s s' t t' d k d' k' hbuf hprob hseed hidx h h' hok
  obtain ⟨hp, u, hk⟩ := exec_chan_success h hok
  have hk' : s'.buf k' = .ok u := hbuf ▸ hk
  cases h.symm.trans (exec_chan_legal d hp hk)
  cases h'.symm.trans (exec_chan_legal d' (hprob ▸ hp) hk')
  refine ⟨rfl, ?_, congrArg (· + BitVec.ofNat 32 u.length) hidx⟩
  rw [buf_completeOk_transmitted d hk, buf_completeOk_transmitted d' hk', State.sent_congr hprob hseed hidx]

/-- Settles O34: both commands compare bit i with the same draw, and a draw below the smaller PROB is below the
larger. -/
theorem raisingProbOnlyAddsFlips : Obligations.RaisingProbOnlyAddsFlips := by
  intro s s' t t' d k u v v' hk hk' hseed hidx hle hp' h h' hv hv' i hflip
  cases h.symm.trans (exec_chan_legal d (hle.trans hp') hk)
  cases h'.symm.trans (exec_chan_legal d hp' hk')
  cases hv.symm.trans (buf_completeOk_transmitted d hk)
  cases hv'.symm.trans (buf_completeOk_transmitted d hk')
  obtain ⟨hi, herror⟩ := (getElem?_transmit_ne_iff _ _ _ u i).mp hflip
  exact (getElem?_transmit_ne_iff _ _ _ u i).mpr ⟨hi, hseed ▸ hidx ▸ errorBit_mono hle herror⟩

end Sys2Proof.Machine
end

section
/-! PROOFS. The repetition code: RENC and RDEC, their errors, the round trip, and the majority law for odd REP (R320 to
R326). -/

namespace Sys2Proof.Machine

/-! ## The copies -/

/-- Bit i of the copies is source bit i div R: the copies of a bit are contiguous (R321). -/
theorem getElem?_repeatBits {r : Nat} (hr : 0 < r) (u : Bits) (i : Nat) : (repeatBits r u)[i]? = u[i / r]? := by
  induction u generalizing i with
  | nil => rfl
  | cons b u ih =>
    have hcons : repeatBits r (b :: u) = List.replicate r b ++ repeatBits r u := List.flatMap_cons
    rw [hcons]
    by_cases hi : i < r
    · rw [List.getElem?_append_left (by rwa [List.length_replicate]), List.getElem?_replicate_of_lt hi,
        Nat.div_eq_of_lt hi, List.getElem?_cons_zero]
    · rw [List.getElem?_append_right (by rw [List.length_replicate]; omega), List.length_replicate, ih,
        Nat.div_eq_sub_div hr (Nat.not_lt.mp hi), List.getElem?_cons_succ]

/-! ## The votes -/

/-- Bit j of the votes is the majority of block j (R323). -/
theorem getElem?_voteBits {r j : Nat} {u : Bits} (hj : j < u.length / r) :
    (voteBits r u)[j]? = some (majority r (slice u (j * r) ((j + 1) * r))) := by
  rw [voteBits, List.getElem?_map, getElem?_chunks r _ j u hj, Option.map_some]

/-- A whole block has R bits (R323). -/
theorem length_slice_block {r j : Nat} {u : Bits} (hr : 0 < r) (hj : j < u.length / r) :
    (slice u (j * r) ((j + 1) * r)).length = r := by
  have hend : (j + 1) * r ≤ u.length := (Nat.le_div_iff_mul_le hr).mp hj
  rw [length_slice u _ _ hend, Nat.add_one_mul, Nat.add_sub_cancel_left]

/-- The majority of R copies of a bit is the bit (R325). -/
theorem majority_replicate {r : Nat} (hr : 0 < r) (b : Bool) : majority r (List.replicate r b) = b := by
  cases b with
  | false => exact decide_eq_false (by rw [popcount, List.count_replicate]; simpa using Nat.ne_of_gt hr)
  | true => exact decide_eq_true (by rw [popcount, List.count_replicate_self]; omega)

/-- For odd R there is no tie: the majority is b exactly when fewer than (R+1)/2 of the R bits differ from b (R326). -/
theorem majority_eq_iff {r : Nat} {block : Bits} (hodd : r % 2 = 1) (hl : block.length = r) (b : Bool) :
    majority r block = b ↔ block.count (!b) < (r + 1) / 2 := by
  have hcount := List.count_not_add_count block true
  cases b with
  | false => rw [majority, popcount, decide_eq_false_iff_not, Bool.not_false]; omega
  | true => rw [majority, popcount, decide_eq_true_iff]; omega

/-- The votes on the copies of a vector's bits are the vector (R325). -/
theorem voteBits_repeatBits {r : Nat} (hr : 0 < r) (u : Bits) : voteBits r (repeatBits r u) = u := by
  rw [voteBits, repeatBits, wholeChunks_flatMap_pieces (fun _ => List.length_replicate) u hr, List.map_map]
  exact (List.map_congr_left fun b _ => majority_replicate hr b).trans (List.map_id u)

/-! ## RENC -/

/-- A nonzero REP is a positive number (R320). -/
theorem toNat_rep_pos {s : State} (h : s.cfg.rep ≠ 0) : 0 < s.cfg.rep.toNat :=
  Nat.pos_of_ne_zero fun h0 => h (BitVec.eq_of_toNat_eq h0)

/-- RENC of REP = 0 names REP's offset (R321). -/
theorem exec_renc_illegal {s : State} (d k : BufId) (h : s.cfg.rep = 0) :
    exec (.renc d k) s = .next (s.raiseError .param 0x048) := by
  rw [exec, execRenc, h]
  rfl

/-- RENC with room for the copies (R321). -/
theorem exec_renc_fits {s : State} {k : BufId} {u : Bits} (d : BufId) (hr : 0 < s.cfg.rep.toNat) (hk : s.buf k = .ok u)
    (hfits : u.length * s.cfg.rep.toNat ≤ 16384) :
    exec (.renc d k) s = .next (s.setBuf d (repeatBits s.cfg.rep.toNat u)).completeOk := by
  simp only [exec, execRenc, Config.bufBits, if_neg (Nat.not_lt.mpr hr), hk, bind_ok_val,
    if_neg (Nat.not_lt.mpr hfits), State.settle_ok]

/-- RENC without room for the copies (R321). -/
theorem exec_renc_capacity {s : State} {k : BufId} {u : Bits} (d : BufId) (hr : 0 < s.cfg.rep.toNat)
    (hk : s.buf k = .ok u) (hlong : u.length * s.cfg.rep.toNat > 16384) :
    exec (.renc d k) s = .next (s.raiseError .capacity (u.length * s.cfg.rep.toNat)) := by
  simp only [exec, execRenc, Config.bufBits, if_neg (Nat.not_lt.mpr hr), hk, bind_ok_val, if_pos hlong,
    State.settle_raised]

/-- Settles O35: REP is checked, then the room for the copies, and bit i of the copies is source bit i div R. -/
theorem rencRepeatsEachBit : Obligations.RencRepeatsEachBit := by
  intro s d k u
  refine ⟨exec_renc_illegal d k, fun hrep hk => ?_⟩
  have hr := toNat_rep_pos hrep
  refine ⟨fun hfits => ?_, exec_renc_capacity d hr hk⟩
  have hlen := length_repeatBits s.cfg.rep.toNat u
  obtain ⟨hok, hbuf, hsetup, hres⟩ := completeOk_setBuf_effect s d (hlen ▸ hfits)
  exact ⟨_, _, exec_renc_fits d hr hk hfits, hok, hbuf, hsetup, hres, hlen, fun i _ => getElem?_repeatBits hr u i⟩

/-! ## RDEC -/

/-- The state RDEC leaves of the source `u`, up to its completion (R323). -/
def State.voted (s : State) (d : BufId) (u : Bits) : State :=
  (s.setBuf d (voteBits s.cfg.rep.toNat u)).setResid (u.length % s.cfg.rep.toNat)

/-- RDEC of REP = 0 names REP's offset (R323). -/
theorem exec_rdec_illegal {s : State} (d k : BufId) (h : s.cfg.rep = 0) :
    exec (.rdec d k) s = .next (s.raiseError .param 0x048) := by
  rw [exec, execRdec, h]
  rfl

/-- RDEC of a legal REP and a readable source (R323). -/
theorem exec_rdec_legal {s : State} {k : BufId} {u : Bits} (d : BufId) (hr : 0 < s.cfg.rep.toNat)
    (hk : s.buf k = .ok u) : exec (.rdec d k) s = .next (s.voted d u).completeOk := by
  simp only [exec, execRdec, if_neg (Nat.not_lt.mpr hr), hk, map_ok_val, State.settle_ok, State.voted]

/-- A successful RDEC is a completion that set the destination to the votes: a readable source has no more blocks than
a buffer has bits (R323). -/
theorem completeOk_voted_effect {s : State} {k : BufId} {u : Bits} (d : BufId) (hk : s.buf k = .ok u) :
    CompletesOk s (s.voted d u).completeOk ∧
      SetsBuffer d (voteBits s.cfg.rep.toNat u) s (s.voted d u).completeOk := by
  have hfits : (voteBits s.cfg.rep.toNat u).length ≤ 16384 := by
    rw [length_voteBits]
    exact (Nat.div_le_self _ _).trans (State.buf_length hk ▸ s.bufLen_le k)
  exact ⟨completesOk_of rfl rfl rfl rfl rfl rfl rfl, setsBuffer_of hfits rfl rfl⟩

/-- RESID holds the number of bits left over, which are fewer than REP (R323). -/
theorem toNat_resid_completeOk_voted {s : State} (d : BufId) (u : Bits) (hr : 0 < s.cfg.rep.toNat) :
    (s.voted d u).completeOk.res.resid.toNat = u.length % s.cfg.rep.toNat := by
  have hrest := Nat.mod_lt u.length hr
  exact toNat_ofNat_of_lt (by omega)

/-- Settles O36: REP is checked, bit j written is the majority of block j, and the bits left over are in RESID. -/
theorem rdecVotesOnWholeBlocks : Obligations.RdecVotesOnWholeBlocks := by
  intro s d k u
  refine ⟨exec_rdec_illegal d k, fun hrep hk => ?_⟩
  have hr := toNat_rep_pos hrep
  have hlen := length_voteBits s.cfg.rep.toNat u
  obtain ⟨hok, hbuf⟩ := completeOk_voted_effect d hk
  exact ⟨_, _, exec_rdec_legal d hr hk, hok, hbuf, ⟨rfl, rfl, rfl⟩, hlen, fun j hj => getElem?_voteBits (hlen ▸ hj),
    toNat_resid_completeOk_voted d u hr, rfl⟩

/-- Settles O38: each whole block has an odd number of bits, so its majority is never a tie. -/
theorem majorityCorrectsFewFlips : Obligations.MajorityCorrectsFewFlips := by
  intro s d k u hodd hk
  have hr : 0 < s.cfg.rep.toNat := by omega
  have hlen := length_voteBits s.cfg.rep.toNat u
  obtain ⟨-, hbuf⟩ := completeOk_voted_effect d hk
  refine ⟨_, _, exec_rdec_legal d hr hk, hbuf.value, hlen, fun j b hj => ?_⟩
  rw [hlen] at hj
  rw [getElem?_voteBits hj, Option.some_inj, majority_eq_iff hodd (length_slice_block hr hj)]

/-! ## The repetition round trip -/

/-- Settles O37: RENC keeps REP, so each block RDEC votes on is the copies of one bit and no bit is left over. -/
theorem repetitionRoundTrip : Obligations.RepetitionRoundTrip := by
  intro s d k e u hrep hk hfits
  have hr := toNat_rep_pos hrep
  have hlen := length_repeatBits s.cfg.rep.toNat u
  have hback := voteBits_repeatBits hr u
  have hexec := exec_renc_fits d hr hk hfits
  have hrest : (repeatBits s.cfg.rep.toNat u).length % s.cfg.rep.toNat = 0 := by rw [hlen, Nat.mul_mod_left]
  rw [← hlen] at hfits
  generalize repeatBits s.cfg.rep.toNat u = v at hfits hback hexec hrest
  obtain ⟨-, hcopies, -⟩ := completeOk_setBuf_effect s d hfits
  obtain ⟨-, hvotes⟩ := completeOk_voted_effect e hcopies.value
  exact ⟨_, _, hexec, exec_rdec_legal e hr hcopies.value, rfl, hvotes.value.trans (congrArg Except.ok hback),
    congrArg (BitVec.ofNat 16) hrest⟩

end Sys2Proof.Machine
end

section
/-! PROOFS. The corrector: CORR's errors, the scan for the first nearest entry, and the codebook members it fixes (R340
to R343). -/

namespace Sys2Proof.Machine

/-! ## The Hamming distance -/

/-- A distance counts bits of the first vector (R19). -/
theorem hammingDist_le_length (u v : Bits) : hammingDist u v ≤ u.length := by
  induction u generalizing v with
  | nil => exact Nat.le_refl 0
  | cons a u ih =>
    cases v with
    | nil => exact Nat.zero_le _
    | cons b v =>
      have hbit := (a != b).toNat_le
      have hrest := ih v
      rw [hammingDist, List.length_cons]
      omega

/-- Vectors of one length have distance 0 exactly when they are equal (R19). -/
theorem hammingDist_eq_zero_iff {u v : Bits} (hl : u.length = v.length) : hammingDist u v = 0 ↔ u = v := by
  induction u generalizing v with
  | nil => rw [List.eq_nil_of_length_eq_zero hl.symm]; exact iff_of_true rfl rfl
  | cons a u ih =>
    cases v with
    | nil => cases hl
    | cons b v => rw [hammingDist, Nat.add_eq_zero_iff, ih (Nat.succ.inj hl), List.cons.injEq]; simp

/-! ## Reading the codebook -/

/-- The entry of a statement is the one the model reads (R340). -/
theorem readEntry_of_entryIs {s : State} {j e : Nat} (h : entryIs s j e) : s.readEntry j = .ok e := by
  obtain ⟨lo, hi, hlo, hhi, rfl⟩ := h
  rw [State.readEntry, (s.readWord_ok_iff _ lo).mpr hlo, bind_ok_val, (s.readWord_ok_iff _ hi).mpr hhi, map_ok_val]

/-- One more entry that fits comes first of those read (R341). -/
theorem State.readEntries_succ_fitting {s : State} {w j n e : Nat} (h : entryIs s j e) (hfit : e < 2 ^ w) :
    s.readEntries w j (n + 1) = (s.readEntries w (j + 1) n).map (bitsOf w e :: ·) := by
  rw [State.readEntries, readEntry_of_entryIs h, bind_ok_val, if_neg (Nat.not_le.mpr hfit)]

/-- Entries that all fit are read in order (R341). -/
theorem State.readEntries_fitting {s : State} {w j n : Nat} {e : Nat → Nat}
    (h : ∀ i, i < j + n → entryIs s i (e i) ∧ e i < 2 ^ w) :
    s.readEntries w j n = .ok ((List.range' j n).map fun i => bitsOf w (e i)) := by
  induction n generalizing j with
  | zero => rfl
  | succ n ih =>
    obtain ⟨hj, hfit⟩ := h j (by omega)
    rw [State.readEntries_succ_fitting hj hfit, ih fun i hi => h i (by omega), map_ok_val, List.range'_succ,
      List.map_cons]

/-- The first entry that does not fit raises WIDTH with its number (R341). -/
theorem State.readEntries_width {s : State} {w j n m : Nat} {e : Nat → Nat} (h : ∀ i, i ≤ m → entryIs s i (e i))
    (hfirst : ∀ i, i < m → e i < 2 ^ w) (hbad : e m ≥ 2 ^ w) (hj : j ≤ m) (hm : m < j + n) :
    s.readEntries w j n = .error (.raised .width (0x10000 + m)) := by
  induction n generalizing j with
  | zero => omega
  | succ n ih =>
    rcases Nat.eq_or_lt_of_le hj with rfl | hlt
    · rw [State.readEntries, readEntry_of_entryIs (h j hj), bind_ok_val, if_pos hbad]
    · rw [State.readEntries_succ_fitting (h j hj) (hfirst j hlt), ih hlt (by omega), map_error_val]

/-! ## The scan -/

/-- Of the entries `f 0` to `f (n-1)`, `b` is one at minimum distance from `u`, and the first such (R342). -/
structure FirstNearest (u : Bits) (f : Nat → Bits) (n : Nat) (b : Nearest) : Prop where
  idx_lt : b.idx < n
  entry_eq : b.entry = f b.idx
  dist_eq : b.dist = hammingDist u (f b.idx)
  dist_le : ∀ i, i < n → b.dist ≤ hammingDist u (f i)
  dist_lt : ∀ i, i < b.idx → b.dist < hammingDist u (f i)

/-- The one entry seen first is the nearest so far. -/
theorem FirstNearest.zero (u : Bits) (f : Nat → Bits) :
    FirstNearest u f 1 { idx := 0, dist := hammingDist u (f 0), entry := f 0 } where
  idx_lt := Nat.one_pos
  entry_eq := rfl
  dist_eq := rfl
  dist_le i hi := by rw [Nat.lt_one_iff.mp hi]
  dist_lt i hi := absurd hi (Nat.not_lt_zero i)

/-- Entry number n takes the place of the best so far when it is strictly nearer (R341, R342). -/
theorem FirstNearest.step {u : Bits} {f : Nat → Bits} {n : Nat} {b : Nearest} (h : FirstNearest u f n b) :
    FirstNearest u f (n + 1)
      (if hammingDist u (f n) < b.dist then { idx := n, dist := hammingDist u (f n), entry := f n } else b) := by
  by_cases hd : hammingDist u (f n) < b.dist
  · rw [if_pos hd]
    have hlt : ∀ i, i < n → hammingDist u (f n) < hammingDist u (f i) :=
      fun i hi => Nat.lt_of_lt_of_le hd (h.dist_le i hi)
    refine ⟨Nat.lt_succ_self n, rfl, rfl, fun i hi => ?_, hlt⟩
    rcases Nat.lt_succ_iff_lt_or_eq.mp hi with hi | rfl
    · exact Nat.le_of_lt (hlt i hi)
    · exact Nat.le_refl _
  · rw [if_neg hd]
    refine ⟨Nat.lt_succ_of_lt h.idx_lt, h.entry_eq, h.dist_eq, fun i hi => ?_, h.dist_lt⟩
    rcases Nat.lt_succ_iff_lt_or_eq.mp hi with hi | rfl
    · exact h.dist_le i hi
    · exact Nat.not_lt.mp hd

/-- The scan keeps the first nearest of the entries it has seen (R342). -/
theorem firstNearest_scanEntries {u : Bits} {f : Nat → Bits} {b : Nearest} {j : Nat} (n : Nat)
    (h : FirstNearest u f j b) : FirstNearest u f (j + n) (scanEntries u b j ((List.range' j n).map f)) := by
  induction n generalizing j b with
  | zero => exact h
  | succ n ih =>
    rw [List.range'_succ, List.map_cons, Nat.add_comm n 1, ← Nat.add_assoc]
    exact ih h.step

/-- CORR's choice among at least one entry is the first nearest (R342). -/
theorem exists_nearestEntry (u : Bits) (f : Nat → Bits) {n : Nat} (hn : 1 ≤ n) :
    ∃ b, nearestEntry u ((List.range' 0 n).map f) = some b ∧ FirstNearest u f n b := by
  obtain ⟨m, rfl⟩ := Nat.exists_eq_add_of_le hn
  rw [Nat.add_comm 1 m, List.range'_succ, List.map_cons, Nat.add_comm m 1]
  exact ⟨_, rfl, firstNearest_scanEntries m (FirstNearest.zero u f)⟩

/-! ## CORR -/

/-- CB_W and CB_N pass CORR's checks (R341). -/
structure State.CodebookLegal (s : State) : Prop where
  width_pos : 1 ≤ s.cfg.cbW.toNat
  width_le : s.cfg.cbW.toNat ≤ 64
  count_pos : 1 ≤ s.cfg.cbN.toNat
  count_le : s.cfg.cbN.toNat ≤ 1024

/-- The check of CB_W passes (R341). -/
theorem cbW_passes {s : State} (hpos : 1 ≤ s.cfg.cbW.toNat) (hle : s.cfg.cbW.toNat ≤ 64) :
    ¬(s.cfg.cbW.toNat < 1 ∨ s.cfg.cbW.toNat > 64) :=
  not_or.mpr ⟨Nat.not_lt.mpr hpos, Nat.not_lt.mpr hle⟩

/-- CORR of an illegal CB_W names its offset (R341). -/
theorem exec_corr_cbW {s : State} (d k : BufId) (h : s.cfg.cbW.toNat < 1 ∨ s.cfg.cbW.toNat > 64) :
    exec (.corr d k) s = .next (s.raiseError .param 0x068) := by
  simp only [exec, execCorr, Config.maxCbW, if_pos h]
  rfl

/-- CORR of an illegal CB_N names its offset (R341). -/
theorem exec_corr_cbN {s : State} (d k : BufId) (hw : ¬(s.cfg.cbW.toNat < 1 ∨ s.cfg.cbW.toNat > 64))
    (h : s.cfg.cbN.toNat > 1024) : exec (.corr d k) s = .next (s.raiseError .param 0x06C) := by
  simp only [exec, execCorr, Config.maxCbW, Config.cbDepth, if_neg hw, if_pos h]
  rfl

/-- CORR of an empty codebook (R341). -/
theorem exec_corr_empty {s : State} (d k : BufId) (hw : ¬(s.cfg.cbW.toNat < 1 ∨ s.cfg.cbW.toNat > 64))
    (h : s.cfg.cbN.toNat = 0) : exec (.corr d k) s = .next (s.raiseError .emptyCb 0) := by
  have hn : ¬s.cfg.cbN.toNat > 1024 := by omega
  simp only [exec, execCorr, Config.maxCbW, Config.cbDepth, if_neg hw, if_neg hn, if_pos h, State.settle_raised]

/-- The state CORR leaves when it chose `b`, up to its completion (R341). -/
def State.corrected (s : State) (d : BufId) (b : Nearest) : State := (s.setBuf d b.entry).setCorrected b

section
variable {s : State} {k : BufId} {u : Bits} (d : BufId) (h : s.CodebookLegal) (hk : s.buf k = .ok u)
include h hk

/-- CORR of an input whose length is not CB_W reports the length (R341). -/
theorem exec_corr_inputWidth (hl : u.length ≠ s.cfg.cbW.toNat) :
    exec (.corr d k) s = .next (s.raiseError .width u.length) := by
  simp only [exec, execCorr, Config.maxCbW, Config.cbDepth, if_neg (cbW_passes h.width_pos h.width_le),
    if_neg (Nat.not_lt.mpr h.count_le), if_neg (Nat.ne_of_gt h.count_pos), hk, bind_ok_val, if_pos hl,
    State.settle_raised]

/-- CORR of an input of length CB_W fails where reading the entries fails (R341). -/
theorem exec_corr_entryWidth (hl : u.length = s.cfg.cbW.toNat) {n : Nat}
    (hread : s.readEntries s.cfg.cbW.toNat 0 s.cfg.cbN.toNat = .error (.raised .width n)) :
    exec (.corr d k) s = .next (s.raiseError .width n) := by
  simp only [exec, execCorr, Config.maxCbW, Config.cbDepth, if_neg (cbW_passes h.width_pos h.width_le),
    if_neg (Nat.not_lt.mpr h.count_le), if_neg (Nat.ne_of_gt h.count_pos), hk, bind_ok_val,
    if_neg (not_not_intro hl), hread, bind_error_val, State.settle_raised]

/-- CORR of an input of length CB_W and entries that fit writes the entry it chose (R341). -/
theorem exec_corr_nearest (hl : u.length = s.cfg.cbW.toNat) {es : List Bits} {b : Nearest}
    (hread : s.readEntries s.cfg.cbW.toNat 0 s.cfg.cbN.toNat = .ok es) (hb : nearestEntry u es = some b) :
    exec (.corr d k) s = .next (s.corrected d b).completeOk := by
  simp only [exec, execCorr, Config.maxCbW, Config.cbDepth, if_neg (cbW_passes h.width_pos h.width_le),
    if_neg (Nat.not_lt.mpr h.count_le), if_neg (Nat.ne_of_gt h.count_pos), hk, bind_ok_val,
    if_neg (not_not_intro hl), hread, hb, State.settle_ok, State.corrected]

end

/-- A successful CORR is a completion that set the destination to the entry chosen (R341). -/
theorem completeOk_corrected_effect (s : State) (d : BufId) {b : Nearest} (hfits : b.entry.length ≤ 16384) :
    CompletesOk s (s.corrected d b).completeOk ∧ SetsBuffer d b.entry s (s.corrected d b).completeOk :=
  ⟨completesOk_of rfl rfl rfl rfl rfl rfl rfl, setsBuffer_of hfits rfl rfl⟩

/-- Settles O41: CB_W is checked, then CB_N, the input's length, and the entries in order. -/
theorem corrErrorsInOrder : Obligations.CorrErrorsInOrder := by
  refine fun s d k => ⟨exec_corr_cbW d k, fun hw1 hw64 => ?_⟩
  have hw := cbW_passes hw1 hw64
  refine ⟨exec_corr_cbN d k hw, exec_corr_empty d k hw, fun hn1 hn1024 u hk => ?_⟩
  have h : s.CodebookLegal := ⟨hw1, hw64, hn1, hn1024⟩
  refine ⟨exec_corr_inputWidth d h hk, fun hl e j hj hes hfirst hbad => exec_corr_entryWidth d h hk hl ?_⟩
  exact State.readEntries_width hes hfirst hbad (Nat.zero_le j) ((Nat.zero_add _).symm ▸ hj)

/-- Settles O39: the scan keeps the first nearest entry, whose index and distance fit their registers. -/
theorem corrReturnsFirstNearestEntry : Obligations.CorrReturnsFirstNearestEntry := by
  intro s d k u e hk hw1 hw64 hn1 hn1024 hl hes
  obtain ⟨b, hb, hfirst⟩ := exists_nearestEntry u (fun i => bitsOf s.cfg.cbW.toNat (e i)) hn1
  have hread := State.readEntries_fitting (j := 0) (n := s.cfg.cbN.toNat) fun i hi => hes i (by omega)
  have hidx : b.idx < 2 ^ 10 := Nat.lt_of_lt_of_le hfirst.idx_lt hn1024
  have hdist : b.dist < 2 ^ 7 := by
    have hle := hammingDist_le_length u (bitsOf s.cfg.cbW.toNat (e b.idx))
    rw [← hfirst.dist_eq] at hle
    omega
  have hfits : b.entry.length ≤ 16384 := by rw [hfirst.entry_eq, length_bitsOf]; omega
  obtain ⟨hok, hbuf⟩ := completeOk_corrected_effect s d hfits
  exact ⟨_, b.idx, exec_corr_nearest d ⟨hw1, hw64, hn1, hn1024⟩ hk hl hread hb, hok, ⟨rfl, rfl, rfl⟩, hfirst.idx_lt,
    hfirst.entry_eq ▸ hbuf, toNat_ofNat_of_lt hidx, (toNat_ofNat_of_lt hdist).trans hfirst.dist_eq,
    hfirst.dist_eq ▸ hfirst.dist_le, hfirst.dist_eq ▸ hfirst.dist_lt, rfl⟩

/-! ## The codebook members -/

/-- Values below 2^w with equal bits_w are equal (R15). -/
theorem eq_of_bitsOf_eq {w x y : Nat} (hx : x < 2 ^ w) (hy : y < 2 ^ w) (h : bitsOf w x = bitsOf w y) : x = y := by
  rw [← Nat.mod_eq_of_lt hx, ← Nat.mod_eq_of_lt hy, ← val_bitsOf, ← val_bitsOf, h]

/-- Settles O40: the input has distance 0 to entry j, so the first nearest entry equals it and is no later, and no
earlier entry equals it. -/
theorem corrFixesCodebookMembers : Obligations.CorrFixesCodebookMembers := by
  rintro s d k _ e j hk hw1 hw64 hn1024 hes hj rfl hfirst
  have hn1 : 1 ≤ s.cfg.cbN.toNat := Nat.one_le_of_lt hj
  obtain ⟨t, m, hexec, hok, -, hm, hbuf, hidx, hdist, hle, hlt, -⟩ :=
    corrReturnsFirstNearestEntry s d k _ e hk hw1 hw64 hn1 hn1024 (length_bitsOf _ _) hes
  have hself : hammingDist (bitsOf s.cfg.cbW.toNat (e j)) (bitsOf s.cfg.cbW.toNat (e j)) = 0 :=
    (hammingDist_eq_zero_iff rfl).mpr rfl
  have hzero : hammingDist (bitsOf s.cfg.cbW.toNat (e j)) (bitsOf s.cfg.cbW.toNat (e m)) = 0 :=
    Nat.eq_zero_of_le_zero (hself ▸ hle j hj)
  have hbits := (hammingDist_eq_zero_iff (by rw [length_bitsOf, length_bitsOf])).mp hzero
  have hvalue : e m = e j := eq_of_bitsOf_eq (hes m hm).2 (hes j hj).2 hbits.symm
  have hmj : m = j := by
    rcases Nat.lt_trichotomy m j with hearlier | heq | hlater
    · exact absurd hvalue (hfirst m hearlier)
    · exact heq
    · exact absurd (hself ▸ hlt j hlater) (Nat.not_lt_zero _)
  exact ⟨t, hexec, hok.errcode, hbits ▸ hbuf.value, BitVec.eq_of_toNat_eq (hdist.trans hzero), hidx.trans hmj⟩

end Sys2Proof.Machine
end

section
/-! PROOFS. What an error completion leaves unchanged, the codes each command raises, and the interrupt: the statements
of 60_exceptions.md. -/

namespace Sys2Proof.Machine

/-! ## Error codes -/

/-- Every command can complete with success (R402). -/
theorem ok_mem_codesOf (i : Instr) : .ok ∈ codesOf i := by
  cases i <;> exact List.mem_cons_self

/-- Settles O46: of the ways a command completes, `Ends.raised` names its code, EMPTY_FREQ is HBUILD's, and the others
are successes. -/
theorem commandsRaiseTheirCodesOnly : Obligations.CommandsRaiseTheirCodesOnly := by
  intro i s t h
  cases ends_of_exec h with
  | raised c n hc => exact hc
  | empty hi => subst hi; simp [codesOf]
  | buffer | symbols | nop | bget | hbuild => exact ok_mem_codesOf i

/-! ## Failed commands -/

/-- A command that fails ends in the error completion of the state it began in, but that HBUILD first clears TBLV
(R401). -/
theorem error_of_ends {i : Instr} {s t : State} (h : Ends i s (.next t)) (herr : t.status.errcode ≠ .ok) :
    (i ≠ .hbuild ∧ ∃ c n, t = s.raiseError c n) ∨ (i = .hbuild ∧ t = s.clearTblv.raiseError .emptyFreq 0) := by
  cases h with
  | raised c n _ hi => exact .inl ⟨hi, c, n, rfl⟩
  | empty hi => exact .inr ⟨hi, rfl⟩
  | buffer | symbols | nop | bget | hbuild => exact absurd rfl herr

/-- Settles O45: an error completion writes STATUS, the pending condition and ERRINFO only, and a completion reports
ERR and ERRINFO as R401 says. -/
theorem failedCommandWritesNothing : Obligations.FailedCommandWritesNothing := by
  intro i s t h
  obtain ⟨-, -, -, -, hset, hkept⟩ := reportsCompletion_of_exec h
  refine ⟨fun herr => ?_, hkept⟩
  have ht : t.status.err = true := hset herr
  rcases error_of_ends (ends_of_exec h) herr with ⟨hi, c, n, rfl⟩ | ⟨hi, rfl⟩
  · exact ⟨rfl, rfl, rfl, rfl, rfl, rfl, rfl, ht, rfl, by simp [hi]⟩
  · exact ⟨rfl, rfl, rfl, rfl, rfl, rfl, rfl, ht, rfl, by simp [hi]⟩

/-! ## The interrupt -/

/-- IRQ from the words software reads (R40, R46, R410). -/
theorem State.irq_eq_readReg (s : State) :
    s.irq = ((s.readReg .status).getLsbD 1 && (s.readReg .ctrl).getLsbD 0) := by
  have hdone : (s.readReg .status).getLsbD 1 = s.status.done := s.status.getLsbD_word 1
  have hie : (s.readReg .ctrl).getLsbD 0 = s.ie := by simp [State.readReg]
  rw [State.irq, hdone, hie]

/-- IRQ is low while DONE = 0 (R410). -/
theorem State.irq_of_not_done {s : State} (h : s.status.done = false) : s.irq = false := by
  rw [State.irq, h, Bool.false_and]

/-- No command changes IE. -/
theorem ie_of_ends {i : Instr} {s t : State} (h : Ends i s (.next t)) : t.ie = s.ie := by
  cases h <;> rfl

/-- A completion sets DONE and keeps IE, so IRQ is IE (R410). -/
theorem irq_of_exec {i : Instr} {s t : State} (h : exec i s = .next t) : t.irq = s.ie := by
  obtain ⟨-, -, hdone, -⟩ := reportsCompletion_of_exec h
  rw [State.irq, hdone, Bool.true_and, ie_of_ends (ends_of_exec h)]

/-- A CTRL write that is no hazard is `writeCtrl` (R46). -/
theorem writeCtrl_of_step {s t : State} {w : Word} (h : step (s.atTurn (.host (.write .word 0x008 w))) = .next t) :
    t = s.writeCtrl w := by
  rw [step_write s 0x008 w rfl] at h
  exact State.hostWrite_next h

/-- With SRST = 0 a CTRL write stores IE (R46). -/
theorem State.writeCtrl_ie (s : State) {w : Word} (h : w.getLsbD 1 = false) :
    s.writeCtrl w = { s with ie := w.getLsbD 0 } := by
  rw [State.writeCtrl, h]
  rfl

/-- With SRST = 1 a CTRL write is a soft reset, whatever its IE bit (R46, R451). -/
theorem State.writeCtrl_softReset (s : State) {w : Word} (h : w.getLsbD 1 = true) : s.writeCtrl w = s.softReset :=
  if_pos h

/-- A CTRL write with IE = 0 or SRST = 1 leaves IRQ low (R410, R451). -/
theorem State.irq_writeCtrl (s : State) {w : Word} (h : w.getLsbD 0 = false ∨ w.getLsbD 1 = true) :
    (s.writeCtrl w).irq = false := by
  cases hsrst : w.getLsbD 1 with
  | true => rw [s.writeCtrl_softReset hsrst]; rfl
  | false =>
    have hie : w.getLsbD 0 = false := h.resolve_right (Bool.eq_false_iff.mp hsrst)
    rw [s.writeCtrl_ie hsrst, State.irq, hie, Bool.and_false]

/-- A STATUS write that clears DONE leaves IRQ low (R40, R410). -/
theorem irq_of_statusWrite {s t : State} {w : Word} (hw : w.getLsbD 1 = true)
    (h : step (s.atTurn (.host (.write .word 0x00C w))) = .next t) : t.irq = false := by
  rw [step_write_reg s 0x00C .status w rfl (.inr (.inl rfl))] at h
  cases h
  exact State.irq_of_not_done (by simp [State.writeReg, hw])

/-- An accepted CMD write clears DONE, so IRQ is low (R150, R410). -/
theorem irq_of_accepted {s t : State} {c : Word} (hb : s.status.busy = false)
    (h : step (s.atTurn (.host (.write .word 0x010 c))) = .next t) : t.irq = false := by
  rw [(cmdWriteIsAcceptedOrDropped s c).1 hb] at h
  cases h
  exact State.irq_of_not_done rfl

/-- The RST input clears DONE and IE, so IRQ is low (R410, R450). -/
theorem irq_of_powerOn {s t : State} (h : step (s.atTurn .powerOn) = .next t) : t.irq = false := by
  rw [step_powerOn] at h
  cases h
  exact State.irq_of_not_done rfl

/-- Settles O60: IRQ in the bits read, its rise at a completion, its falls one by one, and the CTRL write, which with
SRST = 0 is no hazard. -/
theorem irqRisesAtCompletionAndFalls : Obligations.IrqRisesAtCompletionAndFalls := by
  refine fun s t => ⟨s.irq_eq_readReg, fun _ => irq_of_exec, fun _ => irq_of_statusWrite, fun w hw h => ?_,
    fun _ => irq_of_accepted, irq_of_powerOn, fun w hsrst => ?_⟩
  · rw [writeCtrl_of_step h]
    exact s.irq_writeCtrl hw
  · rw [step_write_reg s 0x008 .ctrl w rfl (.inr (.inr (.inr ⟨rfl, hsrst⟩)))]
    exact congrArg _ (s.writeCtrl_ie hsrst)

end Sys2Proof.Machine
end

section
/-! PROOFS. The accesses a busy engine allows the host, and what the RST input and a soft reset restore: the statements
of 70_reset_and_hazards.md. -/

namespace Sys2Proof.Machine

/-! ## The busy hazard -/

/-- While BUSY = 1 the addresses open to a read are those of the five registers R460 names. -/
theorem busyReadAllowed_placeAt (a : Nat) :
    busyReadAllowed (placeAt a) = true ↔ a ∈ [0x000, 0x004, 0x008, 0x00C, 0x010] := by
  simp [busyReadAllowed, placeAt_eq_reg, Reg.addr]

/-- While BUSY = 1 the addresses open to a write are those of STATUS and CMD, and CTRL's where SRST = 0 (R460). -/
theorem busyWriteAllowed_placeAt (a : Nat) (w : Word) :
    busyWriteAllowed (placeAt a) w = true ↔ a ∈ [0x00C, 0x010] ∨ (a = 0x008 ∧ w.getLsbD 1 = false) := by
  simp [busyWriteAllowed, placeAt_eq_reg, Reg.addr, or_assoc]

/-- A place R460 lets the host read is a register, so it has data. -/
theorem State.readPlace_of_busyReadAllowed (s : State) (a : Nat) {p : Place} (h : busyReadAllowed p = true) :
    ∃ d, s.readPlace a p = some d := by
  cases p with
  | reg r => exact ⟨s.readReg r, rfl⟩
  | mem v => simp [busyReadAllowed] at h
  | reserved => simp [busyReadAllowed] at h

/-- While BUSY = 1 an aligned word read outside R460's list is HOST_HAZARD. -/
theorem step_read_hazard {s : State} {a : BusAddr} (h4 : a.toNat % 4 = 0) (hb : s.status.busy = true)
    (h : busyReadAllowed (placeAt a.toNat) = false) :
    step (s.atTurn (.host (.read .word a))) = .fault (.hostHazard a.toNat) := by
  rw [step_read s a h4, State.hostRead, hb, h]
  rfl

/-- An aligned word write R460 allows is the write of the place, busy or not (R107). -/
theorem step_write_allowed {s : State} {a : BusAddr} {w : Word} (h4 : a.toNat % 4 = 0)
    (h : busyWriteAllowed (placeAt a.toNat) w = true) :
    step (s.atTurn (.host (.write .word a w))) = .next (s.writePlace a.toNat (placeAt a.toNat) w) := by
  rw [step_write s a w h4, State.hostWrite, h, Bool.not_true, Bool.and_false]
  rfl

/-- While BUSY = 1 an aligned word write outside R460's list is HOST_HAZARD. -/
theorem step_write_hazard {s : State} {a : BusAddr} {w : Word} (h4 : a.toNat % 4 = 0) (hb : s.status.busy = true)
    (h : busyWriteAllowed (placeAt a.toNat) w = false) :
    step (s.atTurn (.host (.write .word a w))) = .fault (.hostHazard a.toNat) := by
  rw [step_write s a w h4, State.hostWrite, hb, h]
  rfl

/-- Settles O51: an access R460 lists goes on, a read because its place is a register; any other is the hazard. -/
theorem busyHostAccessesAreHazards : Obligations.BusyHostAccessesAreHazards := by
  intro s a w hb h4
  refine ⟨fun hread => ?_, fun hread => ?_, fun hwrite => ?_, fun haddr hctrl => ?_⟩
  · have hallowed := (busyReadAllowed_placeAt a.toNat).mpr hread
    obtain ⟨d, hd⟩ := s.readPlace_of_busyReadAllowed a.toNat hallowed
    exact ⟨_, step_read_some h4 rfl (.inr hallowed) hd⟩
  · exact step_read_hazard h4 hb (Bool.eq_false_iff.mpr (mt (busyReadAllowed_placeAt a.toNat).mp hread))
  · exact ⟨_, step_write_allowed h4 ((busyWriteAllowed_placeAt a.toNat w).mpr hwrite)⟩
  · have hwrite : ¬(a.toNat ∈ [0x00C, 0x010] ∨ (a.toNat = 0x008 ∧ w.getLsbD 1 = false)) :=
      not_or.mpr ⟨haddr, fun ⟨h8, hsrst⟩ => hctrl.elim (· h8) (Bool.eq_false_iff.mp hsrst)⟩
    exact step_write_hazard h4 hb (Bool.eq_false_iff.mpr (mt (busyWriteAllowed_placeAt a.toNat w).mp hwrite))

/-! ## Resets -/

/-- No register's value depends on the memories, nor on the agenda and the host's data word. -/
theorem State.readReg_of_sameRegs (s : State) (m : Memory) (turns : List Turn) (d : Word) (r : Reg) :
    ({ s with mem := m, agenda := turns, rdata := d } : State).readReg r = s.readReg r := by
  cases r <;> rfl

/-- A soft reset gives every register its value in R62 (R451). -/
@[simp] theorem State.readReg_softReset (s : State) (r : Reg) : s.softReset.readReg r = State.reset.readReg r :=
  State.reset.readReg_of_sameRegs s.mem s.agenda s.rdata r

/-- The RST input gives every register its value in R62 (R450). -/
@[simp] theorem State.readReg_powerOn (s : State) (r : Reg) : s.powerOn.readReg r = State.reset.readReg r :=
  State.reset.readReg_of_sameRegs [] s.agenda s.rdata r

/-- An idle CTRL write with SRST = 1 is a soft reset (R46, R451). -/
theorem step_softReset {s : State} {w : Word} (hb : s.status.busy = false) (hsrst : w.getLsbD 1 = true) :
    step (s.atTurn (.host (.write .word 0x008 w))) = .next s.softReset := by
  rw [step_write_reg s 0x008 .ctrl w rfl (.inl hb)]
  exact congrArg _ (s.writeCtrl_softReset hsrst)

/-- Settles O53: the two steps are `powerOn` and `softReset`. -/
theorem resetsRestoreTheRegisters : Obligations.ResetsRestoreTheRegisters := by
  refine fun s w => ⟨?_, fun hb hsrst => ?_⟩
  · exact ⟨s.powerOn, step_powerOn s, rfl, irq_of_powerOn (step_powerOn s), s.readReg_powerOn, Memory.read_nil⟩
  · exact ⟨s.softReset, step_softReset hb hsrst, rfl, rfl, rfl, s.readReg_softReset⟩

end Sys2Proof.Machine
end
